-- ==== Sys2Proof/Word.lean ====
section
/-! DEFINITION. The word types: what spec/00_scope.md R7 calls bytes and bits. -/

namespace Sys2Proof

/-- A byte (R7): a cell of either memory, a wire byte, an arbitration register. -/
abbrev Byte := BitVec 8

/-- A command word `cmd` of the command port (R96). -/
abbrev CmdWord := BitVec 20

/-- The constants of the frame codec (40_frame_codec.md). -/
abbrev endByte : Byte := 0x00#8
abbrev escByte : Byte := 0xDB#8
abbrev escEndByte : Byte := 0xDC#8
abbrev escEscByte : Byte := 0xDD#8

end Sys2Proof
end

