-- ==== Sys2Proof/Syntax.lean ====
section
/-! DEFINITION. The instructions: the ten operations of the command port (R97) and the five wire symbols (R90), one
constructor per row of spec/opcode_table.json; and the two forms an instruction is presented in. -/

namespace Sys2Proof

/-- One constructor per row of the opcode table. The tick input `now` is not an operand: it is sampled when the
operation is accepted (R96). -/
inductive Instr where
  /-- SET_CHIP_ID, operand `arg[13:0]` (R240). -/
  | setChipId (id : BitVec 14)
  /-- SET_PRIORITY, operand the signed 16-bit `arg[15:0]` (R241). -/
  | setPriority (v : BitVec 16)
  /-- IS_IDLE (R242). -/
  | isIdle
  /-- TX_START (R200). -/
  | txStart
  /-- TX_PUSH, operand `arg[7:0]` (R201). -/
  | txPush (b : Byte)
  /-- TX_CLOSE (R202). -/
  | txClose
  /-- RX_READ, operands `arg[15:12]` and `arg[11:0]` (R225). -/
  | rxRead (slot : BitVec 4) (offset : BitVec 12)
  /-- RX_RELEASE, operand `arg[15:12]` (R226). -/
  | rxRelease (slot : BitVec 4)
  /-- RX_BYTE, operand `arg[7:0]` (R161). -/
  | rxByte (c : Byte)
  /-- TX_READY (R180, R182). -/
  | txReady
  /-- The wire symbol END, the raw byte 0x00 (R90, R161). -/
  | endSym
  /-- The wire symbol ESC, the byte 0xDB (R124). -/
  | esc
  /-- The wire symbol ESC_END, the byte 0xDC after an ESC (R125). -/
  | escEnd
  /-- The wire symbol ESC_ESC, the byte 0xDD after an ESC (R126). -/
  | escEsc
  /-- The wire symbol LIT, a literal byte (R123). -/
  | lit (b : Byte)
  deriving DecidableEq, Repr

/-- An instruction as it is presented to the engine: a command word (R96) or a wire byte (R90). -/
inductive Encoded where
  | cmd (w : CmdWord)
  | wire (b : Byte)
  deriving DecidableEq, Repr

/-- Why a word or a byte is no instruction. -/
inductive DecodeError where
  /-- The operation code is 0x0 or 0xB to 0xF (R98). -/
  | reservedOp (op : BitVec 4)
  /-- After an ESC, a byte that is not 0x00, 0xDC or 0xDD is 'not a symbol' (R90, R127). -/
  | invalidEscape (b : Byte)
  deriving DecidableEq, Repr

end Sys2Proof
end

