-- ==== Sys2Proof/WellFormed.lean ====
section
/-! DEFINITION. Which instructions the encodings admit. -/

namespace Sys2Proof

/-- The one constraint the table puts on an operand that its width does not: a LIT is neither 0x00 nor 0xDB (R90, R123).
Every other operand field admits every value. -/
def Instr.wellFormed : Instr → Bool
  | .setChipId _ => true
  | .setPriority _ => true
  | .isIdle => true
  | .txStart => true
  | .txPush _ => true
  | .txClose => true
  | .rxRead _ _ => true
  | .rxRelease _ => true
  | .rxByte _ => true
  | .txReady => true
  | .endSym => true
  | .esc => true
  | .escEnd => true
  | .escEsc => true
  | .lit b => b != endByte && b != escByte

end Sys2Proof
end

