-- ==== Sys2Proof/Decode.lean ====
section
/-! DEFINITION. The decoder of both formats, then the encoder (30_encoding.md R90, R96, R97, R98). Decoding is total; what is no
instruction is rejected by name. -/

namespace Sys2Proof

/-- `cmd[19:16]`, the operation code (R96). -/
def cmdOp (w : CmdWord) : BitVec 4 := w.extractLsb' 16 4

/-- `cmd[15:0]`, the operand field `arg` (R96). -/
def cmdArg (w : CmdWord) : BitVec 16 := w.extractLsb' 0 16

/-- The operand fields of R97, each cut out of `arg` once, here. -/
def argId (a : BitVec 16) : BitVec 14 := a.extractLsb' 0 14
def argByte (a : BitVec 16) : Byte := a.extractLsb' 0 8
def argSlot (a : BitVec 16) : BitVec 4 := a.extractLsb' 12 4
def argOffset (a : BitVec 16) : BitVec 12 := a.extractLsb' 0 12

/-- The operation map (R97) and the reserved codes (R98). Bits an operation does not use are ignored (R96). -/
def decodeCommand (w : CmdWord) : Except DecodeError Instr :=
  match (cmdOp w).toNat with
  | 1 => .ok (.setChipId (argId (cmdArg w)))
  | 2 => .ok (.setPriority (cmdArg w))
  | 3 => .ok .isIdle
  | 4 => .ok .txStart
  | 5 => .ok (.txPush (argByte (cmdArg w)))
  | 6 => .ok .txClose
  | 7 => .ok (.rxRead (argSlot (cmdArg w)) (argOffset (cmdArg w)))
  | 8 => .ok (.rxRelease (argSlot (cmdArg w)))
  | 9 => .ok (.rxByte (argByte (cmdArg w)))
  | 10 => .ok .txReady
  | _ => .error (.reservedOp (cmdOp w))

/-- The wire symbol of a byte, given the pending-escape flag `rx_esc`: the table of R90. -/
def decodeWire (rxEsc : Bool) (b : Byte) : Except DecodeError Instr :=
  if b = endByte then .ok .endSym
  else if rxEsc then
    if b = escEndByte then .ok .escEnd
    else if b = escEscByte then .ok .escEsc
    else .error (.invalidEscape b)
  else if b = escByte then .ok .esc
  else .ok (.lit b)

/-- Both formats at once. The flag matters for a wire byte only. -/
def decode (rxEsc : Bool) : Encoded → Except DecodeError Instr
  | .cmd w => decodeCommand w
  | .wire b => decodeWire rxEsc b

/-- What a byte on the wire is to the receive path (R91). In a frame body it is the symbol of R90; a raw 0x00 is END anywhere;
any other byte (an arbitration byte, an ignored byte, the invalid escape) is no symbol and is received by the plain
operation RX_BYTE. -/
def wireInstr (inBody rxEsc : Bool) (b : Byte) : Instr :=
  if b = endByte then .endSym
  else if inBody then
    match decodeWire rxEsc b with
    | .ok i => i
    | .error _ => .rxByte b
  else .rxByte b

/-- The value of `rx_esc` with which the opcode table lists a wire byte: 0xDC and 0xDD stand there as the second byte of an
escape pair (rows ESC_END, ESC_ESC), every other byte without an escape pending. -/
def tableEsc (b : Byte) : Bool := b = escEndByte || b = escEscByte

/-- A command word from its operation code and its operand field (R96). -/
def mkCmd (op : BitVec 4) (arg : BitVec 16) : CmdWord := op ++ arg

/-- The encoder. Bits an operation does not use are written 0. -/
def encode : Instr → Encoded
  | .setChipId id => .cmd (mkCmd 1 (0#2 ++ id))
  | .setPriority v => .cmd (mkCmd 2 v)
  | .isIdle => .cmd (mkCmd 3 0)
  | .txStart => .cmd (mkCmd 4 0)
  | .txPush b => .cmd (mkCmd 5 (0#8 ++ b))
  | .txClose => .cmd (mkCmd 6 0)
  | .rxRead slot offset => .cmd (mkCmd 7 (slot ++ offset))
  | .rxRelease slot => .cmd (mkCmd 8 (slot ++ 0#12))
  | .rxByte c => .cmd (mkCmd 9 (0#8 ++ c))
  | .txReady => .cmd (mkCmd 10 0)
  | .endSym => .wire endByte
  | .esc => .wire escByte
  | .escEnd => .wire escEndByte
  | .escEsc => .wire escEscByte
  | .lit b => .wire b

/-- The pending-escape flag in whose presence an instruction's encoding is read as that instruction (the 'context' of the
table's wire rows). -/
def Instr.escContext : Instr → Bool
  | .setChipId _ => false
  | .setPriority _ => false
  | .isIdle => false
  | .txStart => false
  | .txPush _ => false
  | .txClose => false
  | .rxRead _ _ => false
  | .rxRelease _ => false
  | .rxByte _ => false
  | .txReady => false
  | .endSym => false
  | .esc => false
  | .escEnd => true
  | .escEsc => true
  | .lit _ => false

/-- An instruction's bits as the opcode table numbers them: up to 8 bits a wire byte, else a 20-bit command word. A value with
bits above its format is no instruction. -/
def tableEncoded (nbits w : Nat) : Option Encoded :=
  if nbits ≤ 8 then
    if w < 256 then some (.wire (BitVec.ofNat 8 w)) else none
  else if w < 1048576 then some (.cmd (BitVec.ofNat 20 w)) else none

/-- The instruction the decoder reads from a row's bits; a wire byte is read with the `rx_esc` of its row. -/
def decodeTableWord (nbits w : Nat) : Option Instr :=
  match tableEncoded nbits w with
  | none => none
  | some (.cmd c) => (decodeCommand c).toOption
  | some (.wire b) => (decodeWire (tableEsc b) b).toOption

end Sys2Proof
end

