-- ==== Sys2Proof/Config.lean ====
section
/-! DEFINITION. What an instance of the engine fixes: the parameters of 00_scope.md R6 and of R141. They are configuration, not state:
every rule takes them as an argument, and nothing here is a value that a statement may rest on. -/

namespace Sys2Proof

/-- The chip-id spreading function of an instance as plain data (R141; 93_implementation_defined.md U11): the formula of R141, which
is the default, or a table that gives the pair (high byte, low byte) of id `k` in its row `k`. Machine/Arbitration.lean reads it. -/
inductive Spreading where
  | formula
  | table (rows : List (Byte × Byte))
  deriving DecidableEq, Repr

/-- The parameters of one instance (R6), and the spreading function (R141). -/
structure Params where
  /-- `TXQ_CAP`, cells of the TX ring. -/
  txqCap : Nat
  /-- `RX_SLOT_CAP`, bytes of one RX slot. -/
  rxSlotCap : Nat
  /-- `N_SLOTS`, number of RX slots. -/
  nSlots : Nat
  /-- `T_RESYNC`, the resync grace window in ticks. -/
  tResync : Nat
  /-- `T_IDLE`, the idle-eligible window in ticks. -/
  tIdle : Nat
  /-- `TICK_BITS`, the width of the tick input. -/
  tickBits : Nat
  /-- `SENDING_COMPLETE`, whether the optional state is used. -/
  sendingComplete : Bool
  /-- The chip-id spreading function; its constraint, the three properties of R141, is `Spreads` of Safety.lean. -/
  spreading : Spreading
  deriving DecidableEq, Repr

/-- The constraint column of R6. -/
abbrev Params.Legal (p : Params) : Prop :=
  4 ≤ p.txqCap ∧ 2 ≤ p.rxSlotCap ∧ p.rxSlotCap ≤ 4096 ∧ 2 ≤ p.nSlots ∧ p.nSlots ≤ 16 ∧
    p.tResync < p.tIdle ∧ 8 ≤ p.tickBits

/-- The default column of R6, the values of the spec's test vectors. -/
def Config.default : Params :=
  { txqCap := 512, rxSlotCap := 256, nSlots := 4, tResync := 5, tIdle := 10, tickBits := 32, sendingComplete := false
    spreading := .formula }

end Sys2Proof
end

