-- ==== Sys2Proof/Machine/State.lean ====
section
/-! DEFINITION. The state. `Engine` holds exactly the fields of 10_state.md R20; `Port` is the boundary of 00_scope.md R10 (inputs
waiting, tick input, last answer, output trace), which R38 keeps out of the engine's state; `State` puts the parameters, the
engine and the port side by side, because the host's step is a function of one state (log entries 1, 2, 3). -/

namespace Sys2Proof.Machine

/-- Handler State (R23). The six values, no seventh. -/
inductive HandlerState where
  | idle
  | participatingArbitration
  | waitingArbitration
  | receiving
  | sending
  | sendingComplete
  deriving DecidableEq, Repr

/-- The eight arbitration registers `arb_pkt[0..7]` (R25), by their field names. -/
structure ArbPkt where
  priority : Byte
  chipIdHi : Byte
  chipIdLo : Byte
  latencyA : Byte
  collMap0 : Byte
  collMap1 : Byte
  collMap2 : Byte
  latencyB : Byte
  deriving DecidableEq, Repr

/-- A memory of byte cells by index (R60), sparse: the pairs whose byte is not `blankByte`, indices strictly rising. -/
abbrev Memory := List Host.Cell

/-- What a cell that nothing has written reads as: unspecified in the spec, which allows a model to take zero (R40, R28, R34;
DESIGN CHOICE, log entry 6). -/
abbrev blankByte : Byte := 0x00#8

/-- One RX slot (R34). -/
structure Slot where
  buf : Memory
  len : Nat
  sep : Nat
  sepValid : Bool
  available : Bool
  deriving DecidableEq, Repr

/-- The complete state of one engine instance (R20), field by field in the order of that table. -/
structure Engine where
  /-- `cfg_chip_id` (R21). -/
  cfgChipId : BitVec 14
  /-- `cfg_priority`, two's complement (R22, R7). -/
  cfgPriority : BitVec 8
  /-- `state` (R23). -/
  state : HandlerState
  /-- `arb_index` (R24). -/
  arbIndex : Nat
  /-- `arb_pkt` (R25). -/
  arbPkt : ArbPkt
  /-- `mismatch_pos` (R26). -/
  mismatchPos : Nat
  /-- `last_activity` (R27). -/
  lastActivity : Nat
  /-- `txq` (R28). -/
  txq : Memory
  /-- `tx_head` (R29). -/
  txHead : Nat
  /-- `tx_tail` (R29). -/
  txTail : Nat
  /-- `tx_pending` (R30). -/
  txPending : Nat
  /-- `tx_lock` (R31). -/
  txLock : Bool
  /-- `tx_frame_start` (R32). -/
  txFrameStart : Nat
  /-- `tx_ovf` (R32). -/
  txOvf : Bool
  /-- `tx_irq_en` (R33). -/
  txIrqEn : Bool
  /-- `slot[0..N_SLOTS-1]` (R34). -/
  slots : List Slot
  /-- `rx_active` (R35). -/
  rxActive : Nat
  /-- `rx_esc` (R36). -/
  rxEsc : Bool
  /-- `rx_drop` (R37). -/
  rxDrop : Bool
  deriving DecidableEq, Repr

/-- The kinds `diag` reports (R259). -/
inductive DiagKind where
  | desync
  | rxOverflow
  | rxNoSlot
  | rxNoSep
  deriving DecidableEq, Repr

/-- The output events (R10). -/
inductive Event where
  | send (b : Byte)
  | notify
  | diag (k : DiagKind)
  deriving DecidableEq, Repr

/-- The status of an operation (R99). -/
inductive Status where
  | ok
  | rejected
  | held
  deriving DecidableEq, Repr

/-- The result of an operation beside its status: IS_IDLE's bit (R242), RX_READ's tuple (R225), else nothing. -/
inductive Result where
  | none
  | idleBit (b : Bool)
  | slotView (available : Bool) (sep len : Nat) (data : Byte)
  deriving DecidableEq, Repr

/-- What the engine answers to an operation (R96, R99). -/
structure Answer where
  status : Status
  result : Result
  deriving DecidableEq, Repr

/-- One input of R10: a command word with the tick at which it is accepted (R96), a byte the transport has received with its
tick (R271), or the reset input (R280). -/
inductive Input where
  | command (w : CmdWord) (now : Nat)
  | wireByte (b : Byte) (now : Nat)
  | reset
  deriving DecidableEq, Repr

/-- The boundary (R10). -/
structure Port where
  /-- The inputs the environment presents, in the order the engine accepts them (R75). -/
  pending : List Input
  /-- The tick input as last presented. -/
  now : Nat
  /-- Status and result of the last operation. -/
  answer : Option Answer
  /-- The output events so far, in order of emission. -/
  trace : List Event
  deriving DecidableEq, Repr

/-- The machine: parameters (never changed), engine state, boundary. -/
structure State where
  params : Params
  engine : Engine
  port : Port
  deriving DecidableEq, Repr

/-- Which memory an access was made to (R60). -/
inductive MemoryName where
  | txq
  | slotBuf (s : Nat)
  deriving DecidableEq, Repr

/-- Why a step stops. The hardware has no trap (R250); each of these is raised only in states no run from reset reaches. -/
inductive Fault where
  /-- A memory index outside its array, which 'is never produced by any rule' (R61). Raised by the two cell accesses of
  Machine/Ops.lean. Safe: the model stops where the spec gives no access. -/
  | noSuchCell (m : MemoryName) (index : Nat)
  /-- A slot number that names no slot, `rx_active` out of its range (R34, R35). Raised by the slot lookup of
  Machine/Ops.lean. Safe. -/
  | noSuchSlot (s : Nat)
  /-- A data byte in an arbitration state with `arb_index` already 7: no rule gives it an effect (R24, R39 V3). Raised by
  `waitStep` and `partStep`. Safe. -/
  | arbIndexOverrun (i : Nat)
  deriving DecidableEq, Repr

/-- Why an instruction has no meaning. No arm of exec answers with it: every row of the table is modelled. -/
inductive Refusal where
  /-- An instruction that the model leaves out. Raised by nothing. Safe. -/
  | notModelled (mnemonic : String)
  deriving DecidableEq, Repr

/-- A slot after reset (R40). -/
def Slot.reset : Slot := { buf := [], len := 0, sep := 0, sepValid := false, available := false }

/-- The engine after reset, the table of R40 (R280). -/
def Engine.reset (p : Params) : Engine :=
  { cfgChipId := 0
    cfgPriority := 0
    state := .idle
    arbIndex := 0
    arbPkt := { priority := 0xFF, chipIdHi := 0xFF, chipIdLo := 0xFF, latencyA := 0xFF
                collMap0 := 0xFF, collMap1 := 0xFF, collMap2 := 0xFF, latencyB := 0xFF }
    mismatchPos := 0
    lastActivity := 0
    txq := []
    txHead := 0
    txTail := 0
    txPending := 0
    txLock := false
    txFrameStart := 0
    txOvf := false
    txIrqEn := false
    slots := List.replicate p.nSlots Slot.reset
    rxActive := 0
    rxEsc := false
    rxDrop := false }

/-- The machine right after reset: the engine of R40, the default parameters of R6, an environment that has presented nothing
yet (log entries 2, 3). -/
def State.reset : State :=
  { params := Config.default
    engine := Engine.reset Config.default
    port := { pending := [], now := 0, answer := none, trace := [] } }

end Sys2Proof.Machine
end

