-- ==== Sys2Proof/Machine/Ops.lean ====
section
/-! DEFINITION. The named operations over the memories, the ring, the slots, the effects of an operation and the port. There is no
exception to take in this hardware (R250, R263) and none to return from (R264): its place is held by the shared report of an
abnormal condition, `Eff.report`. -/

namespace Sys2Proof.Machine

/-! ### Encodings of the enumerations -/

/-- The 3-bit encoding of the handler state (R23). -/
def HandlerState.code : HandlerState → BitVec 3
  | .idle => 0
  | .participatingArbitration => 1
  | .waitingArbitration => 2
  | .receiving => 3
  | .sending => 4
  | .sendingComplete => 5

/-- The 3-bit `diag` code (R259). -/
def DiagKind.code : DiagKind → BitVec 3
  | .desync => 1
  | .rxOverflow => 2
  | .rxNoSlot => 3
  | .rxNoSep => 4

/-- The 2-bit status (R99). -/
def Status.code : Status → BitVec 2
  | .ok => 0
  | .rejected => 1
  | .held => 2

/-- Register `arb_pkt[i]` (R25). Only indices 0 to 7 are ever asked for. -/
def ArbPkt.byte (p : ArbPkt) : Nat → Byte
  | 0 => p.priority
  | 1 => p.chipIdHi
  | 2 => p.chipIdLo
  | 3 => p.latencyA
  | 4 => p.collMap0
  | 5 => p.collMap1
  | 6 => p.collMap2
  | _ => p.latencyB

/-! ### Memory -/

/-- The byte at index `a` (R61). -/
def Memory.read : Memory → Nat → Byte
  | [], _ => blankByte
  | (b, v) :: m, a => if a = b then v else Memory.read m a

/-- The memory with byte `v` at index `a`, in canonical form again (R61). -/
def Memory.write : Memory → Nat → Byte → Memory
  | [], a, v => if v = blankByte then [] else [(a, v)]
  | (b, w) :: m, a, v =>
    if a < b then (if v = blankByte then (b, w) :: m else (a, v) :: (b, w) :: m)
    else if a = b then (if v = blankByte then m else (a, v) :: m)
    else (b, w) :: Memory.write m a v

/-- Every listed index is at least `lo`, the indices rise strictly, and no listed byte is the blank one. -/
def Memory.wfFrom : Nat → Memory → Bool
  | _, [] => true
  | lo, (b, v) :: m => decide (lo ≤ b) && v != blankByte && Memory.wfFrom (b + 1) m

/-- The canonical form: equal memories are equal lists. -/
def Memory.wf (m : Memory) : Bool := Memory.wfFrom 0 m

/-- `MemRead(M, a, 1)` on a memory of `cap` cells (R8, R61). -/
def memRead (name : MemoryName) (cap : Nat) (m : Memory) (a : Nat) : Except Fault Byte :=
  if a < cap then .ok (m.read a) else .error (.noSuchCell name a)

/-- `MemWrite(M, a, 1, v)` on a memory of `cap` cells (R8, R61). -/
def memWrite (name : MemoryName) (cap : Nat) (m : Memory) (a : Nat) (v : Byte) : Except Fault Memory :=
  if a < cap then .ok (m.write a v) else .error (.noSuchCell name a)

/-! ### The TX ring (R62) -/

/-- `txq_used`, over the integers, reduced modulo the capacity. -/
def txqUsed (p : Params) (e : Engine) : Nat :=
  (((e.txHead : Int) - (e.txTail : Int)) % (p.txqCap : Int)).toNat

/-- `txq_free`: one cell is always kept unoccupied. -/
def txqFree (p : Params) (e : Engine) : Nat := p.txqCap - 1 - txqUsed p e

/-- The index after `a` in ring order. -/
def ringNext (p : Params) (a : Nat) : Nat := (a + 1) % p.txqCap

/-- Append one byte at `tx_head`. -/
def appendCell (p : Params) (e : Engine) (v : Byte) : Except Fault Engine :=
  match memWrite .txq p.txqCap e.txq e.txHead v with
  | .ok m => .ok { e with txq := m, txHead := ringNext p e.txHead }
  | .error f => .error f

/-- Append a sequence of bytes in order. -/
def appendCells (p : Params) (e : Engine) : List Byte → Except Fault Engine
  | [] => .ok e
  | v :: vs =>
    match appendCell p e v with
    | .ok e1 => appendCells p e1 vs
    | .error f => .error f

/-- The cells from `a` on in ring order, `n` of them. -/
def ringCells (p : Params) (m : Memory) (a : Nat) : Nat → List Byte
  | 0 => []
  | n + 1 => m.read a :: ringCells p m (ringNext p a) n

/-- The ring content `Q` of R39 V2: the cells from `tx_tail` up to but not including `tx_head`. -/
def ringContent (p : Params) (e : Engine) : List Byte := ringCells p e.txq e.txTail (txqUsed p e)

/-! ### RX slots -/

/-- `slot[s]` (R34). -/
def getSlot (e : Engine) (s : Nat) : Except Fault Slot :=
  match e.slots[s]? with
  | some sl => .ok sl
  | none => .error (.noSuchSlot s)

/-- The engine with `slot[s]` replaced. -/
def setSlot (e : Engine) (s : Nat) (sl : Slot) : Engine := { e with slots := e.slots.set s sl }

/-! ### Effects of an operation -/

/-- The engine an operation has reached and the events it has emitted so far, in order (R8, R9). -/
structure Eff where
  engine : Engine
  events : List Event
  deriving DecidableEq, Repr

/-- No event. -/
def Eff.quiet (e : Engine) : Eff := { engine := e, events := [] }

/-- One `send(b)` (R10). -/
def Eff.sending (e : Engine) (b : Byte) : Eff := { engine := e, events := [.send b] }

/-- One `diag(k)`: an abnormal condition is reported and control goes on (R250, R259). -/
def Eff.report (e : Engine) (k : DiagKind) : Eff := { engine := e, events := [.diag k] }

/-- Run one procedure after another inside the same operation; events keep their order (R262). -/
def Eff.andThen (r : Except Fault Eff) (f : Engine → Except Fault Eff) : Except Fault Eff :=
  match r with
  | .error x => .error x
  | .ok a =>
    match f a.engine with
    | .error x => .error x
    | .ok b => .ok { engine := b.engine, events := a.events ++ b.events }

/-! ### The port -/

/-- The tick input as the engine samples it, `TICK_BITS` bits wide (R10, R96). -/
def State.tick (s : State) : Nat := s.port.now % 2 ^ s.params.tickBits

/-- An answer that is a status alone. -/
def Answer.plain (st : Status) : Answer := { status := st, result := .none }

/-- The machine after an operation: the engine it leaves, its events added to the trace, its answer on the port. -/
def State.finish (s : State) (e : Engine) (evs : List Event) (a : Answer) : State :=
  { s with engine := e
           port := { s.port with answer := some a, trace := s.port.trace ++ evs } }

/-- The outcome of an operation that answers `a` if its steps run through. -/
def State.complete (s : State) (r : Except Fault Eff) (a : Answer) : Host.Outcome State Fault Refusal :=
  match r with
  | .ok x => .next (s.finish x.engine x.events a)
  | .error f => .fault f

/-- A refused or held operation: no state change, no event (R99, R260). -/
def State.turnAway (s : State) (st : Status) : Host.Outcome State Fault Refusal :=
  .next (s.finish s.engine [] (Answer.plain st))

/-- The tick an input brings, if it brings one. -/
def Input.tickOr : Input → Nat → Nat
  | .command _ t, _ => t
  | .wireByte _ t, _ => t
  | .reset, old => old

/-- Accept the input `x`, leaving `rest` waiting: the tick input takes its value (R96). -/
def State.accept (s : State) (x : Input) (rest : List Input) : State :=
  { s with port := { s.port with pending := rest, now := x.tickOr s.port.now } }

/-- The reset input (R280): the engine takes the values of R40, no event is emitted, no operation is answered; the parameters
are not affected. -/
def State.resetEngine (s : State) : State :=
  { s with engine := Engine.reset s.params, port := { s.port with answer := none } }

/-- Present `x` as the next input. -/
def State.present (s : State) (x : Input) : State :=
  { s with port := { s.port with pending := x :: s.port.pending } }

end Sys2Proof.Machine
end

