-- ==== Sys2Proof/Machine/Flags.lean ====
section
/-! DEFINITION. The conditions the rules test: elapsed time and its two windows, the idle predicate, the room test of the ring. -/

namespace Sys2Proof.Machine

/-- `elapsed(now, t)` (R184). -/
def elapsed (p : Params) (now t : Nat) : Nat :=
  (((now : Int) - (t : Int)) % ((2 ^ p.tickBits : Nat) : Int)).toNat

/-- The resync test of R162: strictly longer than the grace window since the last byte. -/
def resyncDue (p : Params) (now : Nat) (e : Engine) : Bool :=
  decide (p.tResync < elapsed p now e.lastActivity)

/-- `is_idle(now)` (R243). -/
def isIdle (p : Params) (now : Nat) (e : Engine) : Bool :=
  decide (e.state = .idle) || decide (p.tIdle < elapsed p now e.lastActivity)

/-- The room test: the cells of `xs` and one for the terminator (R201); with `xs` empty, the terminator alone (R62, R202). -/
def txFits (p : Params) (e : Engine) (xs : List Byte) : Bool :=
  decide (xs.length + 1 ≤ txqFree p e)

/-- 'The queue is exhausted (head==tail)' (R29, R180). -/
def txqEmpty (e : Engine) : Bool := decide (e.txHead = e.txTail)

end Sys2Proof.Machine
end

