-- ==== Sys2Proof/Machine/Arbitration.lean ====
section
/-! DEFINITION. The arbitration packet comparator (41_arbitration_packet.md). -/

namespace Sys2Proof.Machine

/-- `prio_byte(p)` (R140). -/
def prioByte (p : Int) : Byte := 1#8 ||| ((BitVec.ofInt 8 (p + 64)) <<< 1)

/-- `spread14(id)`, the spec's formula and the default of the configured function (R141). -/
def spread14 (id : BitVec 14) : Byte × Byte :=
  ((((id.extractLsb' 7 7).setWidth 8) <<< 1) ||| 1#8, (((id.extractLsb' 0 7).setWidth 8) <<< 1) ||| 1#8)

/-- The spreading function of an instance (R141, U11; log entry 12). A table's missing row takes the formula. -/
def spreadOf (p : Params) (id : BitVec 14) : Byte × Byte :=
  match p.spreading with
  | .formula => spread14 id
  | .table rows => rows.getD id.toNat (spread14 id)

/-- `arb_regen` (R142). -/
def arbRegen (p : Params) (e : Engine) : Engine :=
  { e with arbPkt :=
      { priority := prioByte e.cfgPriority.toInt
        chipIdHi := (spreadOf p e.cfgChipId).1
        chipIdLo := (spreadOf p e.cfgChipId).2
        latencyA := 0xFF
        collMap0 := 0xFF
        collMap1 := 0xFF
        collMap2 := 0xFF
        latencyB := 0xFF } }

/-- One more than the index of the highest set bit among the low `n` bits, 0 if there is none. -/
def topBit (x : Byte) : Nat → Nat
  | 0 => 0
  | n + 1 => if x.getLsbD n then n + 1 else topBit x n

/-- `get_mismatch_pos(a, b)` (R143): 8 names bit 7, 1 names bit 0, 0 means equal. -/
def getMismatchPos (a b : Byte) : Nat := topBit (a ^^^ b) 8

/-- `lin_pos(i, sent, seen)` (R144). -/
def linPos (i : Nat) (sent seen : Byte) : Nat := getMismatchPos sent seen + 8 * (2 - i)

/-- `arb_compare(i, c)` (R145): the first mismatch of the round is recorded. -/
def arbCompare (e : Engine) (i : Nat) (c : Byte) : Engine :=
  if e.mismatchPos = 0 ∧ c ≠ e.arbPkt.byte i then
    { e with mismatchPos := linPos i (e.arbPkt.byte i) c }
  else e

/-- The 24-bit mask of `collmap(p)` (R146). -/
def collMask (p : Nat) : BitVec 24 :=
  if p = 0 then 0xFFFFFF#24 else 0xFFFFFF#24 &&& ~~~(1#24 <<< (p - 1))

/-- The three bytes of `collmap(p)`, most significant first (R146, R64). -/
def collMap (p : Nat) : Byte × Byte × Byte :=
  ((collMask p).extractLsb' 16 8, (collMask p).extractLsb' 8 8, (collMask p).extractLsb' 0 8)

/-- `arb_build_map` (R146). -/
def arbBuildMap (e : Engine) : Engine :=
  { e with arbPkt :=
      { e.arbPkt with
          collMap0 := (collMap e.mismatchPos).1
          collMap1 := (collMap e.mismatchPos).2.1
          collMap2 := (collMap e.mismatchPos).2.2 } }

/-- `below` of R147: the mask of all positions strictly lower than the recorded one. -/
def belowMask (mismatchPos : Nat) : BitVec 24 :=
  if mismatchPos = 0 then 0#24 else (1#24 <<< (mismatchPos - 1)) - 1#24

/-- `lowmask(i)` of R147. -/
def lowMask (mismatchPos i : Nat) : Byte :=
  ((belowMask mismatchPos >>> (8 * (6 - i))) &&& 0xFF#24).setWidth 8

/-- `arb_lost(i, c)` (R147). -/
def arbLost (mismatchPos i : Nat) (c : Byte) : Bool :=
  (~~~c &&& lowMask mismatchPos i &&& 0xFF#8) != 0#8

end Sys2Proof.Machine
end

