-- ==== Sys2Proof/Machine/Codec.lean ====
section
/-! DEFINITION. The frame codec's pure functions (40_frame_codec.md): encoder, decode step, and the stream forms. -/

namespace Sys2Proof.Machine

/-- `enc(b)` (R120). -/
def enc (b : Byte) : List Byte :=
  if b = endByte then [escByte, escEndByte]
  else if b = escByte then [escByte, escEscByte]
  else [b]

/-- `encode(bs)` (R121). No terminator is added (R128). -/
def encodeBytes : List Byte → List Byte
  | [] => []
  | b :: bs => enc b ++ encodeBytes bs

/-- What one decode step gives: the new flag, at most one decoded byte, at most one DESYNC (R122). -/
structure DecStep where
  rxEsc : Bool
  byte : Option Byte
  desync : Bool
  deriving DecidableEq, Repr

/-- `dec_step(rx_esc, c)`, its five cases R123 to R127. -/
def decStepOf (rxEsc : Bool) (c : Byte) : DecStep :=
  if rxEsc then
    if c = escEndByte then { rxEsc := false, byte := some endByte, desync := false }
    else if c = escEscByte then { rxEsc := false, byte := some escByte, desync := false }
    else { rxEsc := false, byte := none, desync := true }
  else if c = escByte then { rxEsc := true, byte := none, desync := false }
  else { rxEsc := false, byte := some c, desync := false }

/-- What the decoder makes of a whole byte string (R131). -/
structure Decoded where
  bytes : List Byte
  rxEsc : Bool
  desyncs : Nat
  deriving DecidableEq, Repr

/-- The stream form of R131, from a given flag. -/
def decodeFrom (rxEsc : Bool) : List Byte → Decoded
  | [] => { bytes := [], rxEsc := rxEsc, desyncs := 0 }
  | c :: cs =>
    let d := decStepOf rxEsc c
    let r := decodeFrom d.rxEsc cs
    { bytes := d.byte.toList ++ r.bytes
      rxEsc := r.rxEsc
      desyncs := (if d.desync then 1 else 0) + r.desyncs }

/-- `decode(ws)` (R131). -/
def decodeBytes (ws : List Byte) : Decoded := decodeFrom false ws

end Sys2Proof.Machine
end

