-- ==== Sys2Proof/Machine/Operands.lean ====
section
/-! DEFINITION. What an operand field stands for (R95): the signed priority and its clamp, slot numbers and offsets. -/

namespace Sys2Proof.Machine

/-- The operand of SET_PRIORITY, `sext(arg[15:0])` (R241). -/
def priorityOperand (v : BitVec 16) : Int := v.toInt

/-- The clamp of R241 to `[-60, 60]`. -/
def clampPriority (v : Int) : Int :=
  if v < -60 then -60 else if v > 60 then 60 else v

/-- A priority as the 8-bit register holds it (R22). -/
def priorityBits (v : Int) : BitVec 8 := BitVec.ofInt 8 v

/-- The slot number of RX_READ and RX_RELEASE (R225, R226). -/
def slotOperand (slot : BitVec 4) : Nat := slot.toNat

/-- The offset of RX_READ (R225). -/
def offsetOperand (offset : BitVec 12) : Nat := offset.toNat

end Sys2Proof.Machine
end

