-- ==== Sys2Proof/Machine/RxSlots.lean ====
section
/-! DEFINITION. The RX slot pool (44_rx_slots.md): the pump's three procedures, the decode step on the engine, and the consumer's
two operations. -/

namespace Sys2Proof.Machine

/-- A slot with its write cursor reset, as `rx_begin` leaves a free one (R220). -/
def Slot.restart (sl : Slot) : Slot := { sl with len := 0, sepValid := false, sep := 0 }

/-- A slot with one decoded byte appended; the first zero byte becomes the separator (R221, R222). -/
def Slot.store (sl : Slot) (d : Byte) : Slot :=
  if d = 0#8 ∧ sl.sepValid = false then
    { sl with buf := sl.buf.write sl.len d, sep := sl.len, sepValid := true, len := sl.len + 1 }
  else { sl with buf := sl.buf.write sl.len d, len := sl.len + 1 }

/-- `rx_begin` (R220). -/
def rxBegin (e : Engine) : Except Fault Eff :=
  match getSlot e e.rxActive with
  | .error f => .error f
  | .ok sl =>
    if sl.available then .ok (Eff.report { e with rxEsc := false, rxDrop := true } .rxNoSlot)
    else .ok (Eff.quiet (setSlot { e with rxEsc := false, rxDrop := false } e.rxActive sl.restart))

/-- `rx_emit(d)` (R221, R222, R223). -/
def rxEmit (p : Params) (d : Byte) (e : Engine) : Except Fault Eff :=
  if e.rxDrop then .ok (Eff.quiet e)
  else
    match getSlot e e.rxActive with
    | .error f => .error f
    | .ok sl =>
      if sl.len = p.rxSlotCap then .ok (Eff.report { e with rxDrop := true } .rxOverflow)
      else
        match memWrite (.slotBuf e.rxActive) p.rxSlotCap sl.buf sl.len d with
        | .error f => .error f
        | .ok _ => .ok (Eff.quiet (setSlot e e.rxActive (sl.store d)))

/-- The decode step on the engine (R122): the flag, then the decoded byte or the report. -/
def decStep (p : Params) (c : Byte) (e : Engine) : Except Fault Eff :=
  let d := decStepOf e.rxEsc c
  let e1 := { e with rxEsc := d.rxEsc }
  match d.byte with
  | some b => rxEmit p b e1
  | none => if d.desync then .ok (Eff.report e1 .desync) else .ok (Eff.quiet e1)

/-- The first lines of `rx_finish`: a dangling escape is cleared and reported (R224, R128). -/
def endEscape (e : Engine) : Eff :=
  if e.rxEsc then Eff.report { e with rxEsc := false } .desync else Eff.quiet e

/-- The rest of `rx_finish`: deliver the frame, or not (R224). -/
def deliver (p : Params) (e : Engine) : Except Fault Eff :=
  if e.rxDrop then .ok (Eff.quiet e)
  else
    match getSlot e e.rxActive with
    | .error f => .error f
    | .ok sl =>
      if sl.sepValid then
        .ok { engine := { setSlot e e.rxActive { sl with available := true } with rxActive := (e.rxActive + 1) % p.nSlots }
              events := [.notify] }
      else .ok (Eff.report e .rxNoSep)

/-- `rx_finish` (R224). -/
def rxFinish (p : Params) (e : Engine) : Except Fault Eff :=
  Eff.andThen (.ok (endEscape e)) (deliver p)

/-- The topic of the frame in a slot (R225): `buf[0 .. sep-1]`. -/
def Slot.topic (sl : Slot) : List Byte := (List.range sl.sep).map sl.buf.read

/-- The payload of the frame in a slot (R225): `buf[sep+1 .. len-1]`. -/
def Slot.payload (sl : Slot) : List Byte :=
  (List.range (sl.len - sl.sep - 1)).map (fun k => sl.buf.read (sl.sep + 1 + k))

/-- The decoded bytes a slot holds so far, `buf[0 .. len-1]` (R34). -/
def Slot.bytes (sl : Slot) : List Byte := (List.range sl.len).map sl.buf.read

/-- The data byte RX_READ answers (R225). -/
def readData (p : Params) (s : Nat) (sl : Slot) (k : Nat) : Except Fault Byte :=
  if sl.available = true ∧ k < sl.len then memRead (.slotBuf s) p.rxSlotCap sl.buf k else .ok 0#8

/-- RX_READ s, k (R225). -/
def execRxRead (slot : BitVec 4) (offset : BitVec 12) (s : State) : Host.Outcome State Fault Refusal :=
  if s.params.nSlots ≤ slotOperand slot then s.turnAway .rejected
  else
    match getSlot s.engine (slotOperand slot) with
    | .error f => .fault f
    | .ok sl =>
      match readData s.params (slotOperand slot) sl (offsetOperand offset) with
      | .error f => .fault f
      | .ok d =>
        .next (s.finish s.engine [] { status := .ok, result := .slotView sl.available sl.sep sl.len d })

/-- RX_RELEASE s (R226). -/
def execRxRelease (slot : BitVec 4) (s : State) : Host.Outcome State Fault Refusal :=
  if s.params.nSlots ≤ slotOperand slot then s.turnAway .rejected
  else
    match getSlot s.engine (slotOperand slot) with
    | .error f => .fault f
    | .ok sl =>
      .next (s.finish (setSlot s.engine (slotOperand slot) { sl with available := false }) [] (Answer.plain .ok))

end Sys2Proof.Machine
end

