-- ==== Sys2Proof/Machine/BytePump.lean ====
section
/-! DEFINITION. The byte pump (42_byte_pump.md): RX_BYTE, TX_READY and the kick. Every change of `state` is here. -/

namespace Sys2Proof.Machine

/-- `force_idle` (R162). -/
def forceIdle (e : Engine) : Engine := { e with state := .idle, txIrqEn := false }

/-- `rearb` (R169). -/
def rearb (p : Params) (e : Engine) : Eff :=
  let e0 := { e with arbIndex := 0, mismatchPos := 0 }
  if 0 < e.txPending then
    let e1 := arbRegen p e0
    Eff.sending { e1 with state := .participatingArbitration } e1.arbPkt.priority
  else Eff.quiet { e0 with state := .waitingArbitration }

/-- `wait_step` (R171). The count is 3 bits wide; an eighth byte has no rule (R24, R39 V3). -/
def waitStep (e : Engine) : Except Fault Eff :=
  if e.arbIndex < 6 then .ok (Eff.quiet { e with arbIndex := e.arbIndex + 1 })
  else if e.arbIndex = 6 then
    Eff.andThen (rxBegin { e with arbIndex := 7 }) (fun e1 => .ok (Eff.quiet { e1 with state := .receiving }))
  else .error (.arbIndexOverrun e.arbIndex)

/-- `part_lose` (R175), `arb_index` already advanced. -/
def partLose (e : Engine) : Except Fault Eff :=
  if e.arbIndex = 7 then
    Eff.andThen (rxBegin e) (fun e1 => .ok (Eff.quiet { e1 with state := .receiving }))
  else .ok (Eff.quiet { e with state := .waitingArbitration })

/-- `part_win` (R176). -/
def partWin (e : Engine) : Engine := { e with state := .sending, txIrqEn := true }

/-- `part_step`, case `i <= 2`: the echo of an identity byte (R172). -/
def partIdentity (e : Engine) (c : Byte) : Eff :=
  let e1 := arbCompare e e.arbIndex c
  let e2 := if e.arbIndex = 2 then arbBuildMap e1 else e1
  Eff.sending { e2 with arbIndex := e.arbIndex + 1 } (e2.arbPkt.byte (e.arbIndex + 1))

/-- The echo of `latency_a` (R173). -/
def partLatency (e : Engine) : Eff := Eff.sending { e with arbIndex := 4 } e.arbPkt.collMap0

/-- `part_step`, case `4 <= i <= 6`: the echo of a collision-map byte (R174). -/
def partMap (e : Engine) (c : Byte) : Except Fault Eff :=
  let e1 := { e with arbIndex := e.arbIndex + 1 }
  if arbLost e.mismatchPos e.arbIndex c then partLose e1
  else if e.arbIndex < 6 then .ok (Eff.sending e1 (e.arbPkt.byte (e.arbIndex + 1)))
  else .ok (Eff.quiet (partWin e1))

/-- `part_step` (R172 to R174). -/
def partStep (e : Engine) (c : Byte) : Except Fault Eff :=
  if e.arbIndex ≤ 2 then .ok (partIdentity e c)
  else if e.arbIndex = 3 then .ok (partLatency e)
  else if e.arbIndex ≤ 6 then partMap e c
  else .error (.arbIndexOverrun e.arbIndex)

/-- The raw END byte, after the resync test (R163 to R166). -/
def endStep (p : Params) (e : Engine) : Except Fault Eff :=
  match e.state with
  | .sending => .ok (Eff.quiet e)
  | .sendingComplete => .ok (Eff.quiet { e with state := .idle })
  | .receiving => Eff.andThen (rxFinish p e) (fun e1 => .ok (rearb p e1))
  | .idle => .ok (rearb p e)
  | .participatingArbitration => .ok (rearb p e)
  | .waitingArbitration => .ok (rearb p e)

/-- A data byte (R170 to R177). -/
def dataStep (p : Params) (c : Byte) (e : Engine) : Except Fault Eff :=
  match e.state with
  | .idle => .ok (Eff.quiet e)
  | .sending => .ok (Eff.quiet e)
  | .sendingComplete => .ok (Eff.quiet e)
  | .waitingArbitration => waitStep e
  | .participatingArbitration => partStep e c
  | .receiving => decStep p c e

/-- The operation RX_BYTE c @now on the engine (R161): the elapsed time is taken before the timestamp is written. -/
def rxByteStep (p : Params) (now : Nat) (c : Byte) (e : Engine) : Except Fault Eff :=
  let e1 := { e with lastActivity := now }
  if c = endByte then endStep p (if resyncDue p now e then forceIdle e1 else e1)
  else dataStep p c e1

/-- A byte is received from the transport: the shared operation of RX_BYTE and the five wire symbols (R161, R91). -/
def receive (c : Byte) (s : State) : Host.Outcome State Fault Refusal :=
  s.complete (rxByteStep s.params s.tick c s.engine) (Answer.plain .ok)

/-- RX_BYTE c (R161). -/
def execRxByte (c : Byte) (s : State) : Host.Outcome State Fault Refusal := receive c s

/-- `tx_done` (R181). -/
def txDone (p : Params) (e : Engine) : Engine :=
  { e with txPending := e.txPending - 1
           txIrqEn := false
           state := if p.sendingComplete then .sendingComplete else .idle }

/-- TX_READY in `Sending`: drain one byte (R180). -/
def drainStep (p : Params) (e : Engine) : Except Fault Eff :=
  if txqEmpty e then .ok (Eff.quiet (txDone p e))
  else
    match memRead .txq p.txqCap e.txq e.txTail with
    | .error f => .error f
    | .ok b =>
      let e1 := { e with txTail := ringNext p e.txTail }
      .ok (Eff.sending (if b = endByte then txDone p e1 else e1) b)

/-- TX_READY (R180, R182). -/
def execTxReady (s : State) : Host.Outcome State Fault Refusal :=
  if s.engine.state = .sending then s.complete (drainStep s.params s.engine) (Answer.plain .ok)
  else s.turnAway .ok

/-- `kick(now)` (R183). -/
def kick (p : Params) (now : Nat) (e : Engine) : Eff :=
  let e1 := arbRegen p { e with arbIndex := 0, mismatchPos := 0 }
  Eff.sending { e1 with state := .participatingArbitration, txIrqEn := false, lastActivity := now } endByte

end Sys2Proof.Machine
end

