-- ==== Sys2Proof/Machine/ConfigQuery.lean ====
section
/-! DEFINITION. Configuration and query operations (45_config_query.md). -/

namespace Sys2Proof.Machine

/-- SET_CHIP_ID id (R240). -/
def execSetChipId (id : BitVec 14) (s : State) : Host.Outcome State Fault Refusal :=
  .next (s.finish { s.engine with cfgChipId := id } [] (Answer.plain .ok))

/-- SET_PRIORITY v (R241). -/
def execSetPriority (v : BitVec 16) (s : State) : Host.Outcome State Fault Refusal :=
  .next (s.finish { s.engine with cfgPriority := priorityBits (clampPriority (priorityOperand v)) } [] (Answer.plain .ok))

/-- IS_IDLE @now (R242). -/
def execIsIdle (s : State) : Host.Outcome State Fault Refusal :=
  .next (s.finish s.engine [] { status := .ok, result := .idleBit (isIdle s.params s.tick s.engine) })

end Sys2Proof.Machine
end

