-- ==== Sys2Proof/Machine/TxQueue.lean ====
section
/-! DEFINITION. The TX queue and producer gate (43_tx_queue.md). -/

namespace Sys2Proof.Machine

/-- TX_START (R200). -/
def execTxStart (s : State) : Host.Outcome State Fault Refusal :=
  if s.engine.txLock then s.turnAway .held
  else
    .next (s.finish { s.engine with txLock := true, txFrameStart := s.engine.txHead, txOvf := false } [] (Answer.plain .ok))

/-- The detection of a TX overflow, 'in TX_PUSH, TX_CLOSE' (R251, R256): the frame is marked if the cells of `xs` and one more for the
terminator are not free. A mark that is set stays set. -/
def markOverflow (p : Params) (xs : List Byte) (e : Engine) : Engine := { e with txOvf := e.txOvf || !txFits p e xs }

/-- TX_PUSH b (R201). -/
def execTxPush (b : Byte) (s : State) : Host.Outcome State Fault Refusal :=
  if s.engine.txLock = false then s.turnAway .rejected
  else if (markOverflow s.params (enc b) s.engine).txOvf then
    .next (s.finish (markOverflow s.params (enc b) s.engine) [] (Answer.plain .rejected))
  else
    match appendCells s.params s.engine (enc b) with
    | .error f => .fault f
    | .ok e => .next (s.finish e [] (Answer.plain .ok))

/-- `tx_rollback` (R203). -/
def txRollback (e : Engine) : Engine := { e with txHead := e.txFrameStart, txOvf := false, txLock := false }

/-- The steps of an accepted TX_CLOSE (R202), in its order: terminator, count, kick if idle, release. -/
def closeSteps (p : Params) (now : Nat) (e : Engine) : Except Fault Eff :=
  match appendCell p e endByte with
  | .error f => .error f
  | .ok e1 =>
    let e2 := { e1 with txPending := e1.txPending + 1 }
    let r := if isIdle p now e2 then kick p now e2 else Eff.quiet e2
    .ok { engine := { r.engine with txLock := false }, events := r.events }

/-- TX_CLOSE (R202, R260). The overflow that R251 has TX_CLOSE detect is marked first, then the tests and steps of R202 run as they
stand, so that `tx_ovf = 1` at the test is the one condition of the rollback (R260). DEDUCED (log entry 11): a frame whose
terminator finds no free cell is such an overflow, since appending 'is done only when txq_free >= 1' (R62, R206 e). -/
def execTxClose (s : State) : Host.Outcome State Fault Refusal :=
  if s.engine.txLock = false then s.turnAway .rejected
  else if (markOverflow s.params [] s.engine).txOvf then
    .next (s.finish (txRollback (markOverflow s.params [] s.engine)) [] (Answer.plain .rejected))
  else s.complete (closeSteps s.params s.tick s.engine) (Answer.plain .ok)

end Sys2Proof.Machine
end

