-- ==== Sys2Proof/Machine/WireSymbols.lean ====
section
/-! DEFINITION. The five wire symbols (R90) as instructions: the byte of the symbol is received. In its context (the frame body,
the escape flag of its row) the effect is the symbol's rule R123 to R126; elsewhere it is what R91 gives that byte (log entries
4, 5). -/

namespace Sys2Proof.Machine

/-- END (R90, R161): the raw 0x00, in every state. -/
def execEnd (s : State) : Host.Outcome State Fault Refusal := receive endByte s

/-- ESC (R124). -/
def execEsc (s : State) : Host.Outcome State Fault Refusal := receive escByte s

/-- ESC_END (R125). -/
def execEscEnd (s : State) : Host.Outcome State Fault Refusal := receive escEndByte s

/-- ESC_ESC (R126). -/
def execEscEsc (s : State) : Host.Outcome State Fault Refusal := receive escEscByte s

/-- LIT b (R123). -/
def execLit (b : Byte) (s : State) : Host.Outcome State Fault Refusal := receive b s

end Sys2Proof.Machine
end

