-- ==== Sys2Proof/Machine/Dispatch.lean ====
section
/-! DEFINITION. One arm per instruction: the meaning it has. -/

namespace Sys2Proof.Machine

def exec (i : Instr) (s : State) : Host.Outcome State Fault Refusal :=
  match i with
  | .setChipId id => Sys2Proof.Machine.execSetChipId id s
  | .setPriority v => Sys2Proof.Machine.execSetPriority v s
  | .isIdle => Sys2Proof.Machine.execIsIdle s
  | .txStart => Sys2Proof.Machine.execTxStart s
  | .txPush b => Sys2Proof.Machine.execTxPush b s
  | .txClose => Sys2Proof.Machine.execTxClose s
  | .rxRead slot offset => Sys2Proof.Machine.execRxRead slot offset s
  | .rxRelease slot => Sys2Proof.Machine.execRxRelease slot s
  | .rxByte c => Sys2Proof.Machine.execRxByte c s
  | .txReady => Sys2Proof.Machine.execTxReady s
  | .endSym => Sys2Proof.Machine.execEnd s
  | .esc => Sys2Proof.Machine.execEsc s
  | .escEnd => Sys2Proof.Machine.execEscEnd s
  | .escEsc => Sys2Proof.Machine.execEscEsc s
  | .lit b => Sys2Proof.Machine.execLit b s

end Sys2Proof.Machine
end

