-- ==== Sys2Proof/Machine/Serve.lean ====
section
/-! DEFINITION. Serving one accepted input: what the engine does with a command word, a wire byte or the reset input; and the
form in which the opcode table's bits are presented at the port. -/

namespace Sys2Proof.Machine

/-- A command word: the operation it names, or REJECTED with no state change for a reserved code (R97, R98). -/
def serveCommand (w : CmdWord) (s : State) : Host.Outcome State Fault Refusal :=
  match decodeCommand w with
  | .ok i => exec i s
  | .error _ => s.turnAway .rejected

/-- A byte from the transport: the wire symbol it is, or plain RX_BYTE where it is none (R90, R91). -/
def serveWire (b : Byte) (s : State) : Host.Outcome State Fault Refusal :=
  exec (wireInstr (decide (s.engine.state = .receiving)) s.engine.rxEsc b) s

/-- One accepted input (R9, R10). -/
def serve (x : Input) (s : State) : Host.Outcome State Fault Refusal :=
  match x with
  | .command w _ => serveCommand w s
  | .wireByte b _ => serveWire b s
  | .reset => .next s.resetEngine

/-- The machine in the context of a wire row of the opcode table: in a frame body, with the row's escape flag. A raw 0x00 has
no context: it is END in any state (R90; log entry 5). -/
def State.inRowContext (s : State) (b : Byte) : State :=
  if b = endByte then s
  else { s with engine := { s.engine with state := .receiving, rxEsc := tableEsc b } }

/-- Present the bits of an opcode-table row as the next input, at the present tick. -/
def State.presentRow (s : State) (nbits w : Nat) : State :=
  if nbits ≤ 8 then
    (s.inRowContext (BitVec.ofNat 8 w)).present (.wireByte (BitVec.ofNat 8 w) s.port.now)
  else s.present (.command (BitVec.ofNat 20 w) s.port.now)

end Sys2Proof.Machine
end

