-- ==== Sys2Proof/Machine/Step.lean ====
section
/-! DEFINITION. One step: accept the next input and serve it. -/

namespace Sys2Proof.Machine

/-- One step. With no input waiting the engine is inactive (60_exceptions.md section 7) and nothing changes. -/
def step (s : State) : Host.Outcome State Fault Refusal :=
  match s.port.pending with
  | [] => .next s
  | x :: rest => serve x (s.accept x rest)

/-- The machine with the bits of an opcode-table row presented as its next input (log entry 3). -/
def State.withFetchWord (s : State) (nbits w : Nat) : State := s.presentRow nbits w

end Sys2Proof.Machine
end

