-- ==== Sys2Proof/Machine/Script.lean ====
section
/-! DEFINITION. Derived functions (30_encoding.md R102, R103): scripts, and the pseudo-operations as the producers and the consumer
call them. They run the operations of `exec` one after another and read the answer of each at the port; `set_chip_id`,
`set_priority`, `is_idle`, `byte_received` and `transmit_ready` are the operations of the same name. -/

namespace Sys2Proof.Machine

/-- The machine with the tick input at `t`, the `@t` of a script line (R102). -/
def State.atTick (s : State) (t : Nat) : State := { s with port := { s.port with now := t } }

/-- The last operation answered with the status `st` (R99). -/
def State.answered (s : State) (st : Status) : Bool := s.port.answer.map (fun a => a.status) == some st

/-- Go on with what an operation left; a stop stays a stop. -/
def onNext {α β : Type} (r : Host.Outcome α Fault Refusal) (f : α → Host.Outcome β Fault Refusal) :
    Host.Outcome β Fault Refusal :=
  match r with
  | .next a => f a
  | .fault x => .fault x
  | .refused x => .refused x

/-- A script: operations in order, each at its tick (R102). -/
def execScript : List (Instr × Nat) → State → Host.Outcome State Fault Refusal
  | [], s => .next s
  | (i, t) :: is, s => onNext (exec i (s.atTick t)) (execScript is)

/-- TX_PUSH of each byte in order. The status is OK if every TX_PUSH returned OK (R103). -/
def pushAll : List Byte → State → Host.Outcome (State × Status) Fault Refusal
  | [], s => .next (s, .ok)
  | b :: bs, s =>
    onNext (exec (.txPush b) s) (fun t =>
      onNext (pushAll bs t) (fun r => .next (r.1, if t.answered .ok then r.2 else .rejected)))

/-- `start_packet "topic"` (R103): TX_START, repeated while it returns HELD; then the topic's bytes and the topic's zero byte.
`others` is what the other contexts do between one try and the next, a script for each; if the tries end with the lock still
held the status is HELD. -/
def startPacket (topic : List Byte) : List (List (Instr × Nat)) → State → Host.Outcome (State × Status) Fault Refusal
  | [], s =>
    onNext (exec .txStart s) (fun t =>
      if t.answered .held then .next (t, .held) else pushAll (topic ++ [endByte]) t)
  | batch :: rest, s =>
    onNext (exec .txStart s) (fun t =>
      if t.answered .held then onNext (execScript batch t) (startPacket topic rest) else pushAll (topic ++ [endByte]) t)

/-- `add_packet_data b0, b1, …` (R103). -/
def addPacketData (bs : List Byte) (s : State) : Host.Outcome (State × Status) Fault Refusal := pushAll bs s

/-- `close_packet @t` (R103). -/
def closePacket (t : Nat) (s : State) : Host.Outcome State Fault Refusal := exec .txClose (s.atTick t)

/-- `rx_bytes b0, b1, … @t` (R103): a script, all lines at the same tick. -/
def rxBytes (bs : List Byte) (t : Nat) : List (Instr × Nat) := bs.map (fun b => (.rxByte b, t))

/-- The data bytes RX_READ answers at the offsets of a list, in order. -/
def readOffsets (slot : BitVec 4) : List Nat → State → Host.Outcome (State × List Byte) Fault Refusal
  | [], s => .next (s, [])
  | k :: ks, s =>
    onNext (exec (.rxRead slot (BitVec.ofNat 12 k)) s) (fun t =>
      onNext (readOffsets slot ks t) (fun r =>
        match t.port.answer with
        | some { status := _, result := .slotView _ _ _ d } => .next (r.1, d :: r.2)
        | _ => .next r))

/-- `rx_frame s` (R103): RX_READ s, 0 for `available`, `sep`, `len`; RX_READ s, k for k in 0..len-1; then RX_RELEASE s. It yields
`(topic, payload)` as R225 cuts them, and nothing for a slot that is not available or not there. -/
def rxFrame (slot : BitVec 4) (s : State) : Host.Outcome (State × Option (List Byte × List Byte)) Fault Refusal :=
  onNext (exec (.rxRead slot 0) s) (fun h =>
    match h.port.answer with
    | some { status := _, result := .slotView available sep len _ } =>
      onNext (readOffsets slot (List.range len) h) (fun r =>
        onNext (exec (.rxRelease slot) r.1) (fun u =>
          .next (u, if available then some (r.2.take sep, r.2.drop (sep + 1)) else none)))
    | _ => .next (h, none))

end Sys2Proof.Machine
end

