-- ==== Sys2Proof/Machine/TestBench.lean ====
section
/-! DEFINITION. The spec's test bench for several nodes (R273): a bus that shows the bitwise AND of the bytes sent in one byte time.
It is no part of the engine and no rule of the engine uses it; it serves the statements on R288 (log entry 13). -/

namespace Sys2Proof.Machine

/-- The byte the bench's bus shows; 0xFF if every node is silent (R273). -/
def busByte (sent : List Byte) : Byte := sent.foldr (· &&& ·) 0xFF#8

/-- The three identity bytes of a packet (R149). -/
structure Identity where
  priority : Byte
  chipIdHi : Byte
  chipIdLo : Byte
  deriving DecidableEq, Repr

/-- The 24-bit number of an identity (R149). -/
def Identity.number (a : Identity) : BitVec 24 := a.priority ++ a.chipIdHi ++ a.chipIdLo

/-- What the bus shows while the nodes send their identities. -/
def busIdentity (ids : List Identity) : Identity :=
  { priority := busByte (ids.map Identity.priority)
    chipIdHi := busByte (ids.map Identity.chipIdHi)
    chipIdLo := busByte (ids.map Identity.chipIdLo) }

/-- The position a node records when it sends `own` and sees `bus`: the first mismatch (R145). -/
def recordedPos (own bus : Identity) : Nat :=
  if own.priority ≠ bus.priority then linPos 0 own.priority bus.priority
  else if own.chipIdHi ≠ bus.chipIdHi then linPos 1 own.chipIdHi bus.chipIdHi
  else if own.chipIdLo ≠ bus.chipIdLo then linPos 2 own.chipIdLo bus.chipIdLo
  else 0

/-- Byte `i` (4 to 6) of the collision map of a recorded position (R146). -/
def mapByte (p i : Nat) : Byte :=
  if i = 4 then (collMap p).1 else if i = 5 then (collMap p).2.1 else (collMap p).2.2

/-- A node is never excluded when the bus shows the maps `maps` in positions 4, 5, 6 (R147, R174). -/
def neverExcluded (pos : Nat) (maps : Nat → Byte) : Bool :=
  !arbLost pos 4 (maps 4) && !arbLost pos 5 (maps 5) && !arbLost pos 6 (maps 6)

end Sys2Proof.Machine
end

