-- ==== Sys2Proof/Safety.lean ====
section
/-! DEFINITION. What a sound state is: the invariants of 10_state.md R39 clause by clause, the index bounds and memory forms they
rest on, and the words the statements use. -/

namespace Sys2Proof.Machine

/-! ### The invariants of R39 -/

/-- Every index inside its array, every counter but `tx_pending` inside its range (R20, R61; `tx_pending` is bounded through V2),
both memories in canonical form. -/
structure InRange (p : Params) (e : Engine) : Prop where
  head : e.txHead < p.txqCap
  tail : e.txTail < p.txqCap
  frameStart : e.txFrameStart < p.txqCap
  arbIndex : e.arbIndex ≤ 7
  lastActivity : e.lastActivity < 2 ^ p.tickBits
  slotCount : e.slots.length = p.nSlots
  active : e.rxActive < p.nSlots
  txqWf : e.txq.wf = true
  bufWf : ∀ sl ∈ e.slots, sl.buf.wf = true
  seps : ∀ sl ∈ e.slots, sl.sep < p.rxSlotCap

/-- V1: the transmit-ready request stands exactly in `Sending`. -/
abbrev V1 (e : Engine) : Prop := e.txIrqEn = true ↔ e.state = .sending

/-- V3: a participating node has a frame queued and fewer than seven arbitration bytes behind it, a waiting node too has fewer
than seven; and (what V3 concludes for the node that wins) a sending node has a frame queued. -/
abbrev V3 (e : Engine) : Prop :=
  (e.state = .participatingArbitration → 0 < e.txPending ∧ e.arbIndex ≤ 6) ∧
    (e.state = .waitingArbitration → e.arbIndex ≤ 6) ∧
    (e.state = .sending → 0 < e.txPending)

/-- V4 of one slot, with the facts it rests on: a frame without a separator so far holds no zero byte, and its `sep` is 0. -/
abbrev Slot.V4 (p : Params) (sl : Slot) : Prop :=
  sl.len ≤ p.rxSlotCap ∧
    (sl.sepValid = true → sl.sep < sl.len ∧ sl.buf.read sl.sep = 0#8 ∧ ∀ k < sl.sep, sl.buf.read k ≠ 0#8) ∧
    (sl.sepValid = false → sl.sep = 0 ∧ ∀ k < sl.len, sl.buf.read k ≠ 0#8) ∧
    (sl.available = true → sl.sepValid = true)

/-- V4: every slot. -/
abbrev V4 (p : Params) (e : Engine) : Prop := ∀ sl ∈ e.slots, sl.V4 p

/-- V5: the priority is in its range and the recorded position is at most 24. (`cfg_chip_id < 2^14` is the type's.) -/
abbrev V5 (e : Engine) : Prop :=
  -60 ≤ e.cfgPriority.toInt ∧ e.cfgPriority.toInt ≤ 60 ∧ e.mismatchPos ≤ 24

/-- V6: without the lock no overflow mark. -/
abbrev V6 (e : Engine) : Prop := e.txLock = false → e.txOvf = false

/-- A byte with exactly one bit cleared. -/
abbrev oneBitCleared (b : Byte) : Prop := ∃ k < 8, b = ~~~(1#8 <<< k)

/-- V7: the packet of a participating node. -/
abbrev V7 (e : Engine) : Prop :=
  e.state = .participatingArbitration →
    e.arbPkt.priority.getLsbD 0 = true ∧ e.arbPkt.chipIdHi.getLsbD 0 = true ∧ e.arbPkt.chipIdLo.getLsbD 0 = true ∧
      e.arbPkt.latencyA = 0xFF#8 ∧
      ((e.arbPkt.collMap0 = 0xFF#8 ∧ e.arbPkt.collMap1 = 0xFF#8 ∧ e.arbPkt.collMap2 = 0xFF#8) ∨
        (oneBitCleared e.arbPkt.collMap0 ∧ e.arbPkt.collMap1 = 0xFF#8 ∧ e.arbPkt.collMap2 = 0xFF#8) ∨
        (e.arbPkt.collMap0 = 0xFF#8 ∧ oneBitCleared e.arbPkt.collMap1 ∧ e.arbPkt.collMap2 = 0xFF#8) ∨
        (e.arbPkt.collMap0 = 0xFF#8 ∧ e.arbPkt.collMap1 = 0xFF#8 ∧ oneBitCleared e.arbPkt.collMap2))

/-- The slot being filled belongs to the pump: while a frame is being stored, its slot is not `available` (R68, R229 b). -/
abbrev PumpOwns (e : Engine) : Prop :=
  e.state = .receiving → e.rxDrop = false → ∀ sl ∈ e.slots[e.rxActive]?, sl.available = false

/-- The invariants of R39 but V2, with the bounds they rest on. Every operation keeps these; V2 stands beside them, below. -/
structure Sound (p : Params) (e : Engine) : Prop where
  range : InRange p e
  v1 : V1 e
  v3 : V3 e
  v4 : V4 p e
  v5 : V5 e
  v6 : V6 e
  v7 : V7 e
  owns : PumpOwns e

/-- A list of cells that is empty or ends in a terminator: whole chunks only. -/
abbrev Closed (q : List Byte) : Prop := q = [] ∨ q.getLast? = some 0#8

/-- How far, in ring order, `tx_frame_start` lies behind `tx_tail`. -/
def frameOffset (p : Params) (e : Engine) : Nat :=
  (((e.txFrameStart : Int) - (e.txTail : Int)) % (p.txqCap : Int)).toNat

/-- V2: the ring holds `tx_pending` terminators; without the lock only whole chunks; with it, whole chunks up to
`tx_frame_start` and from there the encoded bytes of the frame being composed, which hold no terminator. So `tx_pending` is in
its range 0 to `TXQ_CAP - 1` (R20, R30). -/
structure V2 (p : Params) (e : Engine) : Prop where
  bound : e.txPending < p.txqCap
  count : (ringContent p e).count 0#8 = e.txPending
  unlocked : e.txLock = false → Closed (ringContent p e)
  mark : e.txLock = true → frameOffset p e ≤ txqUsed p e
  queued : e.txLock = true → Closed ((ringContent p e).take (frameOffset p e))
  composed : e.txLock = true → ∀ b ∈ (ringContent p e).drop (frameOffset p e), b ≠ 0#8

/-- What an accepted push leaves (R201): while a frame without the overflow mark holds pushed bytes, its terminator fits. -/
abbrev TerminatorFits (p : Params) (e : Engine) : Prop :=
  e.txLock = true → e.txOvf = false → e.txHead ≠ e.txFrameStart → 1 ≤ txqFree p e

/-- A TX_CLOSE that finds no cell for its terminator, though no push has been refused: in states where the terminator of pushed
bytes fits, a frame with no pushed byte on a full ring (log entry 11). -/
abbrev ClosesFullRing (s : State) : Prop :=
  s.engine.txLock = true ∧ s.engine.txOvf = false ∧ txqFree s.params s.engine = 0

/-- The three properties R141 requires of the spreading function: bit 0 of both bytes is set, no two ids share a pair, and a lower
id gives a lower pair. -/
structure Spreads (f : BitVec 14 → Byte × Byte) : Prop where
  bitZero : ∀ id, (f id).1.getLsbD 0 = true ∧ (f id).2.getLsbD 0 = true
  injective : ∀ id id', f id = f id' → id = id'
  monotone : ∀ id id', id.toNat < id'.toNat →
    (f id).1.toNat * 256 + (f id).2.toNat < (f id').1.toNat * 256 + (f id').2.toNat

/-- A sound machine: legal parameters (R6), a spreading function as R141 requires it, and a sound engine. -/
structure State.Sound (s : State) : Prop where
  legal : s.params.Legal
  spreads : Spreads (spreadOf s.params)
  engine : Machine.Sound s.params s.engine

/-! ### Safe runs -/

/-- A step that neither faults nor refuses. -/
def Completes (r : Host.Outcome State Fault Refusal) : Prop := ∃ t, r = .next t

/-! ### Words of the statements -/

/-- The bytes of the `send` events, in order. -/
def sends : List Event → List Byte
  | [] => []
  | .send b :: es => b :: sends es
  | .notify :: es => sends es
  | .diag _ :: es => sends es

/-- The packet `arb_regen` writes, byte by byte (R142). -/
abbrev ownPacket (p : Params) (e : Engine) : ArbPkt :=
  { priority := prioByte e.cfgPriority.toInt
    chipIdHi := (spreadOf p e.cfgChipId).1
    chipIdLo := (spreadOf p e.cfgChipId).2
    latencyA := 0xFF, collMap0 := 0xFF, collMap1 := 0xFF, collMap2 := 0xFF, latencyB := 0xFF }

/-- Received in a frame body with the escape flag `esc`, the instruction decodes to the byte `d` (R123, R125, R126), as a wire
symbol or as the operation RX_BYTE. -/
abbrev decodesTo (esc : Bool) (i : Instr) (d : Byte) : Prop :=
  (esc = true ∧ (i = .escEnd ∨ i = .rxByte 0xDC#8) ∧ d = 0x00#8) ∨
    (esc = true ∧ (i = .escEsc ∨ i = .rxByte 0xDD#8) ∧ d = 0xDB#8) ∨
    (esc = false ∧ (i = .lit d ∨ i = .rxByte d) ∧ d ≠ 0x00#8 ∧ d ≠ 0xDB#8)

/-- The status OK and no result. -/
abbrev okAnswer : Answer := { status := .ok, result := .none }

/-- Everything the producers own in R41. -/
abbrev sameProducerRegisters (a b : Engine) : Prop :=
  a.txLock = b.txLock ∧ a.txFrameStart = b.txFrameStart ∧ a.txOvf = b.txOvf

/-- The ring and its counters. -/
abbrev sameRing (a b : Engine) : Prop :=
  a.txq = b.txq ∧ a.txHead = b.txHead ∧ a.txTail = b.txTail ∧ a.txPending = b.txPending

/-- The receive side. -/
abbrev sameReceiveSide (a b : Engine) : Prop :=
  a.slots = b.slots ∧ a.rxActive = b.rxActive ∧ a.rxEsc = b.rxEsc ∧ a.rxDrop = b.rxDrop

/-- The configuration registers. -/
abbrev sameConfig (a b : Engine) : Prop := a.cfgChipId = b.cfgChipId ∧ a.cfgPriority = b.cfgPriority

/-- The sequencing and arbitration registers, the timestamp and the transmit-ready request. -/
abbrev sameSequencing (a b : Engine) : Prop :=
  a.state = b.state ∧ a.arbIndex = b.arbIndex ∧ a.mismatchPos = b.mismatchPos ∧ a.arbPkt = b.arbPkt ∧
    a.lastActivity = b.lastActivity ∧ a.txIrqEn = b.txIrqEn

end Sys2Proof.Machine
end

