-- ==== Sys2Proof/Certificates/Slice0/Obligations.lean ====
section
/-! DEFINITION. The statements for the provers. Unless a docstring says otherwise a statement formalises the rule it names and rests
on no choice of the model. `s.finish e evs a` is `s` with engine `e`, the events `evs` added to the trace and the answer `a`: an
equation with it is also the statement's frame, since every field not written in `e` is the old one. -/

open Sys2Proof Sys2Proof.Machine

/-! ### Encodings -/

/-- Decode after encode, for every instruction, with every operand at every value its encoding admits (R90, R96, R97). -/
def Obligations.DecodeOfEncodeIsTheInstruction : Prop :=
  ∀ i : Instr, i.wellFormed = true → decode i.escContext (encode i) = .ok i

/-- Two command words with the same operation code that agree on the operand bits the operation uses decode alike (R96, R97). -/
def Obligations.UnusedOperandBitsAreIgnored : Prop :=
  ∀ w w' : CmdWord, w.extractLsb' 16 4 = w'.extractLsb' 16 4 →
    ((w.extractLsb' 16 4 = 1#4 → w.extractLsb' 0 14 = w'.extractLsb' 0 14) ∧
      (w.extractLsb' 16 4 = 2#4 → w.extractLsb' 0 16 = w'.extractLsb' 0 16) ∧
      (w.extractLsb' 16 4 = 5#4 → w.extractLsb' 0 8 = w'.extractLsb' 0 8) ∧
      (w.extractLsb' 16 4 = 7#4 → w.extractLsb' 0 16 = w'.extractLsb' 0 16) ∧
      (w.extractLsb' 16 4 = 8#4 → w.extractLsb' 12 4 = w'.extractLsb' 12 4) ∧
      (w.extractLsb' 16 4 = 9#4 → w.extractLsb' 0 8 = w'.extractLsb' 0 8)) →
    decodeCommand w = decodeCommand w'

/-- A few command words of 95_test_vectors.md, written out, decode to the instruction they stand for. -/
def Obligations.WordsOfTheVectorsDecode : Prop :=
  decodeCommand 0x10123#20 = .ok (.setChipId 0x0123#14) ∧
    decodeCommand 0x1C123#20 = .ok (.setChipId 0x0123#14) ∧
    decodeCommand 0x2FFC4#20 = .ok (.setPriority 0xFFC4#16) ∧
    decodeCommand 0x30000#20 = .ok .isIdle ∧
    decodeCommand 0x5AB61#20 = .ok (.txPush 0x61#8) ∧
    decodeCommand 0x70003#20 = .ok (.rxRead 0#4 3#12) ∧
    decodeCommand 0x8F000#20 = .ok (.rxRelease 15#4) ∧
    decodeCommand 0x9FF00#20 = .ok (.rxByte 0x00#8) ∧
    decodeCommand 0xA1234#20 = .ok .txReady

/-- The classification table of R90. -/
def Obligations.WireSymbolsAreClassified : Prop :=
  (∀ rxEsc, decodeWire rxEsc 0x00#8 = .ok .endSym) ∧
    decodeWire false 0xDB#8 = .ok .esc ∧
    decodeWire true 0xDC#8 = .ok .escEnd ∧
    decodeWire true 0xDD#8 = .ok .escEsc ∧
    (∀ b : Byte, b ≠ 0x00#8 → b ≠ 0xDB#8 → decodeWire false b = .ok (.lit b)) ∧
    (∀ b : Byte, b ≠ 0x00#8 → b ≠ 0xDC#8 → b ≠ 0xDD#8 → decodeWire true b = .error (.invalidEscape b))

/-! ### Steps -/

/-- A step accepts the next input and runs the instruction it decodes to. The machine around `exec` does this: the input leaves
the port and its tick becomes the tick input (`accept`); a data byte that is no symbol where it arrives is run as RX_BYTE; with
nothing waiting nothing happens; the reset input is no instruction. The port is the model's (log entry 3). -/
def Obligations.StepRunsTheDecodedInstruction : Prop :=
  (∀ (s : State) w now rest i, s.port.pending = .command w now :: rest → decodeCommand w = .ok i →
      step s = exec i (s.accept (.command w now) rest)) ∧
    (∀ (s : State) b now rest i, s.port.pending = .wireByte b now :: rest →
      (b = 0x00#8 ∨ s.engine.state = .receiving) → decodeWire s.engine.rxEsc b = .ok i →
      step s = exec i (s.accept (.wireByte b now) rest)) ∧
    (∀ (s : State) b now rest r, s.port.pending = .wireByte b now :: rest →
      b ≠ 0x00#8 → (s.engine.state ≠ .receiving ∨ decodeWire s.engine.rxEsc b = .error r) →
      step s = exec (.rxByte b) (s.accept (.wireByte b now) rest)) ∧
    (∀ s : State, s.port.pending = [] → step s = .next s)

/-- The bits of an opcode-table row, presented as the next input, are run as the row's instruction by the very next step: a
command in the state as it is, a wire byte in its row's context (the model's presentation, log entries 3, 5). -/
def Obligations.PresentedRowIsRunNext : Prop :=
  ∀ (s : State) nbits w i, decodeTableWord nbits w = some i →
    step (s.withFetchWord nbits w) = exec i (if nbits ≤ 8 then s.inRowContext (BitVec.ofNat 8 w) else s)

/-- R98: a reserved operation code, or a slot field beyond the pool, changes no state, emits no event and is REJECTED. -/
def Obligations.ReservedCommandsAreRejected : Prop :=
  ∀ (s : State) (w : CmdWord) now rest, s.port.pending = .command w now :: rest →
    (w.extractLsb' 16 4 = 0#4 ∨ 11 ≤ (w.extractLsb' 16 4).toNat ∨
      ((w.extractLsb' 16 4 = 7#4 ∨ w.extractLsb' 16 4 = 8#4) ∧ s.params.nSlots ≤ (w.extractLsb' 12 4).toNat)) →
    step s = .next ((s.accept (.command w now) rest).finish s.engine [] { status := .rejected, result := .none })

/-- R40: what reset leaves, register by register; the spec gives these values (as its own decision D25). The parameters and the
trace are as before (R280). -/
def Obligations.ResetLeavesTheTableOfValues : Prop :=
  ∀ (s : State) rest, s.port.pending = .reset :: rest → ∃ t, step s = .next t ∧
    t.params = s.params ∧ t.port.trace = s.port.trace ∧
    t.engine.cfgChipId = 0 ∧ t.engine.cfgPriority = 0 ∧ t.engine.state = .idle ∧ t.engine.arbIndex = 0 ∧
    (∀ i < 8, t.engine.arbPkt.byte i = 0xFF#8) ∧ t.engine.mismatchPos = 0 ∧ t.engine.lastActivity = 0 ∧
    t.engine.txHead = 0 ∧ t.engine.txTail = 0 ∧ t.engine.txPending = 0 ∧ t.engine.txLock = false ∧
    t.engine.txOvf = false ∧ t.engine.txFrameStart = 0 ∧ t.engine.txIrqEn = false ∧
    t.engine.slots.length = s.params.nSlots ∧
    (∀ sl ∈ t.engine.slots, sl.len = 0 ∧ sl.sep = 0 ∧ sl.sepValid = false ∧ sl.available = false) ∧
    t.engine.rxActive = 0 ∧ t.engine.rxEsc = false ∧ t.engine.rxDrop = false

/-- No operation and no reset changes a parameter (R6, R280). -/
def Obligations.ParametersNeverChange : Prop :=
  ∀ s t : State, step s = .next t → t.params = s.params

/-! ### Invariants of the whole machine -/

/-- The invariants of R39 hold after reset, for every legal instance. -/
def Obligations.ResetSatisfiesTheInvariants : Prop :=
  ∀ p : Params, p.Legal → Sound p (Engine.reset p) ∧ V2 p (Engine.reset p)

/-- R39 but V2: every step from every sound state leads to a sound state, whatever the environment presents. `Sound` bounds every
index and counter but `tx_pending`, whose bound is part of V2 (EveryStepKeepsTheRing). -/
def Obligations.EveryStepKeepsTheInvariants : Prop :=
  ∀ s t : State, s.Sound → step s = .next t → t.Sound

/-- R39 V2, without exception: the ring holds exactly `tx_pending` terminated chunks, and behind them the frame being composed; so
`tx_pending` never exceeds `TXQ_CAP - 1` (R30). With it every step keeps what an accepted push leaves: room for the terminator
(R201). -/
def Obligations.EveryStepKeepsTheRing : Prop :=
  ∀ s t : State, s.Sound → V2 s.params s.engine → step s = .next t →
    V2 t.params t.engine ∧ t.engine.txPending ≤ t.params.txqCap - 1 ∧
      (TerminatorFits s.params s.engine → TerminatorFits t.params t.engine)

/-- R206 (e), R62, R251: a TX_CLOSE that finds no free cell for its terminator writes none. The frame is rolled back, nothing is
queued, the lock is released and the status is REJECTED. In a sound state in which pushed bytes left room for their terminator
such a frame is empty, so the ring keeps its content (the reading is the model's, DEDUCED, log entry 11). -/
def Obligations.CloseOnAFullRingIsRefused : Prop :=
  ∀ s : State, ClosesFullRing s →
    exec .txClose s = .next (s.finish
        { s.engine with txHead := s.engine.txFrameStart, txOvf := false, txLock := false } []
        { status := .rejected, result := .none }) ∧
      (s.Sound → TerminatorFits s.params s.engine → ∀ t, exec .txClose s = .next t →
        ringContent t.params t.engine = ringContent s.params s.engine)

/-- No sequence of operations brings the engine to a state from which it does not go on (R265, R160): from a sound state no step
faults, and no instruction does. -/
def Obligations.NothingStopsASoundMachine : Prop :=
  ∀ s : State, s.Sound → Completes (step s) ∧ ∀ i, Completes (exec i s)

/-- Every operation emits at most one `send` (R185 (a) for the pump's two; the others emit at most the kick's). The trace only
grows. -/
def Obligations.AtMostOneSendPerOperation : Prop :=
  ∀ i (s t : State), exec i s = .next t → ∃ evs, t.port.trace = s.port.trace ++ evs ∧ (sends evs).length ≤ 1

/-- The access table R41, column by column, as what an operation leaves alone: a configuration operation or query writes only the
configuration registers; a consumer operation only `available` bits; a producer operation no configuration, no receive side,
no `tx_tail`, and (but for the kick of TX_CLOSE) no sequencing; a pump operation no configuration, no producer register, no
ring cell and no `tx_head`, and it never clears `available`. -/
def Obligations.EachContextWritesOnlyItsOwn : Prop :=
  ∀ i (s t : State), exec i s = .next t →
    (match i with
      | .setChipId _ => sameRing t.engine s.engine ∧ sameProducerRegisters t.engine s.engine ∧
          sameReceiveSide t.engine s.engine ∧ sameSequencing t.engine s.engine ∧ t.engine.cfgPriority = s.engine.cfgPriority
      | .setPriority _ => sameRing t.engine s.engine ∧ sameProducerRegisters t.engine s.engine ∧
          sameReceiveSide t.engine s.engine ∧ sameSequencing t.engine s.engine ∧ t.engine.cfgChipId = s.engine.cfgChipId
      | .isIdle => t.engine = s.engine
      | .txStart => sameConfig t.engine s.engine ∧ sameRing t.engine s.engine ∧ sameReceiveSide t.engine s.engine ∧
          sameSequencing t.engine s.engine
      | .txPush _ => sameConfig t.engine s.engine ∧ sameReceiveSide t.engine s.engine ∧ sameSequencing t.engine s.engine ∧
          t.engine.txTail = s.engine.txTail ∧ t.engine.txPending = s.engine.txPending ∧
          t.engine.txLock = s.engine.txLock ∧ t.engine.txFrameStart = s.engine.txFrameStart
      | .txClose => sameConfig t.engine s.engine ∧ sameReceiveSide t.engine s.engine ∧
          t.engine.txTail = s.engine.txTail ∧ t.engine.txFrameStart = s.engine.txFrameStart
      | .rxRead _ _ => t.engine = s.engine
      | .rxRelease _ => sameConfig t.engine s.engine ∧ sameRing t.engine s.engine ∧
          sameProducerRegisters t.engine s.engine ∧ sameSequencing t.engine s.engine ∧
          t.engine.rxActive = s.engine.rxActive ∧ t.engine.rxEsc = s.engine.rxEsc ∧ t.engine.rxDrop = s.engine.rxDrop ∧
          t.engine.slots.map (fun sl => (sl.buf, sl.len, sl.sep, sl.sepValid)) =
            s.engine.slots.map (fun sl => (sl.buf, sl.len, sl.sep, sl.sepValid))
      | .txReady => sameConfig t.engine s.engine ∧ sameProducerRegisters t.engine s.engine ∧
          sameReceiveSide t.engine s.engine ∧ t.engine.txq = s.engine.txq ∧ t.engine.txHead = s.engine.txHead ∧
          t.engine.arbIndex = s.engine.arbIndex ∧ t.engine.mismatchPos = s.engine.mismatchPos ∧
          t.engine.arbPkt = s.engine.arbPkt ∧ t.engine.lastActivity = s.engine.lastActivity
      | .rxByte _ | .endSym | .esc | .escEnd | .escEsc | .lit _ =>
          sameConfig t.engine s.engine ∧ sameProducerRegisters t.engine s.engine ∧ sameRing t.engine s.engine ∧
          t.engine.slots.length = s.engine.slots.length ∧
          ∀ (k : Nat) (sl : Slot), s.engine.slots[k]? = some sl → sl.available = true →
            ∃ sl' : Slot, t.engine.slots[k]? = some sl' ∧ sl'.available = true)

/-- R229 (b): a slot that the consumer owns keeps its frame, byte for byte, through every step but reset, and stays `available`
until the RX_RELEASE that names it. -/
def Obligations.AnAvailableSlotIsNeverTouched : Prop :=
  ∀ (s t : State) x rest k sl, s.Sound → s.port.pending = x :: rest → x ≠ .reset → step s = .next t →
    s.engine.slots[k]? = some sl → sl.available = true →
    ∃ sl', t.engine.slots[k]? = some sl' ∧ sl'.buf = sl.buf ∧ sl'.len = sl.len ∧ sl'.sep = sl.sep ∧
      sl'.sepValid = sl.sepValid ∧
      (sl'.available = true ∨ ∃ w now slot, x = .command w now ∧ decodeCommand w = .ok (.rxRelease slot) ∧ slot.toNat = k)

/-! ### Frame codec -/

/-- R129: decoding the encoding of any byte string gives it back, reports no DESYNC and leaves no escape pending. -/
def Obligations.CodecRoundTrip : Prop :=
  ∀ bs : List Byte, decodeBytes (encodeBytes bs) = { bytes := bs, rxEsc := false, desyncs := 0 }

/-- R130: no raw zero in an encoding, and every ESC in it is followed by one of the two bytes that complete it. -/
def Obligations.EncodingHasNoStraySymbol : Prop :=
  (∀ bs : List Byte, 0x00#8 ∉ encodeBytes bs ∧
      ∀ pre post, encodeBytes bs = pre ++ 0xDB#8 :: post → ∃ c rest, post = c :: rest ∧ (c = 0xDC#8 ∨ c = 0xDD#8)) ∧
    encodeBytes (encodeBytes [0xDB#8]) = [0xDB#8, 0xDD#8, 0xDD#8]

/-- R120, R121: the encoding byte by byte, as a concatenation, and its length. -/
def Obligations.EncodingIsAConcatenation : Prop :=
  encodeBytes [] = [] ∧
    (∀ b : Byte, encodeBytes [b] =
      (if b = 0x00#8 then [0xDB#8, 0xDC#8] else if b = 0xDB#8 then [0xDB#8, 0xDD#8] else [b])) ∧
    (∀ bs cs : List Byte, encodeBytes (bs ++ cs) = encodeBytes bs ++ encodeBytes cs) ∧
    (∀ bs : List Byte, (encodeBytes bs).length = bs.length + bs.count 0x00#8 + bs.count 0xDB#8 ∧
      (encodeBytes bs).length ≤ 2 * bs.length)

/-! ### Arbitration packet -/

/-- R140: the priority byte of a legal priority as a number, its range, and that it grows with the priority. -/
def Obligations.PriorityByteIsMonotone : Prop :=
  ∀ p : Int, -60 ≤ p → p ≤ 60 →
    ((prioByte p).toNat : Int) = 2 * (p + 64) + 1 ∧ 0x09 ≤ (prioByte p).toNat ∧ (prioByte p).toNat ≤ 0xF9 ∧
      ∀ q : Int, p < q → q ≤ 60 → (prioByte p).toNat < (prioByte q).toNat

/-- R141: with the default spreading function, the two chip-id bytes as numbers, bit 0 of both set, and the pair grows with the id
(so no two ids share a pair). -/
def Obligations.ChipIdSpreadIsMonotone : Prop :=
  ∀ (p : Params) (id : BitVec 14), p.spreading = .formula →
    (spreadOf p id).1.toNat = 2 * (id.toNat / 128) + 1 ∧ (spreadOf p id).2.toNat = 2 * (id.toNat % 128) + 1 ∧
      ∀ id' : BitVec 14, id.toNat < id'.toNat →
        (spreadOf p id).1.toNat * 256 + (spreadOf p id).2.toNat < (spreadOf p id').1.toNat * 256 + (spreadOf p id').2.toNat

/-- R149 (a): whatever the configured spreading function, if it sets bit 0 of both bytes, no byte of the packet a node sends is END, before
and after the collision map is built. -/
def Obligations.NoPacketByteIsEnd : Prop :=
  ∀ (p : Params) (e : Engine),
    (∀ id, (spreadOf p id).1.getLsbD 0 = true ∧ (spreadOf p id).2.getLsbD 0 = true) →
    -60 ≤ e.cfgPriority.toInt → e.cfgPriority.toInt ≤ 60 → e.mismatchPos ≤ 24 → ∀ i < 7,
      (arbRegen p e).arbPkt.byte i ≠ 0x00#8 ∧ (arbBuildMap (arbRegen p e)).arbPkt.byte i ≠ 0x00#8 ∧
        (4 ≤ i → 0x7F ≤ ((arbBuildMap (arbRegen p e)).arbPkt.byte i).toNat)

/-- R149 (b): the 24-bit identity orders nodes by priority first and chip id second, lower values lower, for
every spreading function with the properties of R141. -/
def Obligations.IdentityOrdersByPriorityThenChipId : Prop :=
  ∀ (p : Params) (e f : Engine), Spreads (spreadOf p) → -60 ≤ e.cfgPriority.toInt → e.cfgPriority.toInt ≤ 60 →
    -60 ≤ f.cfgPriority.toInt → f.cfgPriority.toInt ≤ 60 →
    (e.cfgPriority.toInt < f.cfgPriority.toInt ∨
      (e.cfgPriority = f.cfgPriority ∧ e.cfgChipId.toNat < f.cfgChipId.toNat)) →
    ((arbRegen p e).arbPkt.priority ++ (arbRegen p e).arbPkt.chipIdHi ++ (arbRegen p e).arbPkt.chipIdLo).toNat <
      ((arbRegen p f).arbPkt.priority ++ (arbRegen p f).arbPkt.chipIdHi ++ (arbRegen p f).arbPkt.chipIdLo).toNat

/-- R143: `get_mismatch_pos` is one more than the index of the most significant bit in which the bytes differ, 0 for equal
bytes; it is symmetric. -/
def Obligations.MismatchPositionIsTheTopDifference : Prop :=
  ∀ a b : Byte,
    getMismatchPos a b = getMismatchPos b a ∧
      (a = b → getMismatchPos a b = 0) ∧
      (a ≠ b → ∃ k < 8, getMismatchPos a b = k + 1 ∧ a.getLsbD k ≠ b.getLsbD k ∧
        ∀ j, k < j → j < 8 → a.getLsbD j = b.getLsbD j)

/-- R144, R145: comparing the three identity bytes in order records the top differing bit of the 24-bit identity. -/
def Obligations.FirstMismatchIsTheMostSignificant : Prop :=
  ∀ (e : Engine) (c0 c1 c2 : Byte), e.mismatchPos = 0 →
    let own : BitVec 24 := e.arbPkt.priority ++ e.arbPkt.chipIdHi ++ e.arbPkt.chipIdLo
    let bus : BitVec 24 := c0 ++ c1 ++ c2
    let r := (arbCompare (arbCompare (arbCompare e 0 c0) 1 c1) 2 c2).mismatchPos
    (own = bus → r = 0) ∧
      (own ≠ bus → ∃ k < 24, r = k + 1 ∧ own.getLsbD k ≠ bus.getLsbD k ∧
        ∀ j, k < j → j < 24 → own.getLsbD j = bus.getLsbD j)

/-- R146: the map of position `p` has every bit set but bit `p - 1`, most significant byte first; `arb_build_map` writes its
three bytes and nothing else. -/
def Obligations.CollisionMapClearsOneBit : Prop :=
  ∀ (e : Engine), e.mismatchPos ≤ 24 →
    (∀ k < 24,
      ((arbBuildMap e).arbPkt.collMap0 ++ (arbBuildMap e).arbPkt.collMap1 ++ (arbBuildMap e).arbPkt.collMap2).getLsbD k =
        decide (k + 1 ≠ e.mismatchPos)) ∧
      arbBuildMap e =
        { e with arbPkt :=
          { e.arbPkt with
            collMap0 := (arbBuildMap e).arbPkt.collMap0
            collMap1 := (arbBuildMap e).arbPkt.collMap1
            collMap2 := (arbBuildMap e).arbPkt.collMap2 } }

/-- R147: a node has lost exactly if the map byte shows a cleared bit at a position strictly below its own (so a node without a
mismatch never has, R148). -/
def Obligations.LossMeansALowerPositionIsCleared : Prop :=
  ∀ (p i : Nat) (c : Byte), p ≤ 24 → 4 ≤ i → i ≤ 6 →
    (arbLost p i c = true ↔
      ∃ q, 1 ≤ q ∧ q < p ∧ 8 * (6 - i) < q ∧ q ≤ 8 * (6 - i) + 8 ∧ c.getLsbD (q - 1 - 8 * (6 - i)) = false)

/-- R288, on the spec's AND test bench (R273): the node with the lowest identity is never excluded, however many nodes take part
and whichever of them still send their map bytes. -/
def Obligations.TheLowestIdentityIsNeverExcluded : Prop :=
  ∀ (ids : List Identity) (a : Identity) (senders : Nat → List Identity),
    a ∈ ids → (∀ b ∈ ids, a.number.toNat ≤ b.number.toNat) → (∀ i, ∀ b ∈ senders i, b ∈ ids) →
    neverExcluded (recordedPos a (busIdentity ids))
      (fun i => busByte ((senders i).map (fun b => mapByte (recordedPos b (busIdentity ids)) i))) = true

/-- R288, two nodes on the AND test bench: the higher one also wins exactly when every 1 bit of the lower identity is a 1 bit of
the higher. -/
def Obligations.TwoNodesBothWinExactlyForABitSubset : Prop :=
  ∀ a b : Identity, a.number.toNat < b.number.toNat →
    (neverExcluded (recordedPos b (busIdentity [a, b]))
        (fun i => busByte [mapByte (recordedPos a (busIdentity [a, b])) i, mapByte (recordedPos b (busIdentity [a, b])) i]) = true ↔
      a.number &&& b.number = a.number)

/-! ### Configuration and query -/

/-- R240: SET_CHIP_ID stores `arg[13:0]`, whatever `arg[15:14]`, and does nothing else. -/
def Obligations.SetChipIdStoresFourteenBits : Prop :=
  (∀ (s : State) id, exec (.setChipId id) s =
      .next (s.finish { s.engine with cfgChipId := id } [] okAnswer)) ∧
    ∀ (s : State) (arg : BitVec 16) now rest, s.port.pending = .command (1#4 ++ arg) now :: rest →
      step s = .next ((s.accept (.command (1#4 ++ arg) now) rest).finish
        { s.engine with cfgChipId := arg.extractLsb' 0 14 } [] okAnswer)

/-- R241: SET_PRIORITY stores its signed operand clamped to [-60, 60] and does nothing else. -/
def Obligations.SetPriorityStoresTheClampedValue : Prop :=
  ∀ (s : State) (v : BitVec 16), ∃ x : BitVec 8,
    x.toInt = (if v.toInt < -60 then -60 else if v.toInt > 60 then 60 else v.toInt) ∧
      exec (.setPriority v) s = .next (s.finish { s.engine with cfgPriority := x } [] okAnswer)

/-- R242, R243: IS_IDLE answers whether the state is `Idle` or more than `T_IDLE` ticks have passed, and changes nothing. -/
def Obligations.IsIdleAnswersTheIdleBit : Prop :=
  ∀ s : State, ∃ b : Bool,
    exec .isIdle s = .next (s.finish s.engine [] { status := .ok, result := .idleBit b }) ∧
      (b = true ↔ s.engine.state = .idle ∨
        (s.params.tIdle : Int) < ((s.tick : Int) - (s.engine.lastActivity : Int)) % (2 ^ s.params.tickBits : Int))

/-- R184: the modular difference gives the true gap across a wrap of the tick, for gaps below `2^TICK_BITS`. -/
def Obligations.ElapsedIsRightAcrossAWrap : Prop :=
  ∀ (p : Params) (t d : Nat), t < 2 ^ p.tickBits → d < 2 ^ p.tickBits →
    elapsed p ((t + d) % 2 ^ p.tickBits) t = d

/-! ### TX queue -/

/-- R200: TX_START takes the lock, or is HELD without any change. -/
def Obligations.TxStartTakesTheLockOrIsHeld : Prop :=
  ∀ s : State,
    (s.engine.txLock = true → exec .txStart s = .next (s.finish s.engine [] { status := .held, result := .none })) ∧
      (s.engine.txLock = false → exec .txStart s =
        .next (s.finish { s.engine with txLock := true, txFrameStart := s.engine.txHead, txOvf := false } []
          okAnswer))

/-- R201, accepted: the encoding of the byte is appended to the ring content; no other cell and no other register changes. -/
def Obligations.TxPushAppendsTheEncodedByte : Prop :=
  ∀ (s : State) (b : Byte) (xs : List Byte), s.Sound →
    xs = (if b = 0x00#8 then [0xDB#8, 0xDC#8] else if b = 0xDB#8 then [0xDB#8, 0xDD#8] else [b]) →
    s.engine.txLock = true → s.engine.txOvf = false → xs.length + 1 ≤ txqFree s.params s.engine →
    ∃ m, exec (.txPush b) s = .next (s.finish
          { s.engine with txq := m, txHead := (s.engine.txHead + xs.length) % s.params.txqCap } []
          okAnswer) ∧
      ringContent s.params { s.engine with txq := m, txHead := (s.engine.txHead + xs.length) % s.params.txqCap } =
        ringContent s.params s.engine ++ xs ∧
      ∀ a, (∀ k < xs.length, a ≠ (s.engine.txHead + k) % s.params.txqCap) → m.read a = s.engine.txq.read a

/-- R201, refused: without the lock nothing changes; a byte that does not fit, and every byte after it, is REJECTED whole, with
the overflow mark as the only change. -/
def Obligations.TxPushIsRefusedWhole : Prop :=
  ∀ (s : State) (b : Byte),
    (s.engine.txLock = false → exec (.txPush b) s = .next (s.finish s.engine [] { status := .rejected, result := .none })) ∧
      (s.engine.txLock = true →
        (s.engine.txOvf = true ∨
          txqFree s.params s.engine < (if b = 0x00#8 ∨ b = 0xDB#8 then 3 else 2)) →
        exec (.txPush b) s = .next (s.finish { s.engine with txOvf := true } [] { status := .rejected, result := .none }))

/-- R202, accepted on a bus that is not idle: terminator appended, count raised, lock released, nothing sent. -/
def Obligations.TxCloseQueuesTheFrame : Prop :=
  ∀ s : State, s.Sound → s.engine.txLock = true → s.engine.txOvf = false → 1 ≤ txqFree s.params s.engine →
    isIdle s.params s.tick s.engine = false →
    ∃ m, exec .txClose s = .next (s.finish
          { s.engine with
              txq := m, txHead := (s.engine.txHead + 1) % s.params.txqCap
              txPending := s.engine.txPending + 1, txLock := false } []
          okAnswer) ∧
      ringContent s.params { s.engine with txq := m, txHead := (s.engine.txHead + 1) % s.params.txqCap } =
        ringContent s.params s.engine ++ [0x00#8] ∧
      ∀ a, a ≠ s.engine.txHead → m.read a = s.engine.txq.read a

/-- R202, R183, accepted on an idle bus: besides, the kick sends the raw END and starts a round. -/
def Obligations.TxCloseKicksOnAnIdleBus : Prop :=
  ∀ s : State, s.Sound → s.engine.txLock = true → s.engine.txOvf = false → 1 ≤ txqFree s.params s.engine →
    isIdle s.params s.tick s.engine = true →
    ∃ m, exec .txClose s = .next (s.finish
          { s.engine with
              txq := m, txHead := (s.engine.txHead + 1) % s.params.txqCap
              txPending := s.engine.txPending + 1, txLock := false
              arbIndex := 0, mismatchPos := 0
              arbPkt := ownPacket s.params s.engine
              state := .participatingArbitration, txIrqEn := false, lastActivity := s.tick }
          [.send 0x00#8] okAnswer) ∧
      ringContent s.params { s.engine with txq := m, txHead := (s.engine.txHead + 1) % s.params.txqCap } =
        ringContent s.params s.engine ++ [0x00#8] ∧
      ∀ a, a ≠ s.engine.txHead → m.read a = s.engine.txq.read a

/-- R202, R203, refused: without the lock nothing changes; an overflowed frame is rolled back and the lock released. -/
def Obligations.TxCloseRefusedRollsBack : Prop :=
  ∀ s : State,
    (s.engine.txLock = false → exec .txClose s = .next (s.finish s.engine [] { status := .rejected, result := .none })) ∧
      (s.engine.txLock = true → s.engine.txOvf = true → exec .txClose s =
        .next (s.finish { s.engine with txHead := s.engine.txFrameStart, txOvf := false, txLock := false } []
          { status := .rejected, result := .none }))

/-- R203: the rollback of a frame with the overflow mark leaves in the ring exactly the complete chunks that were queued before that
frame. That a TX_CLOSE without the mark and without a free cell rolls back too, and so leaves the same, is the model's choice,
DEDUCED from R62, R206 (e) and R251 (log entry 11). -/
def Obligations.RollbackKeepsTheQueuedFrames : Prop :=
  ∀ s t : State, s.Sound → V2 s.params s.engine → s.engine.txLock = true →
    (s.engine.txOvf = true ∨ txqFree s.params s.engine = 0) → exec .txClose s = .next t →
    ∃ composed, ringContent s.params s.engine = ringContent t.params t.engine ++ composed ∧
      Closed (ringContent t.params t.engine) ∧ (ringContent t.params t.engine).count 0x00#8 = t.engine.txPending ∧
      t.engine.txPending = s.engine.txPending ∧ 0x00#8 ∉ composed

/-! ### RX slots, consumer side -/

/-- R225: what RX_READ answers; it changes nothing. -/
def Obligations.RxReadAnswersTheSlot : Prop :=
  ∀ (s : State) (slot : BitVec 4) (k : BitVec 12), s.Sound →
    (s.params.nSlots ≤ slot.toNat →
      exec (.rxRead slot k) s = .next (s.finish s.engine [] { status := .rejected, result := .none })) ∧
      (slot.toNat < s.params.nSlots → ∃ sl, s.engine.slots[slot.toNat]? = some sl ∧
        exec (.rxRead slot k) s = .next (s.finish s.engine []
          { status := .ok
            result := .slotView sl.available sl.sep sl.len
              (if sl.available = true ∧ k.toNat < sl.len then sl.buf.read k.toNat else 0x00#8) }))

/-- R226: RX_RELEASE clears `available` of the slot it names and does nothing else. -/
def Obligations.RxReleaseClearsAvailable : Prop :=
  ∀ (s : State) (slot : BitVec 4), s.Sound →
    (s.params.nSlots ≤ slot.toNat →
      exec (.rxRelease slot) s = .next (s.finish s.engine [] { status := .rejected, result := .none })) ∧
      (slot.toNat < s.params.nSlots → ∃ sl, s.engine.slots[slot.toNat]? = some sl ∧
        exec (.rxRelease slot) s = .next (s.finish
          { s.engine with slots := s.engine.slots.set slot.toNat { sl with available := false } } []
          okAnswer))

/-- R34, R225: an available slot of a sound machine is `topic ++ [0] ++ payload` with no zero in the topic. -/
def Obligations.AnAvailableSlotIsAFrame : Prop :=
  ∀ (p : Params) (e : Engine) (sl : Slot), Sound p e → sl ∈ e.slots → sl.available = true →
    sl.bytes = sl.topic ++ 0x00#8 :: sl.payload ∧ 0x00#8 ∉ sl.topic ∧ sl.topic.length = sl.sep ∧
      sl.payload.length = sl.len - sl.sep - 1

/-! ### Byte pump -/

/-- R163, R164: an unforced END in `Sending` writes the timestamp and nothing else; in `SendingComplete` it leads to `Idle` without
a new round. -/
def Obligations.EndWhileSendingStartsNoRound : Prop :=
  ∀ (s : State) (i : Instr), (i = .rxByte 0x00#8 ∨ i = .endSym) →
    elapsed s.params s.tick s.engine.lastActivity ≤ s.params.tResync →
    (s.engine.state = .sending → exec i s =
        .next (s.finish { s.engine with lastActivity := s.tick } [] okAnswer)) ∧
      (s.engine.state = .sendingComplete → exec i s =
        .next (s.finish { s.engine with lastActivity := s.tick, state := .idle } [] okAnswer))

/-- R166, R169: an unforced END in `Idle`, `ParticipatingArbitration` or `WaitingArbitration` starts a round. -/
def Obligations.EndStartsARound : Prop :=
  ∀ (s : State) (i : Instr), (i = .rxByte 0x00#8 ∨ i = .endSym) →
    (s.engine.state = .idle ∨ s.engine.state = .participatingArbitration ∨ s.engine.state = .waitingArbitration) →
    elapsed s.params s.tick s.engine.lastActivity ≤ s.params.tResync →
    (0 < s.engine.txPending → exec i s = .next (s.finish
        { s.engine with
            lastActivity := s.tick, arbIndex := 0, mismatchPos := 0
            arbPkt := ownPacket s.params s.engine
            state := .participatingArbitration }
        [.send (prioByte s.engine.cfgPriority.toInt)] okAnswer)) ∧
      (s.engine.txPending = 0 → exec i s = .next (s.finish
        { s.engine with lastActivity := s.tick, arbIndex := 0, mismatchPos := 0, state := .waitingArbitration } []
        okAnswer))

/-- R162, R169, R185 (e): from every state, sound or not, an END after more than the grace window starts a round, with the node's
packet regenerated if a frame is queued. The equations are the frame: the slots, the ring and the receive flags are untouched
and nothing is reported. -/
def Obligations.ALateEndResynchronises : Prop :=
  ∀ (s : State) (i : Instr), (i = .rxByte 0x00#8 ∨ i = .endSym) →
    s.params.tResync < elapsed s.params s.tick s.engine.lastActivity →
    (0 < s.engine.txPending → exec i s = .next (s.finish
        { s.engine with
            lastActivity := s.tick, arbIndex := 0, mismatchPos := 0, txIrqEn := false
            arbPkt := ownPacket s.params s.engine, state := .participatingArbitration }
        [.send (prioByte s.engine.cfgPriority.toInt)] okAnswer)) ∧
      (s.engine.txPending = 0 → exec i s = .next (s.finish
        { s.engine with
            lastActivity := s.tick, arbIndex := 0, mismatchPos := 0, txIrqEn := false, state := .waitingArbitration }
        [] okAnswer))

/-- R165, R224, R169, R262: an unforced END in `Receiving` ends the frame, then starts a round with the packet regenerated if a frame
is queued. Which of the endings it is shows in the slot, in `rx_active` and in the order of the events. -/
def Obligations.EndInReceptionEndsTheFrame : Prop :=
  ∀ (s : State) (i : Instr) (sl : Slot), (i = .rxByte 0x00#8 ∨ i = .endSym) → s.Sound → s.engine.state = .receiving →
    elapsed s.params s.tick s.engine.lastActivity ≤ s.params.tResync →
    s.engine.slots[s.engine.rxActive]? = some sl →
    ∃ t, exec i s = .next t ∧ t.engine.rxEsc = false ∧ t.engine.rxDrop = s.engine.rxDrop ∧
      t.engine.arbIndex = 0 ∧ t.engine.mismatchPos = 0 ∧ t.engine.lastActivity = s.tick ∧
      t.engine.state = (if 0 < s.engine.txPending then .participatingArbitration else .waitingArbitration) ∧
      t.engine.arbPkt = (if 0 < s.engine.txPending then ownPacket s.params s.engine else s.engine.arbPkt) ∧
      t.params = s.params ∧ t.port.answer = some okAnswer ∧
      sameRing t.engine s.engine ∧ sameConfig t.engine s.engine ∧ sameProducerRegisters t.engine s.engine ∧
      t.engine.txIrqEn = s.engine.txIrqEn ∧
      t.port.trace = s.port.trace ++
        ((if s.engine.rxEsc then [.diag .desync] else []) ++
          (if s.engine.rxDrop then [] else if sl.sepValid then [.notify] else [.diag .rxNoSep]) ++
          (if 0 < s.engine.txPending then [.send (prioByte s.engine.cfgPriority.toInt)] else [])) ∧
      (s.engine.rxDrop = false ∧ sl.sepValid = true →
        t.engine.slots = s.engine.slots.set s.engine.rxActive { sl with available := true } ∧
          t.engine.rxActive = (s.engine.rxActive + 1) % s.params.nSlots) ∧
      (s.engine.rxDrop = true ∨ sl.sepValid = false →
        t.engine.slots = s.engine.slots ∧ t.engine.rxActive = s.engine.rxActive)

/-- R170: a data byte in `Idle`, `Sending` or `SendingComplete` writes the timestamp and nothing else; the same for a wire symbol
presented there, which is the reception of its byte (the reading is the model's, DEDUCED, log entry 4). -/
def Obligations.DataBytesAreIgnoredOutsideRounds : Prop :=
  ∀ (s : State) (c : Byte), c ≠ 0x00#8 →
    (s.engine.state = .idle ∨ s.engine.state = .sending ∨ s.engine.state = .sendingComplete) →
    ∀ i : Instr, (i = .rxByte c ∨ i = .lit c ∨ (i = .esc ∧ c = 0xDB#8) ∨ (i = .escEnd ∧ c = 0xDC#8) ∨
        (i = .escEsc ∧ c = 0xDD#8)) →
      exec i s = .next (s.finish { s.engine with lastActivity := s.tick } [] okAnswer)

/-- R171, R220: a listening node counts arbitration bytes without looking at them; the seventh begins reception, in a free slot or,
if the active slot is still the consumer's, with the frame marked for dropping. -/
def Obligations.AListenerCountsSevenBytes : Prop :=
  ∀ (s : State) (c : Byte) (sl : Slot), s.Sound → c ≠ 0x00#8 → s.engine.state = .waitingArbitration →
    s.engine.slots[s.engine.rxActive]? = some sl →
    (s.engine.arbIndex < 6 → exec (.rxByte c) s = .next (s.finish
        { s.engine with lastActivity := s.tick, arbIndex := s.engine.arbIndex + 1 } [] okAnswer)) ∧
      (s.engine.arbIndex = 6 → sl.available = false → exec (.rxByte c) s = .next (s.finish
        { s.engine with
            lastActivity := s.tick, arbIndex := 7, state := .receiving, rxEsc := false, rxDrop := false
            slots := s.engine.slots.set s.engine.rxActive { sl with len := 0, sep := 0, sepValid := false } } []
        okAnswer)) ∧
      (s.engine.arbIndex = 6 → sl.available = true → exec (.rxByte c) s = .next (s.finish
        { s.engine with lastActivity := s.tick, arbIndex := 7, state := .receiving, rxEsc := false, rxDrop := true }
        [.diag .rxNoSlot] okAnswer))

/-- R172: the echo of an identity byte is compared, the first mismatch is recorded, the map is built after byte 2, and the next
packet byte is sent. -/
def Obligations.AnIdentityEchoSendsTheNextByte : Prop :=
  ∀ (s : State) (c : Byte), c ≠ 0x00#8 → s.engine.state = .participatingArbitration → s.engine.arbIndex ≤ 2 →
    ∃ t, exec (.rxByte c) s = .next t ∧ t.engine.arbIndex = s.engine.arbIndex + 1 ∧
      t.engine.mismatchPos =
        (if s.engine.mismatchPos = 0 then
          (if c = s.engine.arbPkt.byte s.engine.arbIndex then 0
           else getMismatchPos (s.engine.arbPkt.byte s.engine.arbIndex) c + 8 * (2 - s.engine.arbIndex))
         else s.engine.mismatchPos) ∧
      t.engine.arbPkt =
        (if s.engine.arbIndex = 2 then
          { s.engine.arbPkt with
              collMap0 := (collMap t.engine.mismatchPos).1
              collMap1 := (collMap t.engine.mismatchPos).2.1
              collMap2 := (collMap t.engine.mismatchPos).2.2 }
         else s.engine.arbPkt) ∧
      t = s.finish
        { s.engine with
            lastActivity := s.tick, arbIndex := t.engine.arbIndex
            mismatchPos := t.engine.mismatchPos, arbPkt := t.engine.arbPkt }
        [.send (s.engine.arbPkt.byte (s.engine.arbIndex + 1))] okAnswer

/-- R173: the echo of `latency_a` is not looked at; the first map byte is sent. -/
def Obligations.TheLatencyEchoIsNotCompared : Prop :=
  ∀ (s : State) (c : Byte), c ≠ 0x00#8 → s.engine.state = .participatingArbitration → s.engine.arbIndex = 3 →
    exec (.rxByte c) s = .next (s.finish { s.engine with lastActivity := s.tick, arbIndex := 4 }
      [.send (s.engine.arbPkt.byte 4)] okAnswer)

/-- R174, R176: a map byte that does not exclude the node: it sends the next one, or after the seventh byte it wins. -/
def Obligations.AMapByteIsSurvivedOrWon : Prop :=
  ∀ (s : State) (c : Byte), c ≠ 0x00#8 → s.engine.state = .participatingArbitration →
    4 ≤ s.engine.arbIndex → s.engine.arbIndex ≤ 6 →
    arbLost s.engine.mismatchPos s.engine.arbIndex c = false →
    (s.engine.arbIndex < 6 → exec (.rxByte c) s = .next (s.finish
        { s.engine with lastActivity := s.tick, arbIndex := s.engine.arbIndex + 1 }
        [.send (s.engine.arbPkt.byte (s.engine.arbIndex + 1))] okAnswer)) ∧
      (s.engine.arbIndex = 6 → exec (.rxByte c) s = .next (s.finish
        { s.engine with lastActivity := s.tick, arbIndex := 7, state := .sending, txIrqEn := true } []
        okAnswer))

/-- R174, R175: a map byte that excludes the node: it listens on, or on the seventh byte receives at once; it sends nothing and
its frame stays queued. -/
def Obligations.AnExcludedNodeListens : Prop :=
  ∀ (s : State) (c : Byte) (sl : Slot), s.Sound → c ≠ 0x00#8 → s.engine.state = .participatingArbitration →
    4 ≤ s.engine.arbIndex → arbLost s.engine.mismatchPos s.engine.arbIndex c = true →
    s.engine.slots[s.engine.rxActive]? = some sl →
    (s.engine.arbIndex < 6 → exec (.rxByte c) s = .next (s.finish
        { s.engine with lastActivity := s.tick, arbIndex := s.engine.arbIndex + 1, state := .waitingArbitration } []
        okAnswer)) ∧
      (s.engine.arbIndex = 6 → sl.available = false → exec (.rxByte c) s = .next (s.finish
        { s.engine with
            lastActivity := s.tick, arbIndex := 7, state := .receiving, rxEsc := false, rxDrop := false
            slots := s.engine.slots.set s.engine.rxActive { sl with len := 0, sep := 0, sepValid := false } } []
        okAnswer)) ∧
      (s.engine.arbIndex = 6 → sl.available = true → exec (.rxByte c) s = .next (s.finish
        { s.engine with lastActivity := s.tick, arbIndex := 7, state := .receiving, rxEsc := false, rxDrop := true }
        [.diag .rxNoSlot] okAnswer))

/-- R177, R123 to R126, R221, R222: the four body symbols in their contexts, as wire symbols (log entry 4) and as the operation
RX_BYTE. ESC sets the flag and stores nothing; the others store one decoded byte at the write cursor, and the first zero becomes
the separator; no other cell of the slot changes. -/
def Obligations.BodySymbolsDecodeIntoTheSlot : Prop :=
  ∀ (s : State) (sl : Slot), s.Sound → s.engine.state = .receiving → s.engine.slots[s.engine.rxActive]? = some sl →
    (∀ i : Instr, (i = .esc ∨ i = .rxByte 0xDB#8) → s.engine.rxEsc = false → exec i s = .next (s.finish
        { s.engine with lastActivity := s.tick, rxEsc := true } [] okAnswer)) ∧
      ∀ (i : Instr) (d : Byte), decodesTo s.engine.rxEsc i d →
        s.engine.rxDrop = false → sl.len < s.params.rxSlotCap →
        ∃ sl', exec i s = .next (s.finish
            { s.engine with
                lastActivity := s.tick, rxEsc := false
                slots := s.engine.slots.set s.engine.rxActive sl' } [] okAnswer) ∧
          sl'.len = sl.len + 1 ∧ sl'.available = sl.available ∧ sl'.buf.read sl.len = d ∧
          (∀ a, a ≠ sl.len → sl'.buf.read a = sl.buf.read a) ∧
          (if d = 0x00#8 ∧ sl.sepValid = false then sl'.sep = sl.len ∧ sl'.sepValid = true
           else sl'.sep = sl.sep ∧ sl'.sepValid = sl.sepValid)

/-- R127: a byte after ESC that completes no pair is dropped, the flag is cleared, DESYNC is reported, reception goes on. -/
def Obligations.AnInvalidEscapeIsDropped : Prop :=
  ∀ (s : State) (c : Byte), s.engine.state = .receiving → s.engine.rxEsc = true →
    c ≠ 0x00#8 → c ≠ 0xDC#8 → c ≠ 0xDD#8 →
    exec (.rxByte c) s = .next (s.finish { s.engine with lastActivity := s.tick, rxEsc := false }
      [.diag .desync] okAnswer)

/-- R223, R221, R122: a decoded byte beyond the slot's capacity is not stored and marks the frame, with one report; in a marked frame
decoded bytes are discarded silently. Literals, both escape pairs, as wire symbols (log entry 4) and as RX_BYTE; the decoder
keeps running: the byte that completes a pair clears `rx_esc`, and ESC sets it in a marked frame too. -/
def Obligations.AnOverlongFrameIsDropped : Prop :=
  ∀ (s : State) (sl : Slot), s.Sound → s.engine.state = .receiving → s.engine.slots[s.engine.rxActive]? = some sl →
    (∀ (i : Instr) (d : Byte), decodesTo s.engine.rxEsc i d →
      (s.engine.rxDrop = false → sl.len = s.params.rxSlotCap → exec i s = .next (s.finish
          { s.engine with lastActivity := s.tick, rxEsc := false, rxDrop := true } [.diag .rxOverflow] okAnswer)) ∧
        (s.engine.rxDrop = true → exec i s = .next (s.finish
          { s.engine with lastActivity := s.tick, rxEsc := false } [] okAnswer))) ∧
      ∀ i : Instr, (i = .esc ∨ i = .rxByte 0xDB#8) → s.engine.rxEsc = false → s.engine.rxDrop = true →
        exec i s = .next (s.finish { s.engine with lastActivity := s.tick, rxEsc := true } [] okAnswer)

/-- R180, R181: TX_READY in `Sending` with a byte queued sends that byte and removes it; the terminator also completes the frame.
With the ring exhausted, in every state of the machine, it completes the frame without a `send`, and the count does not go below
zero. -/
def Obligations.TxReadyDrainsOneByte : Prop :=
  (∀ (s : State) (b : Byte) (q : List Byte), s.Sound → s.engine.state = .sending →
    ringContent s.params s.engine = b :: q →
    ∃ t, exec .txReady s = .next t ∧ ringContent t.params t.engine = q ∧
      t.engine.txTail = (s.engine.txTail + 1) % s.params.txqCap ∧
      (b ≠ 0x00#8 → t = s.finish { s.engine with txTail := t.engine.txTail } [.send b] okAnswer) ∧
      (b = 0x00#8 → t = s.finish
        { s.engine with
            txTail := t.engine.txTail, txPending := s.engine.txPending - 1, txIrqEn := false
            state := if s.params.sendingComplete then .sendingComplete else .idle }
        [.send 0x00#8] okAnswer)) ∧
    ∀ s : State, s.engine.state = .sending → s.engine.txHead = s.engine.txTail →
      exec .txReady s = .next (s.finish
        { s.engine with
            txPending := if 0 < s.engine.txPending then s.engine.txPending - 1 else 0, txIrqEn := false
            state := if s.params.sendingComplete then .sendingComplete else .idle }
        [] okAnswer)

/-- R182: TX_READY outside `Sending` does nothing and answers OK. -/
def Obligations.TxReadyElsewhereDoesNothing : Prop :=
  ∀ s : State, s.engine.state ≠ .sending →
    exec .txReady s = .next (s.finish s.engine [] okAnswer)

/-- R228: a node that has begun a free slot and receives exactly the encoding of `topic ++ [0] ++ payload`, each byte at a tick of its
own, and then the END not later than the grace window allows, delivers that frame, with one `notify` and no report. -/
def Obligations.AReceivedFrameIsDelivered : Prop :=
  ∀ (s : State) (sl : Slot) (topic payload : List Byte) (ticks : List Nat) (last fin : Nat), s.Sound →
    s.engine.state = .receiving →
    s.engine.rxEsc = false → s.engine.rxDrop = false → s.engine.slots[s.engine.rxActive]? = some sl →
    sl.len = 0 → sl.sepValid = false → 0x00#8 ∉ topic →
    topic.length + 1 + payload.length ≤ s.params.rxSlotCap →
    ticks.length = (encodeBytes (topic ++ 0x00#8 :: payload)).length → ticks.getLast? = some last →
    elapsed s.params fin last ≤ s.params.tResync →
    ∃ t sl', execScript
        (((encodeBytes (topic ++ 0x00#8 :: payload)).zip ticks).map (fun x => (.rxByte x.1, x.2)) ++ [(.rxByte 0x00#8, fin)]) s =
        .next t ∧
      t.engine.slots[s.engine.rxActive]? = some sl' ∧ sl'.available = true ∧
      sl'.sep = topic.length ∧ sl'.len = topic.length + 1 + payload.length ∧
      sl'.topic = topic ∧ sl'.payload = payload ∧
      t.engine.rxActive = (s.engine.rxActive + 1) % s.params.nSlots ∧
      t.port.trace = s.port.trace ++
        (.notify :: (if 0 < s.engine.txPending then [.send (prioByte s.engine.cfgPriority.toInt)] else []))
end

