-- ==== Sys2Proof/Laws/Memory.lean ====
section
/-! SUPPORT. The laws of a memory: read after write, and the canonical form. -/

namespace Sys2Proof.Machine

theorem Memory.read_eq_blank_of_lt {lo : Nat} {m : Memory} (h : Memory.wfFrom lo m = true) {a : Nat} (ha : a < lo) :
    m.read a = blankByte := by
  induction m generalizing lo with
  | nil => rfl
  | cons c m ih =>
    obtain ⟨b, v⟩ := c
    simp only [Memory.wfFrom, Bool.and_eq_true, decide_eq_true_eq] at h
    simp only [Memory.read]
    rw [if_neg (by omega)]
    exact ih h.2 (by omega)

theorem Memory.wfFrom_mono {lo lo' : Nat} (hle : lo' ≤ lo) {m : Memory} (h : Memory.wfFrom lo m = true) :
    Memory.wfFrom lo' m = true := by
  cases m with
  | nil => rfl
  | cons c m =>
    obtain ⟨b, v⟩ := c
    simp only [Memory.wfFrom, Bool.and_eq_true, decide_eq_true_eq] at h ⊢
    exact ⟨⟨by omega, h.1.2⟩, h.2⟩

/-- Reading the index written gives the byte written. -/
theorem Memory.read_write_same {lo : Nat} {m : Memory} (h : Memory.wfFrom lo m = true) (a : Nat) (v : Byte) :
    (Memory.write m a v).read a = v := by
  induction m generalizing lo with
  | nil =>
    simp only [Memory.write]
    split
    · next hv => subst hv; rfl
    · simp [Memory.read]
  | cons c m ih =>
    obtain ⟨b, w⟩ := c
    simp only [Memory.wfFrom, Bool.and_eq_true, decide_eq_true_eq] at h
    simp only [Memory.write]
    split
    · next hab =>
      split
      · next hv =>
        subst hv
        simp only [Memory.read]
        rw [if_neg (by omega)]
        exact Memory.read_eq_blank_of_lt h.2 (by omega)
      · simp [Memory.read]
    · split
      · next hab =>
        subst hab
        split
        · next hv => subst hv; exact Memory.read_eq_blank_of_lt h.2 (by omega)
        · simp [Memory.read]
      · next hab =>
        simp only [Memory.read]
        rw [if_neg hab]
        exact ih h.2

/-- Writing one index leaves every other one as it was. -/
theorem Memory.read_write_other {m : Memory} {a a' : Nat} (hne : a' ≠ a) (v : Byte) :
    (Memory.write m a v).read a' = m.read a' := by
  induction m with
  | nil =>
    simp only [Memory.write]
    split
    · rfl
    · simp [Memory.read, hne]
  | cons c m ih =>
    obtain ⟨b, w⟩ := c
    simp only [Memory.write]
    split
    · split
      · rfl
      · simp [Memory.read, hne]
    · split
      · next hab =>
        subst hab
        split
        · simp [Memory.read, hne]
        · simp [Memory.read, hne]
      · simp only [Memory.read, ih]

theorem Memory.write_wfFrom {lo : Nat} {m : Memory} (h : Memory.wfFrom lo m = true) {a : Nat} (ha : lo ≤ a) (v : Byte) :
    Memory.wfFrom lo (Memory.write m a v) = true := by
  induction m generalizing lo with
  | nil =>
    simp only [Memory.write]
    split
    · rfl
    · next hv => simp [Memory.wfFrom, ha, hv]
  | cons c m ih =>
    obtain ⟨b, w⟩ := c
    have h' := h
    simp only [Memory.wfFrom, Bool.and_eq_true, decide_eq_true_eq] at h
    obtain ⟨⟨hb, hw⟩, hm⟩ := h
    simp only [Memory.write]
    split
    · next hab =>
      split
      · exact h'
      · next hv =>
        have hv' : v ≠ 0#8 := hv
        simp only [Memory.wfFrom, Bool.and_eq_true, decide_eq_true_eq, bne_iff_ne, ne_eq]
        exact ⟨⟨ha, hv'⟩, ⟨by omega, by simpa using hw⟩, hm⟩
    · split
      · next hab =>
        subst hab
        split
        · exact Memory.wfFrom_mono (by omega) hm
        · next hv =>
          have hv' : v ≠ 0#8 := hv
          simp only [Memory.wfFrom, Bool.and_eq_true, decide_eq_true_eq, bne_iff_ne, ne_eq]
          exact ⟨⟨ha, hv'⟩, hm⟩
      · next hab =>
        simp only [Memory.wfFrom, Bool.and_eq_true, decide_eq_true_eq]
        exact ⟨⟨hb, hw⟩, ih hm (by omega)⟩

/-- A write keeps the canonical form. -/
theorem Memory.write_wf {m : Memory} (h : m.wf = true) (a : Nat) (v : Byte) : (Memory.write m a v).wf = true :=
  Memory.write_wfFrom h (Nat.zero_le a) v

/-- A memory cell write that does not fault keeps the canonical form. -/
theorem memWrite_wf {name : MemoryName} {cap : Nat} {m m' : Memory} {a : Nat} {v : Byte} (h : m.wf = true)
    (hw : memWrite name cap m a v = .ok m') : m'.wf = true := by
  unfold memWrite at hw
  split at hw
  · cases hw; exact Memory.write_wf h a v
  · cases hw

/-- Reset's memories have the canonical form. -/
theorem reset_txq_wf (p : Params) : (Engine.reset p).txq.wf = true := rfl

theorem reset_bufs_wf (p : Params) : ∀ sl ∈ (Engine.reset p).slots, sl.buf.wf = true := by
  intro sl h
  rw [List.eq_of_mem_replicate h]
  rfl

end Sys2Proof.Machine
end

