-- ==== Sys2Proof/Laws/State.lean ====
section
/-! SUPPORT. One lemma per field per update of the state, true by unfolding. -/

namespace Sys2Proof.Machine

variable (s : State) (e : Engine) (evs : List Event) (a : Answer) (x : Input) (rest : List Input)

/-! ### finish -/

@[simp] theorem finish_params : (s.finish e evs a).params = s.params := rfl
@[simp] theorem finish_engine : (s.finish e evs a).engine = e := rfl
@[simp] theorem finish_pending : (s.finish e evs a).port.pending = s.port.pending := rfl
@[simp] theorem finish_now : (s.finish e evs a).port.now = s.port.now := rfl
@[simp] theorem finish_answer : (s.finish e evs a).port.answer = some a := rfl
@[simp] theorem finish_trace : (s.finish e evs a).port.trace = s.port.trace ++ evs := rfl
@[simp] theorem finish_tick : (s.finish e evs a).tick = s.tick := rfl

/-! ### accept, present, reset, atTick -/

@[simp] theorem accept_params : (s.accept x rest).params = s.params := rfl
@[simp] theorem accept_engine : (s.accept x rest).engine = s.engine := rfl
@[simp] theorem accept_pending : (s.accept x rest).port.pending = rest := rfl
@[simp] theorem accept_now : (s.accept x rest).port.now = x.tickOr s.port.now := rfl
@[simp] theorem accept_answer : (s.accept x rest).port.answer = s.port.answer := rfl
@[simp] theorem accept_trace : (s.accept x rest).port.trace = s.port.trace := rfl
@[simp] theorem present_params : (s.present x).params = s.params := rfl
@[simp] theorem present_engine : (s.present x).engine = s.engine := rfl
@[simp] theorem present_pending : (s.present x).port.pending = x :: s.port.pending := rfl
@[simp] theorem resetEngine_params : s.resetEngine.params = s.params := rfl
@[simp] theorem resetEngine_engine : s.resetEngine.engine = Engine.reset s.params := rfl
@[simp] theorem resetEngine_pending : s.resetEngine.port.pending = s.port.pending := rfl
@[simp] theorem resetEngine_trace : s.resetEngine.port.trace = s.port.trace := rfl

@[simp] theorem atTick_params (t : Nat) : (s.atTick t).params = s.params := rfl
@[simp] theorem atTick_engine (t : Nat) : (s.atTick t).engine = s.engine := rfl
@[simp] theorem atTick_trace (t : Nat) : (s.atTick t).port.trace = s.port.trace := rfl
@[simp] theorem atTick_tick (t : Nat) : (s.atTick t).tick = t % 2 ^ s.params.tickBits := rfl

/-! ### Engine updates by procedure -/

variable (k : Nat) (sl : Slot) (i : Nat) (c : Byte) (p : Params)

@[simp] theorem setSlot_slots : (setSlot e k sl).slots = e.slots.set k sl := rfl
@[simp] theorem setSlot_state : (setSlot e k sl).state = e.state := rfl
@[simp] theorem setSlot_rxActive : (setSlot e k sl).rxActive = e.rxActive := rfl
@[simp] theorem setSlot_rxEsc : (setSlot e k sl).rxEsc = e.rxEsc := rfl
@[simp] theorem setSlot_rxDrop : (setSlot e k sl).rxDrop = e.rxDrop := rfl
@[simp] theorem setSlot_txq : (setSlot e k sl).txq = e.txq := rfl
@[simp] theorem setSlot_txHead : (setSlot e k sl).txHead = e.txHead := rfl
@[simp] theorem setSlot_txTail : (setSlot e k sl).txTail = e.txTail := rfl
@[simp] theorem setSlot_txPending : (setSlot e k sl).txPending = e.txPending := rfl

@[simp] theorem forceIdle_state : (forceIdle e).state = .idle := rfl
@[simp] theorem forceIdle_txIrqEn : (forceIdle e).txIrqEn = false := rfl
@[simp] theorem forceIdle_slots : (forceIdle e).slots = e.slots := rfl
@[simp] theorem forceIdle_txPending : (forceIdle e).txPending = e.txPending := rfl

@[simp] theorem partWin_state : (partWin e).state = .sending := rfl
@[simp] theorem partWin_txIrqEn : (partWin e).txIrqEn = true := rfl
@[simp] theorem partWin_slots : (partWin e).slots = e.slots := rfl

@[simp] theorem txDone_txPending : (txDone p e).txPending = e.txPending - 1 := rfl
@[simp] theorem txDone_txIrqEn : (txDone p e).txIrqEn = false := rfl
@[simp] theorem txDone_txTail : (txDone p e).txTail = e.txTail := rfl
@[simp] theorem txDone_slots : (txDone p e).slots = e.slots := rfl

@[simp] theorem txRollback_txHead : (txRollback e).txHead = e.txFrameStart := rfl
@[simp] theorem txRollback_txLock : (txRollback e).txLock = false := rfl
@[simp] theorem txRollback_txOvf : (txRollback e).txOvf = false := rfl

@[simp] theorem arbRegen_priority :
    (arbRegen p e).arbPkt.priority = prioByte e.cfgPriority.toInt := rfl
@[simp] theorem arbRegen_chipIdHi : (arbRegen p e).arbPkt.chipIdHi = (spreadOf p e.cfgChipId).1 := rfl
@[simp] theorem arbRegen_chipIdLo : (arbRegen p e).arbPkt.chipIdLo = (spreadOf p e.cfgChipId).2 := rfl
@[simp] theorem arbRegen_latencyA : (arbRegen p e).arbPkt.latencyA = 0xFF#8 := rfl
@[simp] theorem arbBuildMap_mismatchPos : (arbBuildMap e).mismatchPos = e.mismatchPos := rfl
@[simp] theorem arbBuildMap_state : (arbBuildMap e).state = e.state := rfl

/-- `arb_compare` writes nothing but the recorded position. -/
theorem arbCompare_eq : arbCompare e i c = { e with mismatchPos := (arbCompare e i c).mismatchPos } := by
  unfold arbCompare; split <;> rfl

@[simp] theorem arbCompare_arbPkt : (arbCompare e i c).arbPkt = e.arbPkt := by unfold arbCompare; split <;> rfl

end Sys2Proof.Machine
end

