-- ==== Sys2Proof/Laws/Ops.lean ====
section
/-! SUPPORT. One lemma for each shared operation that says once everything it can do. -/

namespace Sys2Proof.Machine

/-! ### Cells, slots, sequencing of procedures -/

theorem memRead_eq_ok {name : MemoryName} {cap : Nat} {m : Memory} {a : Nat} {v : Byte} :
    memRead name cap m a = .ok v ↔ a < cap ∧ m.read a = v := by
  unfold memRead
  split <;> simp_all

theorem memWrite_eq_ok {name : MemoryName} {cap : Nat} {m m' : Memory} {a : Nat} {v : Byte} :
    memWrite name cap m a v = .ok m' ↔ a < cap ∧ Memory.write m a v = m' := by
  unfold memWrite
  split <;> simp_all

theorem getSlot_eq_ok {e : Engine} {k : Nat} {sl : Slot} : getSlot e k = .ok sl ↔ e.slots[k]? = some sl := by
  unfold getSlot
  split <;> simp_all

theorem getSlot_of_lt {e : Engine} {k : Nat} (h : k < e.slots.length) : ∃ sl, getSlot e k = .ok sl ∧ sl ∈ e.slots :=
  ⟨e.slots[k], getSlot_eq_ok.2 (List.getElem?_eq_getElem h), List.getElem_mem h⟩

theorem andThen_eq_ok {r : Except Fault Eff} {f : Engine → Except Fault Eff} {x : Eff} :
    Eff.andThen r f = .ok x ↔
      ∃ a b, r = .ok a ∧ f a.engine = .ok b ∧ x = { engine := b.engine, events := a.events ++ b.events } := by
  unfold Eff.andThen
  cases r with
  | error f => simp
  | ok a =>
    cases h : f a.engine with
    | error f => simp [h]
    | ok b => simp [h, eq_comm]

theorem complete_eq_next {s t : State} {r : Except Fault Eff} {a : Answer} :
    s.complete r a = .next t ↔ ∃ x, r = .ok x ∧ t = s.finish x.engine x.events a := by
  unfold State.complete
  cases r <;> simp [eq_comm]

theorem appendCell_eq_ok {p : Params} {e e' : Engine} {v : Byte} :
    appendCell p e v = .ok e' ↔
      e.txHead < p.txqCap ∧ e' = { e with txq := e.txq.write e.txHead v, txHead := ringNext p e.txHead } := by
  unfold appendCell memWrite
  by_cases h : e.txHead < p.txqCap <;> simp [h, eq_comm]

/-! ### The ring -/

theorem ringNext_lt {p : Params} (h : 0 < p.txqCap) (a : Nat) : ringNext p a < p.txqCap := Nat.mod_lt _ h

theorem txqUsed_lt {p : Params} (h : 0 < p.txqCap) (e : Engine) : txqUsed p e < p.txqCap := by
  unfold txqUsed
  have h0 : (0 : Int) < (p.txqCap : Int) := by omega
  have h1 := Int.emod_lt_of_pos ((e.txHead : Int) - e.txTail) h0
  have h2 := Int.emod_nonneg ((e.txHead : Int) - e.txTail) (by omega : (p.txqCap : Int) ≠ 0)
  omega

/-- With both indices inside the ring, `txq_used` without the modulus. -/
theorem txqUsed_eq {p : Params} {e : Engine} (hh : e.txHead < p.txqCap) (ht : e.txTail < p.txqCap) :
    txqUsed p e = if e.txTail ≤ e.txHead then e.txHead - e.txTail else e.txHead + p.txqCap - e.txTail := by
  unfold txqUsed
  split
  · rw [Int.emod_eq_of_lt (by omega) (by omega)]; omega
  · rw [← Int.add_emod_right, Int.emod_eq_of_lt (by omega) (by omega)]; omega

theorem ringNext_eq {p : Params} {a : Nat} (h : a < p.txqCap) :
    ringNext p a = if a + 1 = p.txqCap then 0 else a + 1 := by
  unfold ringNext
  split
  · next h1 => rw [h1]; exact Nat.mod_self _
  · exact Nat.mod_eq_of_lt (by omega)

@[simp] theorem ringCells_length (p : Params) (m : Memory) (a n : Nat) : (ringCells p m a n).length = n := by
  induction n generalizing a with
  | zero => rfl
  | succ n ih => simp [ringCells, ih]

@[simp] theorem ringContent_length (p : Params) (e : Engine) : (ringContent p e).length = txqUsed p e :=
  ringCells_length p e.txq e.txTail _

/-! ### Receive side -/

/-- Everything `rx_begin` can do. -/
theorem rxBegin_eq_ok {e : Engine} {x : Eff} (h : rxBegin e = .ok x) :
    ∃ sl, e.slots[e.rxActive]? = some sl ∧
      ((sl.available = true ∧ x = Eff.report { e with rxEsc := false, rxDrop := true } .rxNoSlot) ∨
        (sl.available = false ∧
          x = Eff.quiet (setSlot { e with rxEsc := false, rxDrop := false } e.rxActive sl.restart))) := by
  unfold rxBegin at h
  split at h
  · cases h
  · next sl hsl =>
    refine ⟨sl, getSlot_eq_ok.1 hsl, ?_⟩
    split at h
    · next ha => cases h; exact .inl ⟨ha, rfl⟩
    · next ha => cases h; exact .inr ⟨by simpa using ha, rfl⟩

/-- Everything `rx_emit` can do. -/
theorem rxEmit_eq_ok {p : Params} {d : Byte} {e : Engine} {x : Eff} (h : rxEmit p d e = .ok x) :
    (e.rxDrop = true ∧ x = Eff.quiet e) ∨
      ∃ sl, e.rxDrop = false ∧ e.slots[e.rxActive]? = some sl ∧
        ((sl.len = p.rxSlotCap ∧ x = Eff.report { e with rxDrop := true } .rxOverflow) ∨
          (sl.len < p.rxSlotCap ∧ x = Eff.quiet (setSlot e e.rxActive (sl.store d)))) := by
  unfold rxEmit at h
  split at h
  · next hd => cases h; exact .inl ⟨hd, rfl⟩
  · next hd =>
    split at h
    · cases h
    · next sl hsl =>
      refine .inr ⟨sl, by simpa using hd, getSlot_eq_ok.1 hsl, ?_⟩
      split at h
      · next hl => cases h; exact .inl ⟨hl, rfl⟩
      · split at h
        · cases h
        · next m hm => cases h; exact .inr ⟨(memWrite_eq_ok.1 hm).1, rfl⟩

/-- Everything the second part of `rx_finish` can do. -/
theorem deliver_eq_ok {p : Params} {e : Engine} {x : Eff} (h : deliver p e = .ok x) :
    (e.rxDrop = true ∧ x = Eff.quiet e) ∨
      ∃ sl, e.rxDrop = false ∧ e.slots[e.rxActive]? = some sl ∧
        ((sl.sepValid = true ∧
            x = { engine := { setSlot e e.rxActive { sl with available := true } with
                    rxActive := (e.rxActive + 1) % p.nSlots }
                  events := [.notify] }) ∨
          (sl.sepValid = false ∧ x = Eff.report e .rxNoSep)) := by
  unfold deliver at h
  split at h
  · next hd => cases h; exact .inl ⟨hd, rfl⟩
  · next hd =>
    split at h
    · cases h
    · next sl hsl =>
      refine .inr ⟨sl, by simpa using hd, getSlot_eq_ok.1 hsl, ?_⟩
      split at h
      · next hv => cases h; exact .inl ⟨hv, rfl⟩
      · next hv => cases h; exact .inr ⟨by simpa using hv, rfl⟩

/-- Everything `wait_step` can do. -/
theorem waitStep_eq_ok {e : Engine} {x : Eff} (h : waitStep e = .ok x) :
    (e.arbIndex < 6 ∧ x = Eff.quiet { e with arbIndex := e.arbIndex + 1 }) ∨
      ∃ a, e.arbIndex = 6 ∧ rxBegin { e with arbIndex := 7 } = .ok a ∧
        x = { engine := { a.engine with state := .receiving }, events := a.events } := by
  unfold waitStep at h
  split at h
  · next hi => cases h; exact .inl ⟨hi, rfl⟩
  · split at h
    · next hi =>
      obtain ⟨a, b, ha, hb, rfl⟩ := andThen_eq_ok.1 h
      cases hb
      exact .inr ⟨a, hi, ha, by simp [Eff.quiet]⟩
    · cases h

/-- Everything `part_lose` can do. -/
theorem partLose_eq_ok {e : Engine} {x : Eff} (h : partLose e = .ok x) :
    (e.arbIndex ≠ 7 ∧ x = Eff.quiet { e with state := .waitingArbitration }) ∨
      ∃ a, e.arbIndex = 7 ∧ rxBegin e = .ok a ∧
        x = { engine := { a.engine with state := .receiving }, events := a.events } := by
  unfold partLose at h
  split at h
  · next hi =>
    obtain ⟨a, b, ha, hb, rfl⟩ := andThen_eq_ok.1 h
    cases hb
    exact .inr ⟨a, hi, ha, by simp [Eff.quiet]⟩
  · next hi => cases h; exact .inl ⟨hi, rfl⟩

/-- Everything the drain of one byte can do. -/
theorem drainStep_eq_ok {p : Params} {e : Engine} {x : Eff} (h : drainStep p e = .ok x) :
    (e.txHead = e.txTail ∧ x = Eff.quiet (txDone p e)) ∨
      (e.txHead ≠ e.txTail ∧ e.txTail < p.txqCap ∧
        x = Eff.sending
          (if e.txq.read e.txTail = endByte then txDone p { e with txTail := ringNext p e.txTail }
           else { e with txTail := ringNext p e.txTail }) (e.txq.read e.txTail)) := by
  unfold drainStep txqEmpty at h
  split at h
  · next he => cases h; exact .inl ⟨by simpa using he, rfl⟩
  · next he =>
    split at h
    · cases h
    · next b hb =>
      obtain ⟨hlt, rfl⟩ := memRead_eq_ok.1 hb
      cases h
      exact .inr ⟨by simpa using he, hlt, rfl⟩

/-! ### Producer side -/

/-- The terminator alone fits exactly if a cell is free. -/
@[simp] theorem txFits_nil {p : Params} {e : Engine} : txFits p e [] = decide (1 ≤ txqFree p e) := by simp [txFits]

/-- When a frame is marked: it was, or the cells it asks for are not free. -/
theorem markOverflow_txOvf {p : Params} {xs : List Byte} {e : Engine} :
    (markOverflow p xs e).txOvf = true ↔ e.txOvf = true ∨ txqFree p e < xs.length + 1 := by
  simp [markOverflow, txFits]

/-- The mark is the one field written; a rollback clears it. -/
@[simp] theorem txRollback_markOverflow {p : Params} {xs : List Byte} {e : Engine} :
    txRollback (markOverflow p xs e) = txRollback e := rfl

/-- Everything TX_PUSH can do: turned away, refused whole with the mark, or the encoded byte appended. -/
theorem execTxPush_eq_next {b : Byte} {s t : State} (h : execTxPush b s = .next t) :
    (s.engine.txLock = false ∧ t = s.finish s.engine [] (Answer.plain .rejected)) ∨
      (s.engine.txLock = true ∧ (s.engine.txOvf = true ∨ txqFree s.params s.engine < (enc b).length + 1) ∧
        t = s.finish { s.engine with txOvf := true } [] (Answer.plain .rejected)) ∨
      (s.engine.txLock = true ∧ s.engine.txOvf = false ∧ (enc b).length + 1 ≤ txqFree s.params s.engine ∧
        ∃ e, appendCells s.params s.engine (enc b) = .ok e ∧ t = s.finish e [] (Answer.plain .ok)) := by
  unfold execTxPush State.turnAway at h
  split at h
  · next hl => cases h; exact .inl ⟨hl, rfl⟩
  · next hl =>
    have hl' : s.engine.txLock = true := by simpa using hl
    split at h
    · next hr =>
      cases h
      refine .inr (.inl ⟨hl', markOverflow_txOvf.1 hr, ?_⟩)
      rw [← hr]; rfl
    · next hr =>
      rw [markOverflow_txOvf, not_or, Bool.not_eq_true] at hr
      split at h
      · cases h
      · next e he => cases h; exact .inr (.inr ⟨hl', hr.1, by omega, e, he, rfl⟩)

/-- Everything TX_CLOSE can do: turned away, rolled back, or the steps of an accepted close. -/
theorem execTxClose_eq_next {s t : State} (h : execTxClose s = .next t) :
    (s.engine.txLock = false ∧ t = s.finish s.engine [] (Answer.plain .rejected)) ∨
      (s.engine.txLock = true ∧ (s.engine.txOvf = true ∨ txqFree s.params s.engine = 0) ∧
        t = s.finish (txRollback s.engine) [] (Answer.plain .rejected)) ∨
      (s.engine.txLock = true ∧ s.engine.txOvf = false ∧ 1 ≤ txqFree s.params s.engine ∧
        ∃ x, closeSteps s.params s.tick s.engine = .ok x ∧ t = s.finish x.engine x.events (Answer.plain .ok)) := by
  unfold execTxClose State.turnAway at h
  split at h
  · next hl => cases h; exact .inl ⟨hl, rfl⟩
  · next hl =>
    have hl' : s.engine.txLock = true := by simpa using hl
    split at h
    · next hr =>
      cases h
      exact .inr (.inl ⟨hl', (markOverflow_txOvf.1 hr).imp id (by simp), rfl⟩)
    · next hr =>
      rw [markOverflow_txOvf, not_or, Bool.not_eq_true] at hr
      obtain ⟨x, hx, rfl⟩ := complete_eq_next.1 h
      exact .inr (.inr ⟨hl', hr.1, by have h2 := hr.2; simp only [List.length_nil] at h2; omega, x, hx, rfl⟩)

/-- Everything the steps of an accepted TX_CLOSE can do: terminator and count, then the kick on an idle bus. -/
theorem closeSteps_eq_ok {p : Params} {now : Nat} {e : Engine} {x : Eff} (h : closeSteps p now e = .ok x) :
    ∃ e1, appendCell p e endByte = .ok e1 ∧
      ((isIdle p now { e1 with txPending := e1.txPending + 1 } = true ∧
          x = { engine := { (kick p now { e1 with txPending := e1.txPending + 1 }).engine with txLock := false }
                events := [.send endByte] }) ∨
        (isIdle p now { e1 with txPending := e1.txPending + 1 } = false ∧
          x = { engine := { e1 with txPending := e1.txPending + 1, txLock := false }, events := [] })) := by
  unfold closeSteps at h
  split at h
  · cases h
  · next e1 he =>
    refine ⟨e1, he, ?_⟩
    cases h
    cases hi : isIdle p now { e1 with txPending := e1.txPending + 1 } with
    | true => exact .inl ⟨rfl, by simp [kick, Eff.sending]⟩
    | false => exact .inr ⟨rfl, by simp [Eff.quiet]⟩

/-! ### Spreading function, scripts -/

@[simp] theorem spreadOf_formula {p : Params} (h : p.spreading = .formula) : spreadOf p = spread14 := by
  funext id; simp [spreadOf, h]

theorem onNext_eq_next {α β : Type} {r : Host.Outcome α Fault Refusal} {f : α → Host.Outcome β Fault Refusal} {b : β} :
    onNext r f = .next b ↔ ∃ a, r = .next a ∧ f a = .next b := by
  cases r <;> simp [onNext]

/-- A script of two parts runs one after the other. -/
theorem execScript_append (l l' : List (Instr × Nat)) (s : State) :
    execScript (l ++ l') s = onNext (execScript l s) (execScript l') := by
  induction l generalizing s with
  | nil => rfl
  | cons x l ih =>
    obtain ⟨i, t⟩ := x
    simp only [List.cons_append, execScript]
    cases exec i (s.atTick t) <;> simp [onNext, ih]

end Sys2Proof.Machine
end

