-- ==== Sys2Proof/Laws/FullRing.lean ====
section
/-! SUPPORT. Why a TX_CLOSE without a free cell is refused (log entry 11): no engine state whatever is a lawful answer OK to it. -/

namespace Sys2Proof.Machine

/-- Fewer cells from the same index are a part, from the front, of more. -/
theorem ringCells_take {p : Params} {m : Memory} {a k n : Nat} (h : k ≤ n) :
    ringCells p m a k = (ringCells p m a n).take k := by
  induction n generalizing a k with
  | zero => obtain rfl : k = 0 := by omega
            rfl
  | succ n ih =>
    cases k with
    | zero => rfl
    | succ k => simp only [ringCells, List.take_succ_cons, ih (Nat.le_of_succ_le_succ h)]

/-- With no free cell in the ring, an operation that leaves the queued cells and `tx_tail` alone (R69, R206 b) cannot both count one
more frame, as R206 (a) has every TX_CLOSE that answers OK do, and keep V2 (R39), whatever it does to `tx_head`, to the cell at
`tx_head` and to every other field: the ring has no room for one more terminator. -/
theorem no_close_counts_on_full_ring {p : Params} {e e' : Engine} (hcap : 0 < p.txqCap) (h : V2 p e) (hfull : txqFree p e = 0)
    (htail : e'.txTail = e.txTail) (hqueued : ringCells p e'.txq e.txTail (txqUsed p e) = ringContent p e)
    (hcount : e'.txPending = e.txPending + 1) : ¬ V2 p e' := by
  intro h'
  have hused : txqUsed p e' ≤ txqUsed p e := by
    have := txqUsed_lt hcap e'
    unfold txqFree at hfull
    omega
  have hpart : ringContent p e' = (ringContent p e).take (txqUsed p e') := by
    rw [← hqueued, ← ringCells_take hused, ringContent, htail]
  have hle : (ringContent p e').count 0#8 ≤ (ringContent p e).count 0#8 := by
    rw [hpart]; exact (List.take_sublist _ _).count_le _
  rw [h.count, h'.count] at hle
  omega

end Sys2Proof.Machine
end

