-- ==== Sys2Proof/Laws/PerInstr.lean ====
section
/-! SUPPORT. The per-instruction family: every well-formed instruction's encoding has the fixed bits of its row of the opcode
table. -/

namespace Sys2Proof.Laws.TableMatch

/-- The encoding is a command word that equals the row's match bits under the mask 0xF0000. -/
def commandRow (i : Instr) (bits : CmdWord) : Prop := ∃ w, encode i = .cmd w ∧ w &&& 0xF0000#20 = bits

/-- The encoding is the one byte of a wire row. -/
def wireRow (i : Instr) (b : Byte) : Prop := encode i = .wire b

/-- What the table says of the fixed bits of each row; of LIT it says that the byte is neither 0x00 nor 0xDB. -/
def Statement (i : Instr) : Prop :=
  i.wellFormed = true →
    match i with
    | .setChipId id => commandRow (.setChipId id) 0x10000
    | .setPriority v => commandRow (.setPriority v) 0x20000
    | .isIdle => commandRow .isIdle 0x30000
    | .txStart => commandRow .txStart 0x40000
    | .txPush b => commandRow (.txPush b) 0x50000
    | .txClose => commandRow .txClose 0x60000
    | .rxRead slot offset => commandRow (.rxRead slot offset) 0x70000
    | .rxRelease slot => commandRow (.rxRelease slot) 0x80000
    | .rxByte c => commandRow (.rxByte c) 0x90000
    | .txReady => commandRow .txReady 0xA0000
    | .endSym => wireRow .endSym 0x00
    | .esc => wireRow .esc 0xDB
    | .escEnd => wireRow .escEnd 0xDC
    | .escEsc => wireRow .escEsc 0xDD
    | .lit b => wireRow (.lit b) b ∧ b ≠ 0x00#8 ∧ b ≠ 0xDB#8

/-- The mask keeps the operation code of a command word and clears its operand. -/
theorem mkCmd_masked (op : BitVec 4) (arg : BitVec 16) : mkCmd op arg &&& 0xF0000#20 = op ++ 0#16 := by
  apply BitVec.eq_of_getLsbD_eq
  intro k hk
  have h : (0xF0000#20).getLsbD k = decide (16 ≤ k) := by revert k; decide
  rw [mkCmd, BitVec.getLsbD_and, BitVec.getLsbD_append, BitVec.getLsbD_append, h]
  by_cases h16 : k < 16 <;> simp [h16]
  omega

theorem commandRow_mk {i : Instr} {op : BitVec 4} {arg : BitVec 16} {bits : CmdWord} (h : encode i = .cmd (mkCmd op arg))
    (hb : op ++ 0#16 = bits) : commandRow i bits :=
  ⟨_, h, (mkCmd_masked op arg).trans hb⟩

theorem setChipId (id : BitVec 14) : Statement (.setChipId id) := fun _ => commandRow_mk rfl rfl
theorem setPriority (v : BitVec 16) : Statement (.setPriority v) := fun _ => commandRow_mk rfl rfl
theorem isIdle : Statement .isIdle := fun _ => commandRow_mk rfl rfl
theorem txStart : Statement .txStart := fun _ => commandRow_mk rfl rfl
theorem txPush (b : Byte) : Statement (.txPush b) := fun _ => commandRow_mk rfl rfl
theorem txClose : Statement .txClose := fun _ => commandRow_mk rfl rfl
theorem rxRead (slot : BitVec 4) (offset : BitVec 12) : Statement (.rxRead slot offset) := fun _ => commandRow_mk rfl rfl
theorem rxRelease (slot : BitVec 4) : Statement (.rxRelease slot) := fun _ => commandRow_mk rfl rfl
theorem rxByte (c : Byte) : Statement (.rxByte c) := fun _ => commandRow_mk rfl rfl
theorem txReady : Statement .txReady := fun _ => commandRow_mk rfl rfl
theorem endSym : Statement .endSym := fun _ => rfl
theorem esc : Statement .esc := fun _ => rfl
theorem escEnd : Statement .escEnd := fun _ => rfl
theorem escEsc : Statement .escEsc := fun _ => rfl

theorem lit (b : Byte) : Statement (.lit b) := by
  intro h
  simp only [Instr.wellFormed, Bool.and_eq_true, bne_iff_ne, ne_eq] at h
  exact ⟨rfl, h.1, h.2⟩

end Sys2Proof.Laws.TableMatch
end

