-- ==== Sys2Proof/Laws/Spread.lean ====
section
/-! SUPPORT. The chip-id spreading function (R141): the formula has the three required properties, and it is the only function that
has them, so a configured function that meets R141 gives the formula's bytes. -/

namespace Sys2Proof.Machine

/-- A strictly increasing map of the first `m` numbers into themselves is the identity. -/
theorem eq_self_of_increasing {m : Nat} {g : Nat → Nat} (hlt : ∀ i < m, g i < m)
    (hmono : ∀ i j, i < j → j < m → g i < g j) : ∀ i < m, g i = i := by
  have below : ∀ i, i < m → i ≤ g i := by
    intro i
    induction i with
    | zero => intro _; exact Nat.zero_le _
    | succ i ih =>
      intro hi
      have h1 := ih (by omega)
      have h2 := hmono i (i + 1) (by omega) hi
      omega
  have above : ∀ d, d < m → g (m - 1 - d) ≤ m - 1 - d := by
    intro d
    induction d with
    | zero => intro hd; have := hlt (m - 1 - 0) (by omega); omega
    | succ d ih =>
      intro hd
      have h1 := ih (by omega)
      have h2 := hmono (m - 1 - (d + 1)) (m - 1 - d) (by omega) (by omega)
      omega
  intro i hi
  have h1 := below i hi
  have h2 := above (m - 1 - i) (by omega)
  rw [show m - 1 - (m - 1 - i) = i by omega] at h2
  omega

/-- Seven bits shifted left with bit 0 set. -/
theorem shifted_or_one_toNat (x : BitVec 7) : (((x.setWidth 8) <<< 1) ||| 1#8).toNat = 2 * x.toNat + 1 := by
  revert x; decide

theorem shifted_or_one_bit (x : BitVec 7) : (((x.setWidth 8) <<< 1) ||| 1#8).getLsbD 0 = true := by simp

/-- The formula's two bytes as numbers. -/
theorem spread14_toNat (id : BitVec 14) :
    (spread14 id).1.toNat = 2 * (id.toNat / 128) + 1 ∧ (spread14 id).2.toNat = 2 * (id.toNat % 128) + 1 := by
  have h := id.isLt
  unfold spread14
  rw [shifted_or_one_toNat, shifted_or_one_toNat]
  simp only [BitVec.extractLsb'_toNat, Nat.shiftRight_eq_div_pow]
  omega

/-- The formula has the properties R141 requires. -/
theorem spreads_spread14 : Spreads spread14 where
  bitZero id := ⟨shifted_or_one_bit _, shifted_or_one_bit _⟩
  injective id id' h := by
    have h1 := spread14_toNat id
    have h2 := spread14_toNat id'
    rw [h] at h1
    apply BitVec.eq_of_toNat_eq
    omega
  monotone id id' h := by
    have h1 := spread14_toNat id
    have h2 := spread14_toNat id'
    omega

/-- An instance with the default spreading function meets R141. -/
theorem spreads_of_formula {p : Params} (h : p.spreading = .formula) : Spreads (spreadOf p) := by
  rw [spreadOf_formula h]; exact spreads_spread14

theorem byte_odd {b : Byte} (h : b.getLsbD 0 = true) : b.toNat % 2 = 1 := by
  rw [BitVec.getLsbD, Nat.testBit_zero] at h
  simpa using h

/-- The three properties of R141 leave one function, the formula: with bit 0 fixed a pair carries 14 bits, and a strictly
increasing map of the 14-bit numbers into themselves is the identity. -/
theorem spreads_unique {f : BitVec 14 → Byte × Byte} (h : Spreads f) : f = spread14 := by
  let g : Nat → Nat := fun i => (f (BitVec.ofNat 14 i)).1.toNat / 2 * 128 + (f (BitVec.ofNat 14 i)).2.toNat / 2
  have hg : ∀ i < 16384, g i = i := by
    refine eq_self_of_increasing ?_ ?_
    · intro i _
      have h1 := (f (BitVec.ofNat 14 i)).1.isLt
      have h2 := (f (BitVec.ofNat 14 i)).2.isLt
      simp only [g]; omega
    · intro i j hij hj
      have hm := h.monotone (BitVec.ofNat 14 i) (BitVec.ofNat 14 j)
        (by simp only [BitVec.toNat_ofNat]; rw [Nat.mod_eq_of_lt, Nat.mod_eq_of_lt] <;> omega)
      have o1 := byte_odd (h.bitZero (BitVec.ofNat 14 i)).1
      have o2 := byte_odd (h.bitZero (BitVec.ofNat 14 i)).2
      have o3 := byte_odd (h.bitZero (BitVec.ofNat 14 j)).1
      have o4 := byte_odd (h.bitZero (BitVec.ofNat 14 j)).2
      have l1 := (f (BitVec.ofNat 14 i)).2.isLt
      have l2 := (f (BitVec.ofNat 14 j)).2.isLt
      simp only [g]; omega
  funext id
  have hi := hg id.toNat id.isLt
  simp only [g, BitVec.ofNat_toNat, BitVec.setWidth_eq] at hi
  have o1 := byte_odd (h.bitZero id).1
  have o2 := byte_odd (h.bitZero id).2
  have l2 := (f id).2.isLt
  have s := spread14_toNat id
  apply Prod.ext <;> apply BitVec.eq_of_toNat_eq <;> omega

end Sys2Proof.Machine
end

