-- ==== Sys2Proof/Tests/Slice0.lean ====
section
/-! SUPPORT. Tests: the well-formedness smoke, one word for each constructor written out from its encoding, at most two steps for
each instruction with results from 95_test_vectors.md, and for each statement with hypotheses a state that meets them. -/

open Sys2Proof Sys2Proof.Machine

namespace Sys2Proof.Tests

/-! ### Helpers -/

/-- A small legal instance. -/
def tiny : Params :=
  { txqCap := 8, rxSlotCap := 4, nSlots := 2, tResync := 1, tIdle := 3, tickBits := 8, sendingComplete := false
    spreading := .formula }

/-- The engine after reset, and the same as the spec's vectors start from. -/
def node : Engine := Engine.reset tiny
def fresh : Engine := Engine.reset Config.default

/-- A machine with an engine, at a tick, with the inputs of a list waiting. -/
def machine (p : Params) (e : Engine) (now : Nat) (xs : List Input) : State :=
  { params := p, engine := e, port := { pending := xs, now := now, answer := none, trace := [] } }

/-- The tiny machine at tick 0 with nothing waiting, and with one input waiting. -/
def small (e : Engine) : State := machine tiny e 0 []
def given (e : Engine) (x : Input) : State := machine tiny e 0 [x]

/-- A machine of the spec's default parameters at a tick. -/
def vector (e : Engine) (now : Nat) : State := machine Config.default e now []

/-- The outcome is a next state with a property. -/
def nextHas (r : Host.Outcome State Fault Refusal) (f : State → Bool) : Bool :=
  match r with
  | .next t => f t
  | .fault _ => false
  | .refused _ => false

theorem next_of_nextHas {r : Host.Outcome State Fault Refusal} {f : State → Bool} (h : nextHas r f = true) :
    ∃ t, r = .next t := by
  cases r with
  | next t => exact ⟨t, rfl⟩
  | fault f => cases h
  | refused r => cases h

/-- The soundness of Safety.lean as one check. -/
def soundCheck (p : Params) (e : Engine) : Bool :=
  decide (e.txHead < p.txqCap) && decide (e.txTail < p.txqCap) && decide (e.txFrameStart < p.txqCap) &&
    decide (e.arbIndex ≤ 7) && decide (e.lastActivity < 2 ^ p.tickBits) && decide (e.slots.length = p.nSlots) &&
    decide (e.rxActive < p.nSlots) && e.txq.wf && decide (∀ sl ∈ e.slots, sl.buf.wf = true) &&
    decide (∀ sl ∈ e.slots, sl.sep < p.rxSlotCap) && decide (V1 e) &&
    decide (V3 e) && decide (V4 p e) && decide (V5 e) && decide (V6 e) && decide (V7 e) && decide (PumpOwns e)

theorem sound_of_check {p : Params} {e : Engine} (h : soundCheck p e = true) : Machine.Sound p e := by
  simp only [soundCheck, Bool.and_eq_true, decide_eq_true_eq] at h
  obtain ⟨⟨⟨⟨⟨⟨⟨⟨⟨⟨⟨⟨⟨⟨⟨⟨h1, h2⟩, h3⟩, h4⟩, h5⟩, h6⟩, h7⟩, h8⟩, h9⟩, h10⟩, v1⟩, v3⟩, v4⟩, v5⟩, v6⟩, v7⟩, ow⟩ := h
  exact ⟨⟨h1, h2, h3, h4, h5, h6, h7, h8, h9, h10⟩, v1, v3, v4, v5, v6, v7, ow⟩

theorem state_sound {s : State}
    (h : (decide s.params.Legal && decide (s.params.spreading = .formula) && soundCheck s.params s.engine) = true) :
    s.Sound := by
  simp only [Bool.and_eq_true, decide_eq_true_eq] at h
  exact ⟨h.1.1, spreads_of_formula h.1.2, sound_of_check h.2⟩

/-! ### Engines the witnesses use -/

def pkt : ArbPkt :=
  { priority := 0x95, chipIdHi := 0x01, chipIdLo := 0x23, latencyA := 0xFF
    collMap0 := 0xFF, collMap1 := 0xFF, collMap2 := 0xFF, latencyB := 0xFF }

def listening : Engine := { node with state := .waitingArbitration, arbIndex := 6 }
def contending (i : Nat) : Engine :=
  { node with state := .participatingArbitration, arbIndex := i, arbPkt := pkt, txPending := 1 }
def takenSlot : Slot := { buf := [(0, 0x61)], len := 2, sep := 1, sepValid := true, available := true }
def halfSlot : Slot := { buf := [(0, 0x61)], len := 1, sep := 0, sepValid := false, available := false }
def sepSlot : Slot := { buf := [(0, 0x61)], len := 2, sep := 1, sepValid := true, available := false }
def fullSlot : Slot :=
  { buf := [(0, 0x61), (2, 0x62), (3, 0x63)], len := 4, sep := 1, sepValid := true, available := false }
def receiving (sl : Slot) : Engine := { node with state := .receiving, arbIndex := 7, slots := [sl, Slot.reset] }
def sendingOne (b : Byte) : Engine :=
  { node with state := .sending, txIrqEn := true, txPending := 1, txq := Memory.write [] 0 b, txHead := 1 }
/-- One frame queued behind which a frame is being composed. -/
def composing : Engine :=
  { node with txq := [(0, 0x61), (2, 0x62)], txHead := 3, txPending := 1, txLock := true, txFrameStart := 2 }
/-- The ring full of one frame, the lock just taken. -/
def fullRing : Engine :=
  { node with txq := [(0, 1), (1, 2), (2, 3), (3, 4), (4, 5), (5, 6)], txHead := 7, txPending := 1
              txLock := true, txFrameStart := 7 }

theorem composing_ring : V2 tiny composing :=
  ⟨by decide, by decide, by decide, by decide, by decide, by decide⟩

theorem fullRing_ring : V2 tiny fullRing :=
  ⟨by decide, by decide, by decide, by decide, by decide, by decide⟩

/-! ### Well-formedness smoke -/

theorem test_wf_lit_end_refused : (Instr.lit 0x00#8).wellFormed = false := by decide
theorem test_wf_lit_esc_refused : (Instr.lit 0xDB#8).wellFormed = false := by decide
theorem test_wf_lit_neighbours : (Instr.lit 0x01#8).wellFormed = true ∧ (Instr.lit 0xDC#8).wellFormed = true := by decide

/-! ### Decoding: words written out bit by bit from the encodings of R97 and R90 -/

theorem test_decode_setChipId : decodeTableWord 24 0b00011100000100100011 = some (.setChipId 0x123#14) := by decide
theorem test_decode_setPriority : decodeTableWord 24 0b00101111111111000100 = some (.setPriority (-60#16)) := by decide
theorem test_decode_isIdle : decodeTableWord 24 0b00110000000000000001 = some .isIdle := by decide
theorem test_decode_txStart : decodeTableWord 24 0b01000000000000000000 = some .txStart := by decide
theorem test_decode_txPush : decodeTableWord 24 0b01011111111101100001 = some (.txPush 0x61#8) := by decide
theorem test_decode_txClose : decodeTableWord 24 0b01100000000000000000 = some .txClose := by decide
theorem test_decode_rxRead : decodeTableWord 24 0b01110010000000000011 = some (.rxRead 2#4 3#12) := by decide
theorem test_decode_rxRelease : decodeTableWord 24 0b10000011111111111111 = some (.rxRelease 3#4) := by decide
theorem test_decode_rxByte : decodeTableWord 24 0b10010000000011011011 = some (.rxByte 0xDB#8) := by decide
theorem test_decode_txReady : decodeTableWord 24 0b10100000000000000000 = some .txReady := by decide
theorem test_decode_end : decodeTableWord 8 0b00000000 = some .endSym := by decide
theorem test_decode_esc : decodeTableWord 8 0b11011011 = some .esc := by decide
theorem test_decode_escEnd : decodeTableWord 8 0b11011100 = some .escEnd := by decide
theorem test_decode_escEsc : decodeTableWord 8 0b11011101 = some .escEsc := by decide
theorem test_decode_lit : decodeTableWord 8 0b01100001 = some (.lit 0x61#8) := by decide
theorem test_decode_reserved :
    decodeTableWord 24 0x00000 = none ∧ decodeTableWord 24 0xB0000 = none ∧ decodeTableWord 24 0xFFFFF = none := by decide
/-- A stray bit above the format is no word of it. -/
theorem test_decode_too_wide : decodeTableWord 24 0x110000 = none ∧ decodeTableWord 8 0x100 = none := by decide
/-- Group E: 0xDC and 0xDD are literals without an escape pending; 0xDB after an escape is invalid. -/
theorem test_decode_contexts :
    decodeWire false 0xDC = .ok (.lit 0xDC) ∧ decodeWire false 0xDD = .ok (.lit 0xDD) ∧
      decodeWire true 0xDB = .error (.invalidEscape 0xDB) := by decide
/-- A byte outside a frame body is no symbol (R91). -/
theorem test_wire_outside_body : wireInstr false false 0xDB = .rxByte 0xDB ∧ wireInstr false true 0x00 = .endSym := by decide

/-- The interface's two words: a command and a wire byte presented after reset run as the next instruction. -/
theorem test_fetch_command :
    nextHas (step (State.reset.withFetchWord 24 0x10123)) (fun t => t.engine.cfgChipId == 0x123#14) = true := by decide
theorem test_fetch_wire :
    nextHas (step (State.reset.withFetchWord 8 0xDB)) (fun t => t.engine.rxEsc && t.engine.state == .receiving) = true := by decide

/-! ### One step of each instruction, from the spec's vectors -/

/-- 0x3FFF is the largest identity. -/
theorem test_setChipId : nextHas (exec (.setChipId 0x3FFF) (vector fresh 0)) (fun t => t.engine.cfgChipId == 0x3FFF#14) = true := by
  decide
/-- R241: -61 is clamped to -60, the byte 0xC4. -/
theorem test_setPriority_low :
    nextHas (exec (.setPriority 0xFFC3) (vector fresh 0)) (fun t => t.engine.cfgPriority == 0xC4#8) = true := by decide
/-- R241: 128 is clamped to 60 although its low byte is negative. -/
theorem test_setPriority_high :
    nextHas (exec (.setPriority 0x0080) (vector fresh 0)) (fun t => t.engine.cfgPriority == 60#8) = true := by decide
/-- P1 lines 25 and 26: with `last_activity` 103 the bus is idle at 114 and not yet at 113. -/
theorem test_isIdle_window :
    nextHas (exec .isIdle (vector { fresh with state := .waitingArbitration, lastActivity := 103 } 113))
        (fun t => t.port.answer == some { status := .ok, result := .idleBit false }) = true ∧
      nextHas (exec .isIdle (vector { fresh with state := .waitingArbitration, lastActivity := 103 } 114))
        (fun t => t.port.answer == some { status := .ok, result := .idleBit true }) = true := by decide
theorem test_txStart_held :
    nextHas (exec .txStart (small composing))
      (fun t => t.engine == composing && t.port.answer == some (Answer.plain .held)) = true := by decide
/-- S8: pushing 0xDB writes DB DD. -/
theorem test_txPush_escapes :
    nextHas (exec (.txPush 0xDB) (vector { fresh with txLock := true } 0))
      (fun t => t.engine.txq == [(0, 0xDB), (1, 0xDD)] && t.engine.txHead == 2) = true := by decide
/-- R201: two cells and the terminator need three free cells; with two the byte is refused whole. -/
theorem test_txPush_no_room :
    nextHas (exec (.txPush 0x00) (small { node with txLock := true, txHead := 5 }))
      (fun t => t.engine.txHead == 5 && t.engine.txOvf && t.port.answer == some (Answer.plain .rejected)) = true := by decide
/-- P1 line 6: the kick. -/
theorem test_txClose_kick :
    nextHas (exec .txClose (vector { fresh with cfgChipId := 0x123, txLock := true, txHead := 3 } 100))
      (fun t => t.port.trace == [.send 0x00] && t.engine.state == .participatingArbitration && t.engine.txHead == 4 &&
        t.engine.txPending == 1 && t.engine.lastActivity == 100 && t.engine.arbPkt.chipIdLo == 0x47) = true := by decide
/-- P5 line 4: no kick behind live traffic. -/
theorem test_txClose_quiet :
    nextHas (exec .txClose (vector { fresh with state := .waitingArbitration, lastActivity := 1002, txLock := true, txHead := 3 } 1004))
      (fun t => t.port.trace == [] && t.engine.state == .waitingArbitration && t.engine.lastActivity == 1002) = true := by decide
/-- R62, R251: a frame whose terminator finds no free cell is rolled back. -/
theorem test_txClose_full :
    nextHas (exec .txClose (small fullRing))
      (fun t => t.engine == { fullRing with txLock := false } && t.port.answer == some (Answer.plain .rejected) &&
        t.port.trace == []) = true := by decide
theorem test_rxRead_data :
    nextHas (exec (.rxRead 0 0) (small { node with slots := [takenSlot, Slot.reset] }))
      (fun t => t.port.answer == some { status := .ok, result := .slotView true 1 2 0x61 }) = true := by decide
/-- R225: beyond `len` the data byte is 0; a slot beyond the pool is refused. -/
theorem test_rxRead_edges :
    nextHas (exec (.rxRead 1 0) (small node))
        (fun t => t.port.answer == some { status := .ok, result := .slotView false 0 0 0 }) = true ∧
      nextHas (exec (.rxRead 2 0) (small node)) (fun t => t.port.answer == some (Answer.plain .rejected)) = true := by decide
theorem test_rxRelease :
    nextHas (exec (.rxRelease 0) (small { node with slots := [takenSlot, Slot.reset] }))
      (fun t => t.engine.slots == [sepSlot, Slot.reset]) = true := by decide
/-- B11: the first mismatch is position 21. -/
theorem test_rxByte_compare :
    nextHas (exec (.rxByte 0x81) (vector { contending 0 with lastActivity := 10 } 12))
      (fun t => t.engine.mismatchPos == 21 && t.engine.arbIndex == 1 && t.port.trace == [.send 0x01]) = true := by decide
/-- B15: position 21 is cleared and lies below 22, so the node has lost. -/
theorem test_rxByte_lost :
    nextHas (exec (.rxByte 0xCF) (vector { contending 4 with mismatchPos := 22 } 12))
      (fun t => t.engine.state == .waitingArbitration && t.engine.arbIndex == 5 && t.port.trace == []) = true := by decide
/-- P1 line 21: the terminator completes the frame. -/
theorem test_txReady_terminator :
    nextHas (exec .txReady (small (sendingOne 0x00)))
      (fun t => t.engine.state == .idle && t.engine.txPending == 0 && t.engine.txTail == 1 && t.port.trace == [.send 0x00]) = true := by
  decide
/-- R28: the ring wraps. -/
theorem test_txReady_wrap :
    nextHas (exec .txReady (small { sendingOne 0x00 with txq := [(7, 0x61)], txTail := 7 }))
      (fun t => t.engine.txTail == 0 && t.port.trace == [.send 0x61]) = true := by decide
/-- P3 line 13: the END delivers the frame. -/
theorem test_end_delivers :
    nextHas (exec .endSym (small (receiving sepSlot)))
      (fun t => t.engine.slots == [takenSlot, Slot.reset] && t.engine.rxActive == 1 && t.port.trace == [.notify] &&
        t.engine.state == .waitingArbitration) = true := by decide
/-- P4 line 4: after more than the grace window the half-received frame is abandoned silently. -/
theorem test_end_forced :
    nextHas (exec .endSym (machine tiny (receiving sepSlot) 2 []))
      (fun t => t.engine.slots == [sepSlot, Slot.reset] && t.port.trace == [] && t.engine.state == .waitingArbitration) = true := by
  decide
theorem test_esc : nextHas (exec .esc (small (receiving halfSlot))) (fun t => t.engine.rxEsc && t.port.trace == []) = true := by
  decide
/-- P3 line 6: the zero byte is the separator. -/
theorem test_escEnd :
    nextHas (exec .escEnd (small { receiving halfSlot with rxEsc := true }))
      (fun t => t.engine.slots == [sepSlot, Slot.reset] && !t.engine.rxEsc) = true := by decide
theorem test_escEsc :
    nextHas (exec .escEsc (small { receiving halfSlot with rxEsc := true }))
      (fun t => (t.engine.slots.map Slot.bytes) == [[0x61, 0xDB], []]) = true := by decide
/-- Group E: without an escape pending 0xDC is a literal. -/
theorem test_lit :
    nextHas (exec (.lit 0xDC) (small (receiving halfSlot)))
      (fun t => (t.engine.slots.map Slot.bytes) == [[0x61, 0xDC], []]) = true := by decide
/-- Group O: a byte beyond the slot is not stored. -/
theorem test_lit_overflow :
    nextHas (exec (.lit 0x64) (small (receiving fullSlot)))
      (fun t => t.engine.slots == [fullSlot, Slot.reset] && t.engine.rxDrop && t.port.trace == [.diag .rxOverflow]) = true := by
  decide

/-! ### The pseudo-operations of R103 -/

/-- Vectors T4 and T5 as a call: the lock is held at the first try, its holder closes at tick 50, the second try succeeds. -/
theorem test_startPacket_retries :
    nextHas (onNext (startPacket [0x61] [[(.txClose, 50)]] (small { node with txLock := true })) (fun r =>
        if r.2 = .ok then .next r.1 else .next (small node)))
      (fun t => t.engine.txFrameStart == 1 && ringContent tiny t.engine == [0x00, 0x61, 0xDB, 0xDC] && t.engine.txLock) = true := by
  decide
/-- The lock held to the end, and a topic that does not fit. -/
theorem test_startPacket_status :
    nextHas (onNext (startPacket [0x61] [] (small { node with txLock := true })) (fun r =>
        if r.2 = .held then .next r.1 else .next (small node))) (fun t => t.engine.txLock) = true ∧
      nextHas (onNext (startPacket [1, 2, 3, 4, 5] [] (small node)) (fun r =>
        if r.2 = .rejected then .next r.1 else .next (small node))) (fun t => t.engine.txOvf) = true := by decide
/-- R225: topic "a" and an empty payload, then the release. -/
theorem test_rxFrame :
    nextHas (onNext (rxFrame 0 (small { node with slots := [takenSlot, Slot.reset] })) (fun r =>
        if r.2 = some ([0x61], []) then .next r.1 else .next (small { node with slots := [takenSlot, Slot.reset] })))
      (fun t => t.engine.slots == [sepSlot, Slot.reset]) = true := by decide

/-! ### The pure functions, from the tables of groups C and A -/

theorem test_codec_c12 : decodeBytes [0xDB, 0xDB, 0xDC] = { bytes := [0xDC], rxEsc := false, desyncs := 1 } := by decide
theorem test_prioByte : [-60, -1, 0, 10, 60].map prioByte = [0x09, 0x7F, 0x81, 0x95, 0xF9] := by decide
theorem test_spread14 : spread14 0x1234 = (0x49, 0x69) ∧ spread14 0x0080 = (0x03, 0x01) := by decide
theorem test_spread_table :
    spreadOf { tiny with spreading := .table [(0x01, 0x01), (0x01, 0x03)] } 1 = (0x01, 0x03) ∧ spreadOf tiny 0x3FFF = (0xFF, 0xFF) := by
  decide
theorem test_mismatch : getMismatchPos 0xB0 0xA0 = 5 ∧ getMismatchPos 0x80 0x00 = 8 ∧ getMismatchPos 7 7 = 0 := by decide
theorem test_collMap : collMap 21 = (0xEF, 0xFF, 0xFF) ∧ collMap 8 = (0xFF, 0xFF, 0x7F) ∧ collMap 0 = (0xFF, 0xFF, 0xFF) := by
  decide
theorem test_arbLost : arbLost 22 4 0xCF = true ∧ arbLost 21 4 0xCF = false ∧ arbLost 3 6 0xF9 = true := by decide

/-- The answer OK that R260's list and R202's steps would give on the full ring (terminator written, head advanced, count raised)
is one of the answers `no_close_counts_on_full_ring` rules out. -/
theorem test_literal_close_breaks_V2 :
    ¬ V2 tiny { fullRing with txq := fullRing.txq.write 7 0x00, txHead := 0, txPending := 2, txLock := false } :=
  no_close_counts_on_full_ring (by decide) fullRing_ring (by decide) rfl (by decide) rfl

/-! ### Witnesses: the hypotheses of each statement can be met -/

theorem witness_DecodeOfEncodeIsTheInstruction :
    [Instr.lit 0x01, .lit 0xFF, .lit 0xDC, .escEnd, .setChipId 0x3FFF, .rxRead 15 4095].all Instr.wellFormed = true := by decide

/-- For each operation with an operand, two different words that agree on the bits it uses; 0x2 and 0x7 use all 16. -/
theorem witness_UnusedOperandBitsAreIgnored :
    [(0x1C123#20, 0x10123#20), (0x2FFC4, 0x2FFC4), (0x3FFFF, 0x30000), (0x5AB61, 0x50061), (0x7F003, 0x7F003), (0x8FFFF, 0x8F000),
      (0x9FF00, 0x90000)].all (fun (w, w') => decide (w.extractLsb' 16 4 = w'.extractLsb' 16 4 ∧
    ((w.extractLsb' 16 4 = 1#4 → w.extractLsb' 0 14 = w'.extractLsb' 0 14) ∧
      (w.extractLsb' 16 4 = 2#4 → w.extractLsb' 0 16 = w'.extractLsb' 0 16) ∧
      (w.extractLsb' 16 4 = 5#4 → w.extractLsb' 0 8 = w'.extractLsb' 0 8) ∧
      (w.extractLsb' 16 4 = 7#4 → w.extractLsb' 0 16 = w'.extractLsb' 0 16) ∧
      (w.extractLsb' 16 4 = 8#4 → w.extractLsb' 12 4 = w'.extractLsb' 12 4) ∧
      (w.extractLsb' 16 4 = 9#4 → w.extractLsb' 0 8 = w'.extractLsb' 0 8)))) = true := by decide

/-- The bytes next to the special ones, in each clause of the table. -/
theorem witness_WireSymbolsAreClassified :
    (0xDC#8 ≠ 0x00#8 ∧ 0xDC#8 ≠ 0xDB#8) ∧ (0xDB#8 ≠ 0x00#8 ∧ 0xDB#8 ≠ 0xDC#8 ∧ 0xDB#8 ≠ 0xDD#8) := by decide

theorem witness_StepRunsTheDecodedInstruction_command :
    (given node (.command 0xA0000 7)).port.pending = .command 0xA0000 7 :: [] ∧ decodeCommand 0xA0000 = .ok .txReady := by decide
theorem witness_StepRunsTheDecodedInstruction_symbol :
    (given (receiving halfSlot) (.wireByte 0xDB 7)).port.pending = .wireByte 0xDB 7 :: [] ∧
      (given (receiving halfSlot) (.wireByte 0xDB 7)).engine.state = .receiving ∧ decodeWire false 0xDB = .ok .esc := by decide
theorem witness_StepRunsTheDecodedInstruction_end : decodeWire node.rxEsc 0x00 = .ok .endSym := by decide
theorem witness_StepRunsTheDecodedInstruction_plain :
    listening.state ≠ .receiving ∧
      decodeWire { receiving halfSlot with rxEsc := true }.rxEsc 0xDB = .error (.invalidEscape 0xDB) := by decide
theorem witness_StepRunsTheDecodedInstruction_empty : State.reset.port.pending = [] := rfl
theorem witness_PresentedRowIsRunNext :
    decodeTableWord 24 0xFFFF = none ∧ decodeTableWord 24 0x1FFFF = some (.setChipId 0x3FFF) ∧
      decodeTableWord 8 0xFF = some (.lit 0xFF) ∧ decodeTableWord 8 0x00 = some .endSym := by decide
theorem witness_ReservedCommandsAreRejected :
    [0x00000#20, 0xB0000, 0xF0000, 0x72000, 0x82000].all (fun w => decide (
      w.extractLsb' 16 4 = 0#4 ∨ 11 ≤ (w.extractLsb' 16 4).toNat ∨
        ((w.extractLsb' 16 4 = 7#4 ∨ w.extractLsb' 16 4 = 8#4) ∧ tiny.nSlots ≤ (w.extractLsb' 12 4).toNat))) = true := by decide
theorem witness_ResetLeavesTheTableOfValues : (given composing .reset).port.pending = .reset :: [] := rfl
theorem witness_ParametersNeverChange : ∃ t, step (given composing .reset) = .next t := ⟨_, rfl⟩
theorem witness_ResetSatisfiesTheInvariants :
    tiny.Legal ∧ Config.default.Legal ∧
      Params.Legal { tiny with txqCap := 4, rxSlotCap := 2, tResync := 0, tIdle := 1, sendingComplete := true } := by
  decide
theorem witness_EveryStepKeepsTheInvariants :
    (given (receiving sepSlot) (.wireByte 0x00 1)).Sound ∧ ∃ t, step (given (receiving sepSlot) (.wireByte 0x00 1)) = .next t :=
  ⟨state_sound (by decide), next_of_nextHas (f := fun _ => true) (by decide)⟩
theorem witness_EveryStepKeepsTheRing :
    (given composing (.command 0x60000 0)).Sound ∧ V2 tiny composing ∧ TerminatorFits tiny composing ∧
      ∃ t, step (given composing (.command 0x60000 0)) = .next t :=
  ⟨state_sound (by decide), composing_ring, by decide, next_of_nextHas (f := fun _ => true) (by decide)⟩
/-- The full ring, where the TX_CLOSE is refused. -/
theorem witness_EveryStepKeepsTheRing_full :
    (given fullRing (.command 0x60000 0)).Sound ∧ V2 tiny fullRing ∧ TerminatorFits tiny fullRing ∧
      ∃ t, step (given fullRing (.command 0x60000 0)) = .next t :=
  ⟨state_sound (by decide), fullRing_ring, by decide, next_of_nextHas (f := fun _ => true) (by decide)⟩
theorem witness_CloseOnAFullRingIsRefused :
    (small fullRing).Sound ∧ TerminatorFits tiny fullRing ∧ ClosesFullRing (small fullRing) :=
  ⟨state_sound (by decide), by decide, by decide⟩
theorem witness_NothingStopsASoundMachine : (small (contending 6)).Sound := state_sound (by decide)
theorem witness_AtMostOneSendPerOperation : ∃ t, exec .txReady (small (sendingOne 0x00)) = .next t := ⟨_, rfl⟩
/-- Every constructor completes on a sound state. -/
theorem witness_EachContextWritesOnlyItsOwn :
    [Instr.setChipId 1, .setPriority 1, .isIdle, .txStart, .txPush 1, .txClose, .rxRead 0 0, .rxRelease 0, .txReady, .rxByte 0,
      .endSym, .esc, .escEnd, .escEsc, .lit 1].all (fun i => nextHas (exec i (small composing)) (fun _ => true)) = true := by decide
theorem witness_AnAvailableSlotIsNeverTouched :
    (given { node with slots := [takenSlot, Slot.reset] } (.command 0x80000 0)).Sound ∧
      (∃ t, step (given { node with slots := [takenSlot, Slot.reset] } (.command 0x80000 0)) = .next t) ∧
      decodeCommand 0x80000 = .ok (.rxRelease 0) ∧ takenSlot.available = true :=
  ⟨state_sound (by decide), ⟨_, rfl⟩, by decide, rfl⟩
theorem witness_AnAvailableSlotIsNeverTouched_pump :
    (given { listening with slots := [takenSlot, Slot.reset] } (.wireByte 0xFF 0)).Sound ∧
      ∃ t, step (given { listening with slots := [takenSlot, Slot.reset] } (.wireByte 0xFF 0)) = .next t :=
  ⟨state_sound (by decide), ⟨_, rfl⟩⟩
theorem witness_EncodingHasNoStraySymbol : encodeBytes [0x61, 0x00, 0xDB] = [0x61] ++ 0xDB :: [0xDC, 0xDB, 0xDD] := by decide
theorem witness_PriorityByteIsMonotone : (-60 : Int) ≤ 59 ∧ (59 : Int) ≤ 60 ∧ (59 : Int) < 60 ∧ (60 : Int) ≤ 60 := by decide
theorem witness_ChipIdSpreadIsMonotone : tiny.spreading = .formula ∧ (0x007F#14).toNat < (0x0080#14).toNat := by decide
theorem witness_NoPacketByteIsEnd :
    (∀ id : BitVec 14, (spreadOf tiny id).1.getLsbD 0 = true ∧ (spreadOf tiny id).2.getLsbD 0 = true) ∧
      -60 ≤ (0xC4#8).toInt ∧ (0xC4#8).toInt ≤ 60 ∧ { node with mismatchPos := 24 }.mismatchPos ≤ 24 :=
  ⟨(spreads_of_formula rfl).bitZero, by decide, by decide, by decide⟩
theorem witness_IdentityOrdersByPriorityThenChipId :
    Spreads (spreadOf tiny) ∧ -60 ≤ (0xC4#8).toInt ∧ (0x3C#8).toInt ≤ 60 ∧ (0xC4#8).toInt < (0x3C#8).toInt ∧ (0#14).toNat < (0x3FFF#14).toNat :=
  ⟨spreads_of_formula rfl, by decide⟩
theorem witness_FirstMismatchIsTheMostSignificant :
    (contending 0).mismatchPos = 0 ∧ pkt.priority ++ pkt.chipIdHi ++ pkt.chipIdLo ≠ 0x81#8 ++ 0x01#8 ++ 0x23#8 ∧
      pkt.priority ++ pkt.chipIdHi ++ pkt.chipIdLo = 0x95#8 ++ 0x01#8 ++ 0x23#8 := by decide
theorem witness_CollisionMapClearsOneBit : node.mismatchPos ≤ 24 ∧ { node with mismatchPos := 24 }.mismatchPos ≤ 24 := by decide
theorem witness_LossMeansALowerPositionIsCleared :
    arbLost 24 4 0xBF = true ∧ arbLost 24 4 0x7F = false ∧ arbLost 2 6 0xFE = true ∧ arbLost 1 6 0xFE = false := by decide

def idA : Identity := { priority := 0x09, chipIdHi := 0x01, chipIdLo := 0x03 }
def idB : Identity := { priority := 0x0D, chipIdHi := 0x01, chipIdLo := 0x07 }
def idC : Identity := { priority := 0x16, chipIdHi := 0x01, chipIdLo := 0x07 }

theorem witness_TheLowestIdentityIsNeverExcluded :
    idA ∈ [idA, idB] ∧ (∀ b ∈ [idA, idB], idA.number.toNat ≤ b.number.toNat) ∧
      ∀ i, ∀ b ∈ (fun _ : Nat => [idB]) i, b ∈ [idA, idB] := ⟨by decide, by decide, fun _ _ hb => List.mem_cons_of_mem _ hb⟩
/-- M3, two winners; and a pair of which the higher one loses. -/
theorem witness_TwoNodesBothWinExactlyForABitSubset :
    idA.number.toNat < idB.number.toNat ∧ idA.number &&& idB.number = idA.number ∧
      idA.number.toNat < idC.number.toNat ∧ idA.number &&& idC.number ≠ idA.number := by decide
theorem witness_SetChipIdStoresFourteenBits :
    (given node (.command (1#4 ++ 0xC123#16) 0)).port.pending = .command (1#4 ++ 0xC123#16) 0 :: [] := rfl
theorem witness_ElapsedIsRightAcrossAWrap : 254 < 2 ^ tiny.tickBits ∧ 255 < 2 ^ tiny.tickBits := by decide
theorem witness_TxStartTakesTheLockOrIsHeld : composing.txLock = true ∧ node.txLock = false := by decide
/-- The last byte that fits: three cells free for an escape pair, two for a plain byte. -/
theorem witness_TxPushAppendsTheEncodedByte :
    (small { node with txLock := true, txHead := 4 }).Sound ∧ (small { node with txLock := true, txHead := 5 }).Sound ∧
      2 + 1 ≤ txqFree tiny { node with txLock := true, txHead := 4 } ∧
      1 + 1 ≤ txqFree tiny { node with txLock := true, txHead := 5 } :=
  ⟨state_sound (by decide), state_sound (by decide), by decide, by decide⟩
theorem witness_TxPushIsRefusedWhole :
    node.txLock = false ∧ { node with txLock := true, txOvf := true }.txOvf = true ∧
      txqFree tiny { node with txLock := true, txHead := 5 } < 3 ∧ txqFree tiny { node with txLock := true, txHead := 6 } < 2 := by
  decide
theorem witness_TxCloseQueuesTheFrame :
    (small { composing with state := .waitingArbitration }).Sound ∧ composing.txLock = true ∧ composing.txOvf = false ∧
      1 ≤ txqFree tiny composing ∧ isIdle tiny 0 { composing with state := .waitingArbitration } = false :=
  ⟨state_sound (by decide), by decide, by decide, by decide, by decide⟩
/-- Both reasons of R243, the second one tick beyond the window. -/
theorem witness_TxCloseKicksOnAnIdleBus :
    (small composing).Sound ∧ 1 ≤ txqFree tiny composing ∧ isIdle tiny 0 composing = true ∧
      (machine tiny { composing with state := .waitingArbitration } 4 []).Sound ∧
      isIdle tiny 4 { composing with state := .waitingArbitration } = true ∧
      isIdle tiny 3 { composing with state := .waitingArbitration } = false :=
  ⟨state_sound (by decide), by decide, by decide, state_sound (by decide), by decide, by decide⟩
theorem witness_TxCloseRefusedRollsBack :
    node.txLock = false ∧ { composing with txOvf := true }.txLock = true ∧ { composing with txOvf := true }.txOvf = true := by decide
theorem witness_RollbackKeepsTheQueuedFrames :
    (small { composing with txOvf := true }).Sound ∧ V2 tiny { composing with txOvf := true } ∧
      ∃ t, exec .txClose (small { composing with txOvf := true }) = .next t :=
  ⟨state_sound (by decide), ⟨by decide, by decide, by decide, by decide, by decide, by decide⟩, ⟨_, rfl⟩⟩
theorem witness_RollbackKeepsTheQueuedFrames_full :
    (small fullRing).Sound ∧ V2 tiny fullRing ∧ fullRing.txLock = true ∧ txqFree tiny fullRing = 0 ∧
      ∃ t, exec .txClose (small fullRing) = .next t :=
  ⟨state_sound (by decide), fullRing_ring, rfl, by decide, ⟨_, rfl⟩⟩
theorem witness_RxReadAnswersTheSlot :
    (small { node with slots := [takenSlot, Slot.reset] }).Sound ∧ tiny.nSlots ≤ (2#4).toNat ∧ (1#4).toNat < tiny.nSlots :=
  ⟨state_sound (by decide), by decide, by decide⟩
theorem witness_RxReleaseClearsAvailable :
    (small { node with slots := [takenSlot, Slot.reset] }).Sound ∧ tiny.nSlots ≤ (15#4).toNat ∧ (0#4).toNat < tiny.nSlots :=
  ⟨state_sound (by decide), by decide, by decide⟩
theorem witness_AnAvailableSlotIsAFrame :
    Machine.Sound tiny { node with slots := [takenSlot, Slot.reset] } ∧ takenSlot.available = true :=
  ⟨sound_of_check (by decide), rfl⟩
/-- The last tick of the grace window. -/
theorem witness_EndWhileSendingStartsNoRound :
    elapsed tiny 1 (sendingOne 0x61).lastActivity ≤ tiny.tResync ∧ (sendingOne 0x61).state = .sending ∧
      { node with state := .sendingComplete }.state = .sendingComplete := by decide
theorem witness_EndStartsARound :
    elapsed tiny 1 node.lastActivity ≤ tiny.tResync ∧ node.state = .idle ∧ node.txPending = 0 ∧
      0 < (contending 3).txPending ∧ (contending 3).state = .participatingArbitration ∧ listening.state = .waitingArbitration := by
  decide
/-- The first tick beyond it. -/
theorem witness_ALateEndResynchronises :
    tiny.tResync < elapsed tiny 2 (contending 3).lastActivity ∧ tiny.tResync < elapsed tiny 2 node.lastActivity := by decide
/-- Delivery, no separator, dropped, each with and without a frame of its own queued. -/
theorem witness_EndInReceptionEndsTheFrame :
    (machine tiny (receiving sepSlot) 1 []).Sound ∧ (machine tiny (receiving halfSlot) 1 []).Sound ∧
      (machine tiny { receiving halfSlot with rxDrop := true, rxEsc := true, txPending := 1 } 1 []).Sound ∧
      elapsed tiny 1 (receiving sepSlot).lastActivity ≤ tiny.tResync ∧ (receiving sepSlot).slots[0]? = some sepSlot :=
  ⟨state_sound (by decide), state_sound (by decide), state_sound (by decide), by decide, rfl⟩
theorem witness_DataBytesAreIgnoredOutsideRounds :
    (0xDB#8 ≠ 0x00#8) ∧ node.state = .idle ∧ (sendingOne 0x61).state = .sending ∧
      { node with state := .sendingComplete }.state = .sendingComplete := by decide
theorem witness_AListenerCountsSevenBytes :
    (small { listening with arbIndex := 5 }).Sound ∧ (small listening).Sound ∧ listening.slots[0]? = some Slot.reset ∧
      (small { listening with slots := [takenSlot, Slot.reset] }).Sound :=
  ⟨state_sound (by decide), state_sound (by decide), rfl, state_sound (by decide)⟩
theorem witness_AnIdentityEchoSendsTheNextByte :
    (contending 2).state = .participatingArbitration ∧ (contending 2).arbIndex ≤ 2 ∧ (contending 0).arbIndex ≤ 2 := by decide
theorem witness_TheLatencyEchoIsNotCompared : (contending 3).state = .participatingArbitration ∧ (contending 3).arbIndex = 3 := by
  decide
theorem witness_AMapByteIsSurvivedOrWon :
    arbLost { contending 4 with mismatchPos := 21 }.mismatchPos (contending 4).arbIndex 0xCF = false ∧
      arbLost { contending 6 with mismatchPos := 2 }.mismatchPos (contending 6).arbIndex 0xF9 = false := by decide
theorem witness_AnExcludedNodeListens :
    (small { contending 4 with mismatchPos := 22 }).Sound ∧ arbLost 22 4 0xCF = true ∧
      (small { contending 6 with mismatchPos := 3 }).Sound ∧ arbLost 3 6 0xF9 = true ∧ (contending 6).slots[0]? = some Slot.reset ∧
      (small { contending 6 with mismatchPos := 3, slots := [takenSlot, Slot.reset] }).Sound :=
  ⟨state_sound (by decide), by decide, state_sound (by decide), by decide, rfl, state_sound (by decide)⟩
/-- The last free cell of a slot. -/
theorem witness_BodySymbolsDecodeIntoTheSlot :
    (small (receiving { fullSlot with len := 3 })).Sound ∧ ({ fullSlot with len := 3 }).len < tiny.rxSlotCap ∧
      decodesTo false (.rxByte 0xDC) 0xDC ∧ decodesTo false (.lit 0x01) 0x01 ∧
      (small { receiving halfSlot with rxEsc := true }).Sound ∧
      decodesTo true (.rxByte 0xDC) 0x00 ∧ decodesTo true .escEsc 0xDB :=
  ⟨state_sound (by decide), by decide, by decide, by decide, state_sound (by decide), by decide, by decide⟩
theorem witness_AnInvalidEscapeIsDropped :
    { receiving halfSlot with rxEsc := true }.state = .receiving ∧ (0xDB#8 ≠ 0x00#8 ∧ 0xDB#8 ≠ 0xDC#8 ∧ 0xDB#8 ≠ 0xDD#8) := by decide
theorem witness_AnOverlongFrameIsDropped :
    (small (receiving fullSlot)).Sound ∧ fullSlot.len = tiny.rxSlotCap ∧ (receiving fullSlot).slots[0]? = some fullSlot ∧
      decodesTo false (.lit 0xDC) 0xDC ∧ (small { receiving fullSlot with rxDrop := true, rxEsc := true }).Sound ∧
      decodesTo true (.rxByte 0xDD) 0xDB ∧ (small { receiving fullSlot with rxDrop := true }).Sound :=
  ⟨state_sound (by decide), by decide, rfl, by decide, state_sound (by decide), by decide, state_sound (by decide)⟩
theorem witness_TxReadyDrainsOneByte :
    (small (sendingOne 0x61)).Sound ∧ ringContent tiny (sendingOne 0x61) = 0x61 :: [] ∧
      (small (sendingOne 0x00)).Sound ∧ ringContent tiny (sendingOne 0x00) = 0x00 :: [] :=
  ⟨state_sound (by decide), by decide, state_sound (by decide), by decide⟩
/-- The exhausted ring, with the count at zero and above. -/
theorem witness_TxReadyDrainsOneByte_exhausted :
    { sendingOne 0 with txHead := 0, txPending := 0 }.state = .sending ∧
      { sendingOne 0 with txHead := 0, txPending := 0 }.txHead = { sendingOne 0 with txHead := 0, txPending := 0 }.txTail ∧
      (small { sendingOne 0 with txHead := 0 }).Sound := ⟨rfl, rfl, state_sound (by decide)⟩
theorem witness_TxReadyElsewhereDoesNothing : node.state ≠ .sending := by decide
/-- A frame that fills the slot to its last cell; the END on the last tick of the grace window, across a wrap of the tick. -/
theorem witness_AReceivedFrameIsDelivered :
    (small (receiving Slot.reset)).Sound ∧ (receiving Slot.reset).slots[0]? = some Slot.reset ∧ 0x00#8 ∉ [0x74#8] ∧
      [0x74#8].length + 1 + [0x01#8, 0xDB#8].length ≤ tiny.rxSlotCap ∧
      [0, 1, 9, 9, 9, 255].length = (encodeBytes ([0x74] ++ 0x00 :: [0x01, 0xDB])).length ∧
      [0, 1, 9, 9, 9, 255].getLast? = some 255 ∧ elapsed tiny 0 255 ≤ tiny.tResync :=
  ⟨state_sound (by decide), rfl, by decide, by decide, by decide, by decide, by decide⟩

end Sys2Proof.Tests
end

/-! ### Every operation ends in `finish`; no step changes a parameter -/

namespace Sys2Proof.Machine

/-- If the outcome `r` is a next state, that state is `s` with an engine, added events and an answer: the parameters, the
waiting inputs and the tick input are those of `s`, and the trace only grows (R38, R96). -/
def EndsInFinish (s : State) (r : Host.Outcome State Fault Refusal) : Prop :=
  ∀ t, r = .next t → ∃ e evs a, t = s.finish e evs a

section
variable {s : State}

theorem EndsInFinish.of_finish (e : Engine) (evs : List Event) (a : Answer) : EndsInFinish s (.next (s.finish e evs a)) := by
  intro t h
  cases h
  exact ⟨e, evs, a, rfl⟩

theorem EndsInFinish.of_fault (f : Fault) : EndsInFinish s (.fault f) := by
  intro t h
  cases h

theorem EndsInFinish.of_turnAway (st : Status) : EndsInFinish s (s.turnAway st) :=
  .of_finish s.engine [] (Answer.plain st)

theorem EndsInFinish.of_complete (r : Except Fault Eff) (a : Answer) : EndsInFinish s (s.complete r a) := by
  intro t h
  obtain ⟨x, -, rfl⟩ := complete_eq_next.1 h
  exact ⟨x.engine, x.events, a, rfl⟩

end

/-! #### The operations with branches of their own -/

theorem execTxStart_endsInFinish (s : State) : EndsInFinish s (execTxStart s) := by
  unfold execTxStart
  split
  · exact .of_turnAway _
  · exact .of_finish _ _ _

theorem execTxPush_endsInFinish (b : Byte) (s : State) : EndsInFinish s (execTxPush b s) := by
  intro t h
  obtain ⟨-, rfl⟩ | ⟨-, -, rfl⟩ | ⟨-, -, -, e, -, rfl⟩ := execTxPush_eq_next h
  · exact ⟨_, _, _, rfl⟩
  · exact ⟨_, _, _, rfl⟩
  · exact ⟨_, _, _, rfl⟩

theorem execTxClose_endsInFinish (s : State) : EndsInFinish s (execTxClose s) := by
  intro t h
  obtain ⟨-, rfl⟩ | ⟨-, -, rfl⟩ | ⟨-, -, -, x, -, rfl⟩ := execTxClose_eq_next h
  · exact ⟨_, _, _, rfl⟩
  · exact ⟨_, _, _, rfl⟩
  · exact ⟨_, _, _, rfl⟩

theorem execRxRead_endsInFinish (slot : BitVec 4) (offset : BitVec 12) (s : State) :
    EndsInFinish s (execRxRead slot offset s) := by
  unfold execRxRead
  split
  · exact .of_turnAway _
  · split
    · exact .of_fault _
    · split
      · exact .of_fault _
      · exact .of_finish _ _ _

theorem execRxRelease_endsInFinish (slot : BitVec 4) (s : State) : EndsInFinish s (execRxRelease slot s) := by
  unfold execRxRelease
  split
  · exact .of_turnAway _
  · split
    · exact .of_fault _
    · exact .of_finish _ _ _

theorem execTxReady_endsInFinish (s : State) : EndsInFinish s (execTxReady s) := by
  unfold execTxReady
  split
  · exact .of_complete _ _
  · exact .of_turnAway _

/-- The byte pump's end, shared by RX_BYTE and the five wire symbols. -/
theorem receive_endsInFinish (c : Byte) (s : State) : EndsInFinish s (receive c s) := .of_complete _ _

/-! #### Instructions, inputs, steps -/

/-- No operation touches more of the machine than the engine, the trace and the answer. -/
theorem exec_endsInFinish (i : Instr) (s : State) : EndsInFinish s (exec i s) := by
  cases i with
  | setChipId id => exact .of_finish _ _ _
  | setPriority v => exact .of_finish _ _ _
  | isIdle => exact .of_finish _ _ _
  | txStart => exact execTxStart_endsInFinish s
  | txPush b => exact execTxPush_endsInFinish b s
  | txClose => exact execTxClose_endsInFinish s
  | rxRead slot offset => exact execRxRead_endsInFinish slot offset s
  | rxRelease slot => exact execRxRelease_endsInFinish slot s
  | rxByte c => exact receive_endsInFinish c s
  | txReady => exact execTxReady_endsInFinish s
  | endSym => exact receive_endsInFinish endByte s
  | esc => exact receive_endsInFinish escByte s
  | escEnd => exact receive_endsInFinish escEndByte s
  | escEsc => exact receive_endsInFinish escEscByte s
  | lit b => exact receive_endsInFinish b s

theorem serveCommand_endsInFinish (w : CmdWord) (s : State) : EndsInFinish s (serveCommand w s) := by
  unfold serveCommand
  split
  · exact exec_endsInFinish _ s
  · exact .of_turnAway _

theorem serveWire_endsInFinish (b : Byte) (s : State) : EndsInFinish s (serveWire b s) := exec_endsInFinish _ s

/-- Everything an accepted input can lead to: the end of an operation, or the reset of the engine. -/
theorem serve_eq_next {x : Input} {s t : State} (h : serve x s = .next t) :
    (∃ e evs a, t = s.finish e evs a) ∨ (x = .reset ∧ t = s.resetEngine) := by
  cases x with
  | command w now => exact .inl (serveCommand_endsInFinish w s t h)
  | wireByte b now => exact .inl (serveWire_endsInFinish b s t h)
  | reset => cases h; exact .inr ⟨rfl, rfl⟩

theorem serve_params {x : Input} {s t : State} (h : serve x s = .next t) : t.params = s.params := by
  obtain ⟨e, evs, a, rfl⟩ | ⟨-, rfl⟩ := serve_eq_next h
  · exact finish_params s e evs a
  · exact resetEngine_params s

/-- Everything a step can do: nothing with no input waiting, else it serves the first one. -/
theorem step_eq_next {s t : State} (h : step s = .next t) :
    (s.port.pending = [] ∧ t = s) ∨ ∃ x rest, s.port.pending = x :: rest ∧ serve x (s.accept x rest) = .next t := by
  unfold step at h
  split at h
  · next hp => cases h; exact .inl ⟨hp, rfl⟩
  · next x rest hp => exact .inr ⟨x, rest, hp, h⟩

/-- Settles O9: the inputs are split by what serving them does, and each end of a step keeps the parameters. -/
theorem parametersNeverChange : Obligations.ParametersNeverChange := by
  intro s t h
  obtain ⟨-, rfl⟩ | ⟨x, rest, -, hx⟩ := step_eq_next h
  · rfl
  · calc t.params = (s.accept x rest).params := serve_params hx
      _ = s.params := accept_params s x rest

end Sys2Proof.Machine

/-! ### What each operation leaves alone (R41) -/

namespace Sys2Proof.Machine

/-! #### The frame of the byte pump's receive path -/

/-- What the receive path leaves alone in R41, from the engine `e` to the engine `e'`: configuration, producer registers and
ring are the same, the pool keeps its slots, and an available slot stays available. -/
structure PumpFrame (e e' : Engine) : Prop where
  config : sameConfig e' e
  producer : sameProducerRegisters e' e
  ring : sameRing e' e
  slotCount : e'.slots.length = e.slots.length
  kept : ∀ (k : Nat) (sl : Slot), e.slots[k]? = some sl → sl.available = true →
    ∃ sl' : Slot, e'.slots[k]? = some sl' ∧ sl'.available = true

theorem PumpFrame.of_sameSlots {e e' : Engine} (config : sameConfig e' e) (producer : sameProducerRegisters e' e)
    (ring : sameRing e' e) (slots : e'.slots = e.slots) : PumpFrame e e' where
  config := config
  producer := producer
  ring := ring
  slotCount := by rw [slots]
  kept k sl hk ha := ⟨sl, by rw [slots, hk], ha⟩

/-- The registers that are the pump's alone: nothing else changes from `e` to `e'`. -/
abbrev OnlyPumpRegisters (e e' : Engine) : Prop :=
  e' = { e with state := e'.state, arbIndex := e'.arbIndex, arbPkt := e'.arbPkt, mismatchPos := e'.mismatchPos,
                lastActivity := e'.lastActivity, txIrqEn := e'.txIrqEn, rxActive := e'.rxActive, rxEsc := e'.rxEsc,
                rxDrop := e'.rxDrop }

theorem PumpFrame.of_onlyPumpRegisters {e e' : Engine} (h : OnlyPumpRegisters e e') : PumpFrame e e' := by
  rw [h]
  exact .of_sameSlots ⟨rfl, rfl⟩ ⟨rfl, rfl, rfl⟩ ⟨rfl, rfl, rfl, rfl⟩ rfl

theorem PumpFrame.refl (e : Engine) : PumpFrame e e := .of_onlyPumpRegisters rfl

theorem PumpFrame.trans {e e₁ e₂ : Engine} (h : PumpFrame e e₁) (h' : PumpFrame e₁ e₂) : PumpFrame e e₂ where
  config := ⟨h'.config.1.trans h.config.1, h'.config.2.trans h.config.2⟩
  producer := by
    obtain ⟨lock, start, ovf⟩ := h.producer
    obtain ⟨lock', start', ovf'⟩ := h'.producer
    exact ⟨lock'.trans lock, start'.trans start, ovf'.trans ovf⟩
  ring := by
    obtain ⟨cells, head, tail, pending⟩ := h.ring
    obtain ⟨cells', head', tail', pending'⟩ := h'.ring
    exact ⟨cells'.trans cells, head'.trans head, tail'.trans tail, pending'.trans pending⟩
  slotCount := h'.slotCount.trans h.slotCount
  kept k sl hk ha := by
    obtain ⟨sl₁, hk₁, ha₁⟩ := h.kept k sl hk ha
    exact h'.kept k sl₁ hk₁ ha₁

/-- A slot may be rewritten as long as it is not taken from the consumer. -/
theorem PumpFrame.of_setSlot {e : Engine} {i : Nat} {sl sl' : Slot} (hi : e.slots[i]? = some sl)
    (ha : sl.available = true → sl'.available = true) : PumpFrame e (setSlot e i sl') where
  config := ⟨rfl, rfl⟩
  producer := ⟨rfl, rfl, rfl⟩
  ring := ⟨rfl, rfl, rfl, rfl⟩
  slotCount := List.length_set
  kept k sl₁ hk ha₁ := by
    by_cases hik : i = k
    · subst hik
      have hlt : i < e.slots.length := (List.getElem?_eq_some_iff.1 hi).1
      obtain rfl : sl = sl₁ := Option.some.inj (hi.symm.trans hk)
      exact ⟨sl', by simp [hlt], ha ha₁⟩
    · exact ⟨sl₁, by simp [List.getElem?_set_ne hik, hk], ha₁⟩

@[simp] theorem Slot.restart_available (sl : Slot) : sl.restart.available = sl.available := rfl

@[simp] theorem Slot.store_available (sl : Slot) (d : Byte) : (sl.store d).available = sl.available := by
  unfold Slot.store; split <;> rfl

/-! #### The frame of each procedure of the receive path -/

theorem rxBegin_frame {e : Engine} {x : Eff} (h : rxBegin e = .ok x) : PumpFrame e x.engine := by
  obtain ⟨sl, hsl, ⟨-, rfl⟩ | ⟨-, rfl⟩⟩ := rxBegin_eq_ok h
  · exact .of_onlyPumpRegisters rfl
  · exact PumpFrame.trans (e₁ := { e with rxEsc := false, rxDrop := false }) (.of_onlyPumpRegisters rfl)
      (.of_setSlot hsl id)

theorem rxEmit_frame {p : Params} {d : Byte} {e : Engine} {x : Eff} (h : rxEmit p d e = .ok x) : PumpFrame e x.engine := by
  obtain ⟨-, rfl⟩ | ⟨sl, -, hsl, ⟨-, rfl⟩ | ⟨-, rfl⟩⟩ := rxEmit_eq_ok h
  · exact .refl e
  · exact .of_onlyPumpRegisters rfl
  · exact .of_setSlot hsl (by simp)

/-- Everything the decode step can do on the engine: the flag is written, then a byte is emitted or none. -/
theorem decStep_eq_ok {p : Params} {c : Byte} {e : Engine} {x : Eff} (h : decStep p c e = .ok x) :
    ∃ esc, (x.engine = { e with rxEsc := esc }) ∨ ∃ d, rxEmit p d { e with rxEsc := esc } = .ok x := by
  unfold decStep at h
  refine ⟨(decStepOf e.rxEsc c).rxEsc, ?_⟩
  simp only at h
  split at h
  · next d _ => exact .inr ⟨d, h⟩
  · split at h <;> cases h <;> exact .inl rfl

theorem decStep_frame {p : Params} {c : Byte} {e : Engine} {x : Eff} (h : decStep p c e = .ok x) :
    PumpFrame e x.engine := by
  obtain ⟨esc, hx | ⟨d, hx⟩⟩ := decStep_eq_ok h
  · rw [hx]; exact .of_onlyPumpRegisters rfl
  · exact PumpFrame.trans (.of_onlyPumpRegisters rfl) (rxEmit_frame hx)

theorem deliver_frame {p : Params} {e : Engine} {x : Eff} (h : deliver p e = .ok x) : PumpFrame e x.engine := by
  obtain ⟨-, rfl⟩ | ⟨sl, -, hsl, ⟨-, rfl⟩ | ⟨-, rfl⟩⟩ := deliver_eq_ok h
  · exact .refl e
  · exact PumpFrame.trans (.of_setSlot (sl' := { sl with available := true }) hsl (fun _ => rfl))
      (.of_onlyPumpRegisters rfl)
  · exact .refl e

theorem endEscape_engine (e : Engine) : (endEscape e).engine = { e with rxEsc := false } := by
  unfold endEscape
  split
  · rfl
  · next hesc => rw [Bool.not_eq_true] at hesc; rw [← hesc]; rfl

/-- Everything `rx_finish` can do on the engine: the flag is cleared, then the frame is delivered or not. -/
theorem rxFinish_eq_ok {p : Params} {e : Engine} {x : Eff} (h : rxFinish p e = .ok x) :
    ∃ y, deliver p { e with rxEsc := false } = .ok y ∧ x.engine = y.engine := by
  obtain ⟨a, y, ha, hy, rfl⟩ := andThen_eq_ok.1 h
  cases ha
  rw [endEscape_engine] at hy
  exact ⟨y, hy, rfl⟩

theorem rxFinish_frame {p : Params} {e : Engine} {x : Eff} (h : rxFinish p e = .ok x) : PumpFrame e x.engine := by
  obtain ⟨y, hy, hx⟩ := rxFinish_eq_ok h
  rw [hx]
  exact PumpFrame.trans (.of_onlyPumpRegisters rfl) (deliver_frame hy)

theorem rearb_frame (p : Params) (e : Engine) : PumpFrame e (rearb p e).engine := by
  unfold rearb
  simp only
  split <;> exact .of_onlyPumpRegisters rfl

theorem waitStep_frame {e : Engine} {x : Eff} (h : waitStep e = .ok x) : PumpFrame e x.engine := by
  obtain ⟨-, rfl⟩ | ⟨a, -, ha, rfl⟩ := waitStep_eq_ok h
  · exact .of_onlyPumpRegisters rfl
  · have hbegin : PumpFrame e a.engine := PumpFrame.trans (.of_onlyPumpRegisters rfl) (rxBegin_frame ha)
    exact hbegin.trans (.of_onlyPumpRegisters rfl)

theorem partLose_frame {e : Engine} {x : Eff} (h : partLose e = .ok x) : PumpFrame e x.engine := by
  obtain ⟨-, rfl⟩ | ⟨a, -, ha, rfl⟩ := partLose_eq_ok h
  · exact .of_onlyPumpRegisters rfl
  · exact (rxBegin_frame ha).trans (.of_onlyPumpRegisters rfl)

/-- Everything the echo of a collision-map byte can do (R174): the round is lost, goes on, or is won. -/
theorem partMap_eq_ok {e : Engine} {c : Byte} {x : Eff} (h : partMap e c = .ok x) :
    partLose { e with arbIndex := e.arbIndex + 1 } = .ok x ∨
      (e.arbIndex < 6 ∧
        x = Eff.sending { e with arbIndex := e.arbIndex + 1 } (e.arbPkt.byte (e.arbIndex + 1))) ∨
      (6 ≤ e.arbIndex ∧ x = Eff.quiet (partWin { e with arbIndex := e.arbIndex + 1 })) := by
  unfold partMap at h
  simp only at h
  split at h
  · exact .inl h
  · split at h
    · next hi => cases h; exact .inr (.inl ⟨hi, rfl⟩)
    · next hi => cases h; exact .inr (.inr ⟨by omega, rfl⟩)

/-- Everything `part_step` can do (R172 to R174), by the byte whose echo is received. -/
theorem partStep_eq_ok {e : Engine} {c : Byte} {x : Eff} (h : partStep e c = .ok x) :
    (e.arbIndex ≤ 2 ∧ x = partIdentity e c) ∨ (e.arbIndex = 3 ∧ x = partLatency e) ∨
      (e.arbIndex ≤ 6 ∧ partMap e c = .ok x) := by
  unfold partStep at h
  split at h
  · next hi => cases h; exact .inl ⟨hi, rfl⟩
  · split at h
    · next hi => cases h; exact .inr (.inl ⟨hi, rfl⟩)
    · split at h
      · next hi => exact .inr (.inr ⟨hi, h⟩)
      · cases h

/-- The echo of an identity byte writes the position, the packet and the count, nothing else. -/
theorem partIdentity_engine (e : Engine) (c : Byte) :
    (partIdentity e c).engine =
      { e with mismatchPos := (arbCompare e e.arbIndex c).mismatchPos
               arbPkt := if e.arbIndex = 2 then (arbBuildMap (arbCompare e 2 c)).arbPkt else e.arbPkt
               arbIndex := e.arbIndex + 1 } := by
  unfold partIdentity
  by_cases hi : e.arbIndex = 2
  · simp only [hi, if_true, Eff.sending]
    rw [arbCompare_eq]
    rfl
  · simp only [hi, if_false, Eff.sending]
    rw [arbCompare_eq]

theorem partStep_frame {e : Engine} {c : Byte} {x : Eff} (h : partStep e c = .ok x) : PumpFrame e x.engine := by
  obtain ⟨-, rfl⟩ | ⟨-, rfl⟩ | ⟨-, hmap⟩ := partStep_eq_ok h
  · rw [partIdentity_engine]; exact .of_onlyPumpRegisters rfl
  · exact .of_onlyPumpRegisters rfl
  · obtain hlose | ⟨-, rfl⟩ | ⟨-, rfl⟩ := partMap_eq_ok hmap
    · exact PumpFrame.trans (.of_onlyPumpRegisters rfl) (partLose_frame hlose)
    · exact .of_onlyPumpRegisters rfl
    · exact .of_onlyPumpRegisters rfl

/-- A raw END in a frame body: the frame is finished, then the next round begins (R165). -/
theorem finish_then_rearb_eq_ok {p : Params} {e : Engine} {x : Eff}
    (h : Eff.andThen (rxFinish p e) (fun e1 => .ok (rearb p e1)) = .ok x) :
    ∃ a, rxFinish p e = .ok a ∧ x.engine = (rearb p a.engine).engine := by
  obtain ⟨a, b, ha, hb, rfl⟩ := andThen_eq_ok.1 h
  cases hb
  exact ⟨a, ha, rfl⟩

theorem endStep_frame {p : Params} {e : Engine} {x : Eff} (h : endStep p e = .ok x) : PumpFrame e x.engine := by
  unfold endStep at h
  split at h
  case h_1 => cases h; exact .refl e
  case h_2 => cases h; exact .of_onlyPumpRegisters rfl
  case h_3 =>
    obtain ⟨a, ha, hx⟩ := finish_then_rearb_eq_ok h
    rw [hx]
    exact (rxFinish_frame ha).trans (rearb_frame p a.engine)
  all_goals cases h; exact rearb_frame p e

theorem dataStep_frame {p : Params} {c : Byte} {e : Engine} {x : Eff} (h : dataStep p c e = .ok x) :
    PumpFrame e x.engine := by
  unfold dataStep at h
  split at h
  case h_4 => exact waitStep_frame h
  case h_5 => exact partStep_frame h
  case h_6 => exact decStep_frame h
  all_goals cases h; exact .refl e

/-- Everything RX_BYTE can do on the engine (R161): the END step, after a resync or without one, or the data step. -/
theorem rxByteStep_eq_ok {p : Params} {now : Nat} {c : Byte} {e : Engine} {x : Eff} (h : rxByteStep p now c e = .ok x) :
    endStep p (forceIdle { e with lastActivity := now }) = .ok x ∨ endStep p { e with lastActivity := now } = .ok x ∨
      dataStep p c { e with lastActivity := now } = .ok x := by
  unfold rxByteStep at h
  simp only at h
  split at h
  · split at h
    · exact .inl h
    · exact .inr (.inl h)
  · exact .inr (.inr h)

theorem rxByteStep_frame {p : Params} {now : Nat} {c : Byte} {e : Engine} {x : Eff} (h : rxByteStep p now c e = .ok x) :
    PumpFrame e x.engine := by
  obtain hend | hend | hdata := rxByteStep_eq_ok h
  · exact PumpFrame.trans (.of_onlyPumpRegisters rfl) (endStep_frame hend)
  · exact PumpFrame.trans (.of_onlyPumpRegisters rfl) (endStep_frame hend)
  · exact PumpFrame.trans (.of_onlyPumpRegisters rfl) (dataStep_frame hdata)

/-- The shared end of RX_BYTE and the wire symbols. -/
theorem receive_eq_next {c : Byte} {s t : State} (h : receive c s = .next t) :
    ∃ x, rxByteStep s.params s.tick c s.engine = .ok x ∧ t = s.finish x.engine x.events (Answer.plain .ok) :=
  complete_eq_next.1 h

theorem receive_frame {c : Byte} {s t : State} (h : receive c s = .next t) : PumpFrame s.engine t.engine := by
  obtain ⟨x, hx, rfl⟩ := receive_eq_next h
  exact rxByteStep_frame hx

/-! #### The other operations -/

/-- Everything TX_START can do: it is held off, or takes the lock and marks the frame's first cell. -/
theorem execTxStart_engine {s t : State} (h : execTxStart s = .next t) :
    t.engine = s.engine ∨
      (s.engine.txLock = false ∧
        t.engine = { s.engine with txLock := true, txFrameStart := s.engine.txHead, txOvf := false }) := by
  unfold execTxStart State.turnAway at h
  split at h
  · cases h; exact .inl rfl
  · next hlock => cases h; exact .inr ⟨Bool.eq_false_iff.2 hlock, rfl⟩

/-- RX_READ changes nothing in the engine. -/
theorem execRxRead_engine {slot : BitVec 4} {offset : BitVec 12} {s t : State} (h : execRxRead slot offset s = .next t) :
    t.engine = s.engine := by
  unfold execRxRead State.turnAway at h
  split at h
  · cases h; rfl
  · split at h
    · cases h
    · split at h <;> cases h
      rfl

/-- Everything RX_RELEASE can do: turned away, or the slot it names is given back. -/
theorem execRxRelease_engine {slot : BitVec 4} {s t : State} (h : execRxRelease slot s = .next t) :
    t.engine = s.engine ∨
      ∃ sl, s.engine.slots[slot.toNat]? = some sl ∧
        t.engine = setSlot s.engine slot.toNat { sl with available := false } := by
  unfold execRxRelease State.turnAway at h
  split at h
  · cases h; exact .inl rfl
  · split at h
    · cases h
    · next sl hsl => cases h; exact .inr ⟨sl, getSlot_eq_ok.1 hsl, rfl⟩

/-- Everything TX_READY can do: the drain of one byte in `Sending`, nothing elsewhere. -/
theorem execTxReady_engine {s t : State} (h : execTxReady s = .next t) :
    t.engine = s.engine ∨
      (s.engine.state = .sending ∧ ∃ x, drainStep s.params s.engine = .ok x ∧ t.engine = x.engine) := by
  unfold execTxReady State.turnAway at h
  split at h
  · next hst =>
    obtain ⟨x, hx, rfl⟩ := complete_eq_next.1 h
    exact .inr ⟨hst, x, hx, rfl⟩
  · cases h; exact .inl rfl

/-- A push writes the ring's cells and `tx_head` only. -/
theorem appendCells_engine {p : Params} {vs : List Byte} {e e' : Engine} (h : appendCells p e vs = .ok e') :
    e' = { e with txq := e'.txq, txHead := e'.txHead } := by
  induction vs generalizing e with
  | nil => cases h; rfl
  | cons v vs ih =>
    unfold appendCells at h
    split at h
    · next e1 he1 =>
      obtain ⟨-, rfl⟩ := appendCell_eq_ok.1 he1
      rw [ih h]
    · cases h

/-- TX_PUSH writes ring cells, `tx_head` and the overflow mark only. -/
theorem execTxPush_frame {b : Byte} {s t : State} (h : execTxPush b s = .next t) :
    sameConfig t.engine s.engine ∧ sameReceiveSide t.engine s.engine ∧ sameSequencing t.engine s.engine ∧
      t.engine.txTail = s.engine.txTail ∧ t.engine.txPending = s.engine.txPending ∧
      t.engine.txLock = s.engine.txLock ∧ t.engine.txFrameStart = s.engine.txFrameStart := by
  obtain ⟨-, rfl⟩ | ⟨-, -, rfl⟩ | ⟨-, -, -, e, he, rfl⟩ := execTxPush_eq_next h
  · exact ⟨⟨rfl, rfl⟩, ⟨rfl, rfl, rfl, rfl⟩, ⟨rfl, rfl, rfl, rfl, rfl, rfl⟩, rfl, rfl, rfl, rfl⟩
  · exact ⟨⟨rfl, rfl⟩, ⟨rfl, rfl, rfl, rfl⟩, ⟨rfl, rfl, rfl, rfl, rfl, rfl⟩, rfl, rfl, rfl, rfl⟩
  · rw [finish_engine, appendCells_engine he]
    exact ⟨⟨rfl, rfl⟩, ⟨rfl, rfl, rfl, rfl⟩, ⟨rfl, rfl, rfl, rfl, rfl, rfl⟩, rfl, rfl, rfl, rfl⟩

/-- Everything an accepted TX_CLOSE can do on the engine: the terminator is appended, the frame counted and the lock released,
with the kick or without it. -/
theorem closeSteps_engine {p : Params} {now : Nat} {e : Engine} {x : Eff} (h : closeSteps p now e = .ok x) :
    ∃ e₁, appendCell p e endByte = .ok e₁ ∧
      (x.engine = { (kick p now { e₁ with txPending := e₁.txPending + 1 }).engine with txLock := false } ∨
        x.engine = { e₁ with txPending := e₁.txPending + 1, txLock := false }) := by
  obtain ⟨e₁, he₁, ⟨-, rfl⟩ | ⟨-, rfl⟩⟩ := closeSteps_eq_ok h
  · exact ⟨e₁, he₁, .inl rfl⟩
  · exact ⟨e₁, he₁, .inr rfl⟩

/-- TX_CLOSE leaves configuration, receive side, `tx_tail` and the frame mark alone; its kick starts a round. -/
theorem execTxClose_frame {s t : State} (h : execTxClose s = .next t) :
    sameConfig t.engine s.engine ∧ sameReceiveSide t.engine s.engine ∧ t.engine.txTail = s.engine.txTail ∧
      t.engine.txFrameStart = s.engine.txFrameStart := by
  obtain ⟨-, rfl⟩ | ⟨-, -, rfl⟩ | ⟨-, -, -, x, hx, rfl⟩ := execTxClose_eq_next h
  · exact ⟨⟨rfl, rfl⟩, ⟨rfl, rfl, rfl, rfl⟩, rfl, rfl⟩
  · exact ⟨⟨rfl, rfl⟩, ⟨rfl, rfl, rfl, rfl⟩, rfl, rfl⟩
  · obtain ⟨e₁, he₁, hend⟩ := closeSteps_engine hx
    obtain ⟨-, rfl⟩ := appendCell_eq_ok.1 he₁
    obtain hend | hend := hend
    · rw [finish_engine, hend]
      exact ⟨⟨rfl, rfl⟩, ⟨rfl, rfl, rfl, rfl⟩, rfl, rfl⟩
    · rw [finish_engine, hend]
      exact ⟨⟨rfl, rfl⟩, ⟨rfl, rfl, rfl, rfl⟩, rfl, rfl⟩

/-- The drain of a byte writes `tx_tail`, `tx_pending`, `state` and the transmit-ready request only. -/
theorem drainStep_frame {p : Params} {e : Engine} {x : Eff} (h : drainStep p e = .ok x) :
    sameConfig x.engine e ∧ sameProducerRegisters x.engine e ∧ sameReceiveSide x.engine e ∧ x.engine.txq = e.txq ∧
      x.engine.txHead = e.txHead ∧ x.engine.arbIndex = e.arbIndex ∧ x.engine.mismatchPos = e.mismatchPos ∧
      x.engine.arbPkt = e.arbPkt ∧ x.engine.lastActivity = e.lastActivity := by
  obtain ⟨-, rfl⟩ | ⟨-, -, rfl⟩ := drainStep_eq_ok h
  · exact ⟨⟨rfl, rfl⟩, ⟨rfl, rfl, rfl⟩, ⟨rfl, rfl, rfl, rfl⟩, rfl, rfl, rfl, rfl, rfl, rfl⟩
  · simp only [Eff.sending]
    split <;> exact ⟨⟨rfl, rfl⟩, ⟨rfl, rfl, rfl⟩, ⟨rfl, rfl, rfl, rfl⟩, rfl, rfl, rfl, rfl, rfl, rfl⟩

theorem map_set_eq_map {α β : Type} {f : α → β} {l : List α} {k : Nat} {a a' : α} (hk : l[k]? = some a)
    (hf : f a' = f a) : (l.set k a').map f = l.map f := by
  obtain ⟨hlt, rfl⟩ := List.getElem?_eq_some_iff.1 hk
  rw [List.map_set, hf, ← List.getElem_map f (h := by simpa using hlt), List.set_getElem_self]

/-- TX_START writes the producer registers only. -/
theorem execTxStart_frame {s t : State} (h : execTxStart s = .next t) :
    sameConfig t.engine s.engine ∧ sameRing t.engine s.engine ∧ sameReceiveSide t.engine s.engine ∧
      sameSequencing t.engine s.engine := by
  obtain ht | ⟨-, ht⟩ := execTxStart_engine h
  · rw [ht]; exact ⟨⟨rfl, rfl⟩, ⟨rfl, rfl, rfl, rfl⟩, ⟨rfl, rfl, rfl, rfl⟩, rfl, rfl, rfl, rfl, rfl, rfl⟩
  · rw [ht]; exact ⟨⟨rfl, rfl⟩, ⟨rfl, rfl, rfl, rfl⟩, ⟨rfl, rfl, rfl, rfl⟩, rfl, rfl, rfl, rfl, rfl, rfl⟩

/-- RX_RELEASE writes `available` bits only. -/
theorem execRxRelease_frame {slot : BitVec 4} {s t : State} (h : execRxRelease slot s = .next t) :
    sameConfig t.engine s.engine ∧ sameRing t.engine s.engine ∧ sameProducerRegisters t.engine s.engine ∧
      sameSequencing t.engine s.engine ∧ t.engine.rxActive = s.engine.rxActive ∧ t.engine.rxEsc = s.engine.rxEsc ∧
      t.engine.rxDrop = s.engine.rxDrop ∧
      t.engine.slots.map (fun sl => (sl.buf, sl.len, sl.sep, sl.sepValid)) =
        s.engine.slots.map (fun sl => (sl.buf, sl.len, sl.sep, sl.sepValid)) := by
  obtain ht | ⟨sl, hsl, ht⟩ := execRxRelease_engine h
  · rw [ht]
    exact ⟨⟨rfl, rfl⟩, ⟨rfl, rfl, rfl, rfl⟩, ⟨rfl, rfl, rfl⟩, ⟨rfl, rfl, rfl, rfl, rfl, rfl⟩, rfl, rfl, rfl,
      rfl⟩
  · rw [ht]
    exact ⟨⟨rfl, rfl⟩, ⟨rfl, rfl, rfl, rfl⟩, ⟨rfl, rfl, rfl⟩, ⟨rfl, rfl, rfl, rfl, rfl, rfl⟩, rfl, rfl, rfl,
      map_set_eq_map hsl rfl⟩

/-- TX_READY leaves what the drain of a byte leaves. -/
theorem execTxReady_frame {s t : State} (h : execTxReady s = .next t) :
    sameConfig t.engine s.engine ∧ sameProducerRegisters t.engine s.engine ∧ sameReceiveSide t.engine s.engine ∧
      t.engine.txq = s.engine.txq ∧ t.engine.txHead = s.engine.txHead ∧ t.engine.arbIndex = s.engine.arbIndex ∧
      t.engine.mismatchPos = s.engine.mismatchPos ∧ t.engine.arbPkt = s.engine.arbPkt ∧
      t.engine.lastActivity = s.engine.lastActivity := by
  obtain ht | ⟨-, x, hx, ht⟩ := execTxReady_engine h
  · rw [ht]; exact ⟨⟨rfl, rfl⟩, ⟨rfl, rfl, rfl⟩, ⟨rfl, rfl, rfl, rfl⟩, rfl, rfl, rfl, rfl, rfl, rfl⟩
  · rw [ht]; exact drainStep_frame hx

theorem pumpFrame_iff {e e' : Engine} :
    PumpFrame e e' ↔ sameConfig e' e ∧ sameProducerRegisters e' e ∧ sameRing e' e ∧
      e'.slots.length = e.slots.length ∧ ∀ (k : Nat) (sl : Slot), e.slots[k]? = some sl → sl.available = true →
        ∃ sl' : Slot, e'.slots[k]? = some sl' ∧ sl'.available = true :=
  ⟨fun h => ⟨h.config, h.producer, h.ring, h.slotCount, h.kept⟩,
    fun ⟨config, producer, ring, slotCount, kept⟩ => ⟨config, producer, ring, slotCount, kept⟩⟩

/-- Settles O16: one frame lemma for each operation, the receive path's shared by RX_BYTE and the five wire symbols. -/
theorem eachContextWritesOnlyItsOwn : Obligations.EachContextWritesOnlyItsOwn := by
  intro i s t h
  cases i with
  | setChipId id =>
    cases h
    exact ⟨⟨rfl, rfl, rfl, rfl⟩, ⟨rfl, rfl, rfl⟩, ⟨rfl, rfl, rfl, rfl⟩, ⟨rfl, rfl, rfl, rfl, rfl, rfl⟩, rfl⟩
  | setPriority v =>
    cases h
    exact ⟨⟨rfl, rfl, rfl, rfl⟩, ⟨rfl, rfl, rfl⟩, ⟨rfl, rfl, rfl, rfl⟩, ⟨rfl, rfl, rfl, rfl, rfl, rfl⟩, rfl⟩
  | isIdle => cases h; rfl
  | txStart => exact execTxStart_frame h
  | txPush b => exact execTxPush_frame h
  | txClose => exact execTxClose_frame h
  | rxRead slot offset => exact execRxRead_engine h
  | rxRelease slot => exact execRxRelease_frame h
  | txReady => exact execTxReady_frame h
  | rxByte c => exact pumpFrame_iff.1 (receive_frame h)
  | endSym => exact pumpFrame_iff.1 (receive_frame h)
  | esc => exact pumpFrame_iff.1 (receive_frame h)
  | escEnd => exact pumpFrame_iff.1 (receive_frame h)
  | escEsc => exact pumpFrame_iff.1 (receive_frame h)
  | lit b => exact pumpFrame_iff.1 (receive_frame h)

end Sys2Proof.Machine

/-! ### The reset state (R40, R280) -/

namespace Sys2Proof.Machine

/-- All eight arbitration registers hold 0xFF after reset. -/
theorem reset_arbPkt_byte (p : Params) (i : Nat) : (Engine.reset p).arbPkt.byte i = 0xFF#8 := by
  unfold ArbPkt.byte
  split <;> rfl

theorem eq_reset_of_mem_reset_slots {p : Params} {sl : Slot} (h : sl ∈ (Engine.reset p).slots) : sl = Slot.reset :=
  List.eq_of_mem_replicate h

theorem reset_slots_length (p : Params) : (Engine.reset p).slots.length = p.nSlots := List.length_replicate

theorem step_of_pending {s : State} {x : Input} {rest : List Input} (h : s.port.pending = x :: rest) :
    step s = serve x (s.accept x rest) := by
  unfold step; rw [h]

/-- Settles O8: the accepted reset input puts `Engine.reset` in place, whose registers are read off one by one. -/
theorem resetLeavesTheTableOfValues : Obligations.ResetLeavesTheTableOfValues := by
  intro s rest h
  have hslots : ∀ sl ∈ (Engine.reset s.params).slots,
      sl.len = 0 ∧ sl.sep = 0 ∧ sl.sepValid = false ∧ sl.available = false := by
    intro sl hsl
    rw [eq_reset_of_mem_reset_slots hsl]
    exact ⟨rfl, rfl, rfl, rfl⟩
  exact ⟨(s.accept .reset rest).resetEngine, step_of_pending h, rfl, rfl, rfl, rfl, rfl, rfl,
    fun i _ => reset_arbPkt_byte s.params i, rfl, rfl, rfl, rfl, rfl, rfl, rfl, rfl, rfl, reset_slots_length s.params,
    hslots, rfl, rfl, rfl⟩

end Sys2Proof.Machine

/-! ### The invariants of R39 but V2, part by part -/

namespace Sys2Proof.Machine

/-! #### The parts of `Sound`

Each operation writes registers of one or two of these parts, and keeps the others because it leaves their registers alone. -/

/-- The ring's indices and cells, and V6. -/
structure TxSound (p : Params) (e : Engine) : Prop where
  head : e.txHead < p.txqCap
  tail : e.txTail < p.txqCap
  frameStart : e.txFrameStart < p.txqCap
  txqWf : e.txq.wf = true
  v6 : V6 e

/-- One slot: its canonical form, the bound on `sep`, V4. -/
structure SlotSound (p : Params) (sl : Slot) : Prop where
  bufWf : sl.buf.wf = true
  sep_lt : sl.sep < p.rxSlotCap
  v4 : sl.V4 p

/-- The slot pool. -/
structure RxSound (p : Params) (e : Engine) : Prop where
  slotCount : e.slots.length = p.nSlots
  active : e.rxActive < p.nSlots
  slots : ∀ sl ∈ e.slots, SlotSound p sl

/-- The sequencing and arbitration registers. -/
structure SeqSound (p : Params) (e : Engine) : Prop where
  arbIndex : e.arbIndex ≤ 7
  lastActivity : e.lastActivity < 2 ^ p.tickBits
  v1 : V1 e
  v3 : V3 e
  v5 : V5 e
  v7 : V7 e

/-- Everything in `Sound` that the byte pump writes. -/
structure PumpSound (p : Params) (e : Engine) : Prop where
  rx : RxSound p e
  seq : SeqSound p e
  owns : PumpOwns e

theorem sound_iff {p : Params} {e : Engine} : Sound p e ↔ TxSound p e ∧ PumpSound p e := by
  constructor
  · rintro ⟨⟨head, tail, frameStart, arbIndex, lastActivity, slotCount, active, txqWf, bufWf, seps⟩,
      v1, v3, v4, v5, v6, v7, owns⟩
    exact ⟨⟨head, tail, frameStart, txqWf, v6⟩,
      ⟨slotCount, active, fun sl hsl => ⟨bufWf sl hsl, seps sl hsl, v4 sl hsl⟩⟩,
      ⟨arbIndex, lastActivity, v1, v3, v5, v7⟩, owns⟩
  · rintro ⟨⟨head, tail, frameStart, txqWf, v6⟩, ⟨slotCount, active, slots⟩,
      ⟨arbIndex, lastActivity, v1, v3, v5, v7⟩, owns⟩
    exact ⟨⟨head, tail, frameStart, arbIndex, lastActivity, slotCount, active, txqWf,
      fun sl hsl => (slots sl hsl).bufWf, fun sl hsl => (slots sl hsl).sep_lt⟩,
      v1, v3, fun sl hsl => (slots sl hsl).v4, v5, v6, v7, owns⟩

/-! #### The ring's part -/

/-- The ring's part rests on the ring and on the producer registers. -/
theorem TxSound.of_frame {p : Params} {e e' : Engine} (h : TxSound p e) (hf : PumpFrame e e') : TxSound p e' := by
  obtain ⟨cells, head, tail, -⟩ := hf.ring
  obtain ⟨lock, start, ovf⟩ := hf.producer
  refine ⟨head ▸ h.head, tail ▸ h.tail, start ▸ h.frameStart, cells ▸ h.txqWf, ?_⟩
  rw [V6, lock, ovf]
  exact h.v6

theorem TxSound.appendCell {p : Params} {v : Byte} {e e' : Engine} (h : TxSound p e) (ha : appendCell p e v = .ok e') :
    TxSound p e' := by
  obtain ⟨hlt, rfl⟩ := appendCell_eq_ok.1 ha
  exact { h with head := ringNext_lt (Nat.zero_lt_of_lt hlt) _, txqWf := Memory.write_wf h.txqWf _ _ }

/-- The first byte of a push, then the others. -/
theorem appendCells_cons_eq_ok {p : Params} {v : Byte} {vs : List Byte} {e e' : Engine} :
    appendCells p e (v :: vs) = .ok e' ↔ ∃ e₁, appendCell p e v = .ok e₁ ∧ appendCells p e₁ vs = .ok e' := by
  rw [appendCells]
  cases Machine.appendCell p e v <;> simp

theorem TxSound.appendCells {p : Params} {vs : List Byte} {e e' : Engine} (h : TxSound p e)
    (ha : appendCells p e vs = .ok e') : TxSound p e' := by
  induction vs generalizing e with
  | nil => cases ha; exact h
  | cons v vs ih =>
    obtain ⟨e₁, he₁, hvs⟩ := appendCells_cons_eq_ok.1 ha
    exact ih (h.appendCell he₁) hvs

/-! #### The slots' part -/

theorem SlotSound.reset {p : Params} (hcap : 0 < p.rxSlotCap) : SlotSound p Slot.reset where
  bufWf := rfl
  sep_lt := hcap
  v4 := ⟨Nat.zero_le _, by simp [Slot.reset], by simp [Slot.reset], by simp [Slot.reset]⟩

/-- A free slot whose write cursor is reset (R220). -/
theorem SlotSound.restart {p : Params} {sl : Slot} (h : SlotSound p sl) (hfree : sl.available = false) :
    SlotSound p sl.restart where
  bufWf := h.bufWf
  sep_lt := Nat.zero_lt_of_lt h.sep_lt
  v4 := ⟨Nat.zero_le _, by simp [Slot.restart], by simp [Slot.restart], by simp [hfree]⟩

/-- A frame with a separator may be handed to the consumer (R224). -/
theorem SlotSound.handOver {p : Params} {sl : Slot} (h : SlotSound p sl) (hsep : sl.sepValid = true) :
    SlotSound p { sl with available := true } := by
  obtain ⟨hlen, hvalid, hinvalid, -⟩ := h.v4
  exact ⟨h.bufWf, h.sep_lt, hlen, hvalid, hinvalid, fun _ => hsep⟩

/-- A slot may be given back at any time (R226). -/
theorem SlotSound.giveBack {p : Params} {sl : Slot} (h : SlotSound p sl) :
    SlotSound p { sl with available := false } := by
  obtain ⟨hlen, hvalid, hinvalid, -⟩ := h.v4
  exact ⟨h.bufWf, h.sep_lt, hlen, hvalid, hinvalid, nofun⟩

/-- Storing a byte keeps V4: the first zero byte becomes the separator, and no byte before `len` is changed (R221, R222). -/
theorem SlotSound.store {p : Params} {sl : Slot} (h : SlotSound p sl) (hroom : sl.len < p.rxSlotCap) (d : Byte) :
    SlotSound p (sl.store d) := by
  obtain ⟨-, hvalid, hinvalid, havail⟩ := h.v4
  have hwf : (sl.buf.write sl.len d).wf = true := Memory.write_wf h.bufWf _ _
  have hnew : (sl.buf.write sl.len d).read sl.len = d := Memory.read_write_same h.bufWf _ _
  have hold : ∀ k < sl.len, (sl.buf.write sl.len d).read k = sl.buf.read k :=
    fun k hk => Memory.read_write_other (Nat.ne_of_lt hk) d
  unfold Slot.store
  split
  · next hsep =>
    obtain ⟨rfl, hsep⟩ := hsep
    obtain ⟨-, hnozero⟩ := hinvalid hsep
    exact ⟨hwf, hroom, hroom,
      fun _ => ⟨Nat.lt_succ_self _, hnew, fun k hk => by rw [hold k hk]; exact hnozero k hk⟩, nofun, fun _ => rfl⟩
  · next hnosep =>
    refine ⟨hwf, h.sep_lt, hroom, ?_, ?_, havail⟩
    · intro hv
      obtain ⟨hlt, hzero, hfirst⟩ := hvalid hv
      refine ⟨Nat.lt_succ_of_lt hlt, ?_, fun k hk => ?_⟩
      · rw [← hzero]; exact hold _ hlt
      · change k < sl.sep at hk
        rw [hold k (by omega)]; exact hfirst k hk
    · intro hv
      obtain ⟨hzero, hnozero⟩ := hinvalid hv
      have hd : d ≠ 0#8 := fun hd => hnosep ⟨hd, hv⟩
      refine ⟨hzero, fun k hk => ?_⟩
      obtain hk | rfl := Nat.lt_succ_iff_lt_or_eq.1 hk
      · rw [hold k hk]; exact hnozero k hk
      · rw [hnew]; exact hd

theorem RxSound.slot {p : Params} {e : Engine} {k : Nat} {sl : Slot} (h : RxSound p e) (hk : e.slots[k]? = some sl) :
    SlotSound p sl :=
  h.slots sl (List.mem_of_getElem? hk)

theorem RxSound.setSlot {p : Params} {e : Engine} {sl : Slot} (h : RxSound p e) (k : Nat) (hsl : SlotSound p sl) :
    RxSound p (setSlot e k sl) where
  slotCount := by simpa using h.slotCount
  active := h.active
  slots sl' hsl' := by
    obtain hmem | rfl := List.mem_or_eq_of_mem_set hsl'
    · exact h.slots sl' hmem
    · exact hsl

theorem getElem?_setSlot_same {e : Engine} {k : Nat} {sl sl₀ : Slot} (hk : e.slots[k]? = some sl₀) :
    (setSlot e k sl).slots[k]? = some sl := by
  have hlt : k < e.slots.length := (List.getElem?_eq_some_iff.1 hk).1
  simp [hlt]

/-- The pump's slot is its own again after a write of a slot that is not available. -/
theorem pumpOwns_setSlot {e : Engine} {sl sl₀ : Slot} (hk : e.slots[e.rxActive]? = some sl₀)
    (hfree : sl.available = false) : PumpOwns (setSlot e e.rxActive sl) := by
  intro _ _ sl' hsl'
  rw [setSlot_rxActive, getElem?_setSlot_same hk] at hsl'
  cases hsl'
  exact hfree

/-! #### The sequencing part, by the state that is entered -/

/-- The states in which nothing is arbitrated and nothing sent. -/
abbrev Inactive (st : HandlerState) : Prop := st = .idle ∨ st = .receiving ∨ st = .sendingComplete

/-- The packet of a participating node as V7 has it. -/
abbrev PacketForm (a : ArbPkt) : Prop :=
  a.priority.getLsbD 0 = true ∧ a.chipIdHi.getLsbD 0 = true ∧ a.chipIdLo.getLsbD 0 = true ∧ a.latencyA = 0xFF#8 ∧
    ((a.collMap0 = 0xFF#8 ∧ a.collMap1 = 0xFF#8 ∧ a.collMap2 = 0xFF#8) ∨
      (oneBitCleared a.collMap0 ∧ a.collMap1 = 0xFF#8 ∧ a.collMap2 = 0xFF#8) ∨
      (a.collMap0 = 0xFF#8 ∧ oneBitCleared a.collMap1 ∧ a.collMap2 = 0xFF#8) ∨
      (a.collMap0 = 0xFF#8 ∧ a.collMap1 = 0xFF#8 ∧ oneBitCleared a.collMap2))

section
variable {p : Params} {e : Engine}

theorem SeqSound.of_inactive (hst : Inactive e.state) (harb : e.arbIndex ≤ 7) (hact : e.lastActivity < 2 ^ p.tickBits)
    (hv5 : V5 e) (hirq : e.txIrqEn = false) : SeqSound p e := by
  refine ⟨harb, hact, ?_, ?_, hv5, ?_⟩
  all_goals obtain hst | hst | hst := hst <;> simp [V1, V3, V7, hst, hirq]

theorem SeqSound.of_waiting (hst : e.state = .waitingArbitration) (harb : e.arbIndex ≤ 6)
    (hact : e.lastActivity < 2 ^ p.tickBits) (hv5 : V5 e) (hirq : e.txIrqEn = false) : SeqSound p e where
  arbIndex := Nat.le_succ_of_le harb
  lastActivity := hact
  v1 := by simp [V1, hst, hirq]
  v3 := by simp [V3, hst, harb]
  v5 := hv5
  v7 := by simp [V7, hst]

theorem SeqSound.of_participating (hst : e.state = .participatingArbitration) (harb : e.arbIndex ≤ 6)
    (hact : e.lastActivity < 2 ^ p.tickBits) (hv5 : V5 e) (hirq : e.txIrqEn = false) (hpending : 0 < e.txPending)
    (hpkt : PacketForm e.arbPkt) : SeqSound p e where
  arbIndex := Nat.le_succ_of_le harb
  lastActivity := hact
  v1 := by simp [V1, hst, hirq]
  v3 := by simp [V3, hst, harb, hpending]
  v5 := hv5
  v7 := fun _ => hpkt

theorem SeqSound.of_sending (hst : e.state = .sending) (harb : e.arbIndex ≤ 7)
    (hact : e.lastActivity < 2 ^ p.tickBits) (hv5 : V5 e) (hirq : e.txIrqEn = true) (hpending : 0 < e.txPending) :
    SeqSound p e where
  arbIndex := harb
  lastActivity := hact
  v1 := by simp [V1, hst, hirq]
  v3 := by simp [V3, hst, hpending]
  v5 := hv5
  v7 := by simp [V7, hst]

theorem SeqSound.irq_off (h : SeqSound p e) (hst : e.state ≠ .sending) : e.txIrqEn = false :=
  Bool.eq_false_iff.2 fun hirq => hst (h.v1.1 hirq)

theorem pumpOwns_of_not_receiving (hst : e.state ≠ .receiving) : PumpOwns e := fun h => absurd h hst

end

/-- The sequencing part rests on the sequencing registers, on the priority and on `tx_pending`. -/
theorem SeqSound.of_frame {p : Params} {e e' : Engine} (h : SeqSound p e) (hf : PumpFrame e e')
    (hseq : sameSequencing e' e) : SeqSound p e' := by
  obtain ⟨-, hprio⟩ := hf.config
  obtain ⟨-, -, -, hpending⟩ := hf.ring
  obtain ⟨hst, harb, hpos, hpkt, hact, hirq⟩ := hseq
  constructor
  · rw [harb]; exact h.arbIndex
  · rw [hact]; exact h.lastActivity
  · rw [V1, hst, hirq]; exact h.v1
  · rw [V3, hst, harb, hpending]; exact h.v3
  · rw [V5, hprio, hpos]; exact h.v5
  · rw [V7, hst, hpkt]; exact h.v7

/-! #### The arbitration packet -/

theorem prioByte_bitZero (v : Int) : (prioByte v).getLsbD 0 = true := by simp [prioByte]

/-- A fresh packet has the form of V7, the chip-id bytes by the spreading function's first property (R141). -/
theorem packetForm_arbRegen {p : Params} (hsp : Spreads (spreadOf p)) (e : Engine) : PacketForm (arbRegen p e).arbPkt :=
  ⟨prioByte_bitZero _, (hsp.bitZero _).1, (hsp.bitZero _).2, rfl, .inl ⟨rfl, rfl, rfl⟩⟩

/-- The collision map of every position has at most one bit cleared (R146). -/
theorem collMap_form : ∀ pos < 25,
    ((collMap pos).1 = 0xFF#8 ∧ (collMap pos).2.1 = 0xFF#8 ∧ (collMap pos).2.2 = 0xFF#8) ∨
      (oneBitCleared (collMap pos).1 ∧ (collMap pos).2.1 = 0xFF#8 ∧ (collMap pos).2.2 = 0xFF#8) ∨
      ((collMap pos).1 = 0xFF#8 ∧ oneBitCleared (collMap pos).2.1 ∧ (collMap pos).2.2 = 0xFF#8) ∨
      ((collMap pos).1 = 0xFF#8 ∧ (collMap pos).2.1 = 0xFF#8 ∧ oneBitCleared (collMap pos).2.2) := by
  decide

theorem packetForm_arbBuildMap {e : Engine} (h : PacketForm e.arbPkt) (hpos : e.mismatchPos ≤ 24) :
    PacketForm (arbBuildMap e).arbPkt := by
  obtain ⟨hprio, hhi, hlo, hlat, -⟩ := h
  exact ⟨hprio, hhi, hlo, hlat, collMap_form e.mismatchPos (Nat.lt_succ_of_le hpos)⟩

theorem topBit_le (x : Byte) (n : Nat) : topBit x n ≤ n := by
  induction n with
  | zero => exact Nat.le_refl 0
  | succ n ih =>
    unfold topBit
    split
    · exact Nat.le_refl _
    · exact Nat.le_succ_of_le ih

theorem linPos_le (i : Nat) (sent seen : Byte) : linPos i sent seen ≤ 24 := by
  have h : getMismatchPos sent seen ≤ 8 := topBit_le _ 8
  unfold linPos
  omega

theorem arbCompare_mismatchPos_le {e : Engine} (h : e.mismatchPos ≤ 24) (i : Nat) (c : Byte) :
    (arbCompare e i c).mismatchPos ≤ 24 := by
  unfold arbCompare
  split
  · exact linPos_le _ _ _
  · exact h

/-! #### The receive path keeps the pump's part -/

/-- The start of a frame body, from every state that would be sound in `Receiving` (R220, R171, R175). -/
theorem PumpSound.of_rxBegin {p : Params} {e : Engine} {a : Eff} (hrx : RxSound p e)
    (hseq : SeqSound p { e with state := .receiving }) (h : rxBegin e = .ok a) :
    PumpSound p { a.engine with state := .receiving } := by
  obtain ⟨sl, hsl, ⟨-, rfl⟩ | ⟨hfree, rfl⟩⟩ := rxBegin_eq_ok h
  · exact ⟨{ hrx with }, { hseq with }, fun _ hdrop => nomatch hdrop⟩
  · have hset : RxSound p (setSlot e e.rxActive sl.restart) := hrx.setSlot _ ((hrx.slot hsl).restart hfree)
    exact ⟨{ hset with }, { hseq with },
      pumpOwns_setSlot (e := { e with state := .receiving, rxEsc := false, rxDrop := false }) hsl hfree⟩

theorem waitStep_pumpSound {p : Params} {e : Engine} {x : Eff} (h : PumpSound p e) (hst : e.state = .waitingArbitration)
    (hx : waitStep e = .ok x) : PumpSound p x.engine := by
  have hirq : e.txIrqEn = false := h.seq.irq_off (by simp [hst])
  obtain ⟨hi, rfl⟩ | ⟨a, hi, ha, rfl⟩ := waitStep_eq_ok hx
  · exact ⟨{ h.rx with }, .of_waiting hst (by exact hi) h.seq.lastActivity h.seq.v5 hirq,
      pumpOwns_of_not_receiving (by simp [Eff.quiet, hst])⟩
  · exact .of_rxBegin (e := { e with arbIndex := 7 }) { h.rx with }
      (.of_inactive (.inr (.inl rfl)) (Nat.le_refl 7) h.seq.lastActivity h.seq.v5 hirq) ha

/-- A lost round (R175), `arb_index` already advanced. -/
theorem partLose_pumpSound {p : Params} {e : Engine} {x : Eff} (hrx : RxSound p e) (harb : e.arbIndex ≤ 7)
    (hact : e.lastActivity < 2 ^ p.tickBits) (hv5 : V5 e) (hirq : e.txIrqEn = false) (hx : partLose e = .ok x) :
    PumpSound p x.engine := by
  obtain ⟨hi, rfl⟩ | ⟨a, -, ha, rfl⟩ := partLose_eq_ok hx
  · exact ⟨{ hrx with }, .of_waiting rfl (by exact Nat.le_of_lt_succ (Nat.lt_of_le_of_ne harb hi)) hact hv5 hirq,
      pumpOwns_of_not_receiving nofun⟩
  · exact .of_rxBegin hrx (.of_inactive (.inr (.inl rfl)) harb hact hv5 hirq) ha

theorem partIdentity_pumpSound {p : Params} {e : Engine} (h : PumpSound p e) (hst : e.state = .participatingArbitration)
    (hi : e.arbIndex ≤ 2) (c : Byte) : PumpSound p (partIdentity e c).engine := by
  have hirq : e.txIrqEn = false := h.seq.irq_off (by simp [hst])
  obtain ⟨hpending, -⟩ := h.seq.v3.1 hst
  obtain ⟨hlow, hhigh, hpos⟩ := h.seq.v5
  have hpkt : PacketForm e.arbPkt := h.seq.v7 hst
  have hpkt' : PacketForm (if e.arbIndex = 2 then (arbBuildMap (arbCompare e 2 c)).arbPkt else e.arbPkt) := by
    split
    · exact packetForm_arbBuildMap (by rw [arbCompare_arbPkt]; exact hpkt) (arbCompare_mismatchPos_le hpos 2 c)
    · exact hpkt
  rw [partIdentity_engine]
  exact ⟨{ h.rx with }, .of_participating hst (by simp only; omega) h.seq.lastActivity
    ⟨hlow, hhigh, arbCompare_mismatchPos_le hpos _ c⟩ hirq hpending hpkt', pumpOwns_of_not_receiving (by simp [hst])⟩

theorem partMap_pumpSound {p : Params} {e : Engine} {c : Byte} {x : Eff} (h : PumpSound p e)
    (hst : e.state = .participatingArbitration) (hx : partMap e c = .ok x) : PumpSound p x.engine := by
  have hirq : e.txIrqEn = false := h.seq.irq_off (by simp [hst])
  obtain ⟨hpending, harb⟩ := h.seq.v3.1 hst
  have hnext : e.arbIndex + 1 ≤ 7 := Nat.succ_le_succ harb
  obtain hlose | ⟨hi, rfl⟩ | ⟨-, rfl⟩ := partMap_eq_ok hx
  · exact partLose_pumpSound (e := { e with arbIndex := e.arbIndex + 1 }) { h.rx with } hnext h.seq.lastActivity h.seq.v5
      hirq hlose
  · exact ⟨{ h.rx with }, .of_participating hst (by exact hi) h.seq.lastActivity h.seq.v5 hirq hpending (h.seq.v7 hst),
      pumpOwns_of_not_receiving (by simp [Eff.sending, hst])⟩
  · exact ⟨{ h.rx with }, .of_sending rfl hnext h.seq.lastActivity h.seq.v5 rfl hpending,
      pumpOwns_of_not_receiving nofun⟩

theorem partStep_pumpSound {p : Params} {e : Engine} {c : Byte} {x : Eff} (h : PumpSound p e)
    (hst : e.state = .participatingArbitration) (hx : partStep e c = .ok x) : PumpSound p x.engine := by
  obtain ⟨hi, rfl⟩ | ⟨-, rfl⟩ | ⟨-, hmap⟩ := partStep_eq_ok hx
  · exact partIdentity_pumpSound h hst hi c
  · have hirq : e.txIrqEn = false := h.seq.irq_off (by simp [hst])
    obtain ⟨hpending, -⟩ := h.seq.v3.1 hst
    exact ⟨{ h.rx with }, .of_participating hst (by simp [partLatency, Eff.sending]) h.seq.lastActivity h.seq.v5 hirq
      hpending (h.seq.v7 hst), pumpOwns_of_not_receiving (by simp [partLatency, Eff.sending, hst])⟩
  · exact partMap_pumpSound h hst hmap

theorem rxEmit_pumpSound {p : Params} {d : Byte} {e : Engine} {x : Eff} (h : PumpSound p e)
    (hst : e.state = .receiving) (hx : rxEmit p d e = .ok x) : PumpSound p x.engine := by
  obtain ⟨-, rfl⟩ | ⟨sl, hdrop, hsl, ⟨-, rfl⟩ | ⟨hroom, rfl⟩⟩ := rxEmit_eq_ok hx
  · exact h
  · exact ⟨{ h.rx with }, { h.seq with }, fun _ hdrop' => nomatch hdrop'⟩
  · have hfree : sl.available = false := h.owns hst hdrop sl hsl
    exact ⟨h.rx.setSlot _ ((h.rx.slot hsl).store hroom d), { h.seq with }, pumpOwns_setSlot hsl (by simp [hfree])⟩

theorem decStep_pumpSound {p : Params} {c : Byte} {e : Engine} {x : Eff} (h : PumpSound p e) (hst : e.state = .receiving)
    (hx : decStep p c e = .ok x) : PumpSound p x.engine := by
  have hesc : ∀ esc, PumpSound p { e with rxEsc := esc } := fun _ => ⟨{ h.rx with }, { h.seq with }, h.owns⟩
  obtain ⟨esc, hx | ⟨d, hx⟩⟩ := decStep_eq_ok hx
  · rw [hx]; exact hesc esc
  · exact rxEmit_pumpSound (hesc esc) hst hx

theorem dataStep_pumpSound {p : Params} {c : Byte} {e : Engine} {x : Eff} (h : PumpSound p e)
    (hx : dataStep p c e = .ok x) : PumpSound p x.engine := by
  unfold dataStep at hx
  split at hx
  case h_4 hst => exact waitStep_pumpSound h hst hx
  case h_5 hst => exact partStep_pumpSound h hst hx
  case h_6 hst => exact decStep_pumpSound h hst hx
  all_goals cases hx; exact h

theorem deliver_rxSound {p : Params} {e : Engine} {x : Eff} (h : RxSound p e) (hx : deliver p e = .ok x) :
    RxSound p x.engine ∧ sameSequencing x.engine e := by
  have hsame : sameSequencing e e := ⟨rfl, rfl, rfl, rfl, rfl, rfl⟩
  obtain ⟨-, rfl⟩ | ⟨sl, -, hsl, ⟨hsep, rfl⟩ | ⟨-, rfl⟩⟩ := deliver_eq_ok hx
  · exact ⟨h, hsame⟩
  · have hset : RxSound p (setSlot e e.rxActive { sl with available := true }) := h.setSlot _ ((h.slot hsl).handOver hsep)
    exact ⟨{ hset with active := Nat.mod_lt _ (Nat.zero_lt_of_lt h.active) }, hsame⟩
  · exact ⟨h, hsame⟩

/-- The end of a frame body keeps the pool and the sequencing; the slot that is active next may be available, which no longer
matters once the body is left. -/
theorem rxFinish_rxSound {p : Params} {e : Engine} {x : Eff} (h : RxSound p e) (hx : rxFinish p e = .ok x) :
    RxSound p x.engine ∧ sameSequencing x.engine e := by
  obtain ⟨y, hy, hxy⟩ := rxFinish_eq_ok hx
  rw [hxy]
  exact deliver_rxSound (e := { e with rxEsc := false }) { h with } hy

/-- The next round (R169) starts soundly from every state but `Sending`; the slot ownership is not needed for it. -/
theorem rearb_pumpSound {p : Params} {e : Engine} (hsp : Spreads (spreadOf p)) (hrx : RxSound p e) (h : SeqSound p e)
    (hst : e.state ≠ .sending) : PumpSound p (rearb p e).engine := by
  have hirq : e.txIrqEn = false := h.irq_off hst
  obtain ⟨hlow, hhigh, -⟩ := h.v5
  have hv5 : V5 { e with arbIndex := 0, mismatchPos := 0 } := ⟨hlow, hhigh, Nat.zero_le _⟩
  unfold rearb
  simp only
  split
  · next hpending =>
    exact ⟨{ hrx with }, .of_participating rfl (Nat.zero_le _) h.lastActivity hv5 hirq hpending
      (packetForm_arbRegen hsp _), pumpOwns_of_not_receiving nofun⟩
  · exact ⟨{ hrx with }, .of_waiting rfl (Nat.zero_le _) h.lastActivity hv5 hirq, pumpOwns_of_not_receiving nofun⟩

theorem endStep_pumpSound {p : Params} {e : Engine} {x : Eff} (hsp : Spreads (spreadOf p)) (h : PumpSound p e)
    (hx : endStep p e = .ok x) : PumpSound p x.engine := by
  unfold endStep at hx
  split at hx
  case h_1 => cases hx; exact h
  case h_2 hst =>
    cases hx
    exact ⟨{ h.rx with }, .of_inactive (.inl rfl) h.seq.arbIndex h.seq.lastActivity h.seq.v5
      (h.seq.irq_off (by simp [hst])), pumpOwns_of_not_receiving nofun⟩
  case h_3 hst =>
    obtain ⟨a, ha, hxa⟩ := finish_then_rearb_eq_ok hx
    obtain ⟨hrx, hsame⟩ := rxFinish_rxSound h.rx ha
    rw [hxa]
    exact rearb_pumpSound hsp hrx (h.seq.of_frame (rxFinish_frame ha) hsame) (by simp [hsame.1, hst])
  all_goals
    next hst =>
    cases hx
    exact rearb_pumpSound hsp h.rx h.seq (by simp [hst])

theorem PumpSound.stamp {p : Params} {e : Engine} (h : PumpSound p e) {now : Nat} (hnow : now < 2 ^ p.tickBits) :
    PumpSound p { e with lastActivity := now } :=
  ⟨{ h.rx with }, { h.seq with lastActivity := hnow }, h.owns⟩

theorem PumpSound.forceIdle {p : Params} {e : Engine} (h : PumpSound p e) : PumpSound p (forceIdle e) :=
  ⟨{ h.rx with }, .of_inactive (.inl rfl) h.seq.arbIndex h.seq.lastActivity h.seq.v5 rfl, pumpOwns_of_not_receiving nofun⟩

theorem rxByteStep_pumpSound {p : Params} {now : Nat} {c : Byte} {e : Engine} {x : Eff} (hsp : Spreads (spreadOf p))
    (hnow : now < 2 ^ p.tickBits) (h : PumpSound p e) (hx : rxByteStep p now c e = .ok x) : PumpSound p x.engine := by
  obtain hend | hend | hdata := rxByteStep_eq_ok hx
  · exact endStep_pumpSound hsp (h.stamp hnow).forceIdle hend
  · exact endStep_pumpSound hsp (h.stamp hnow) hend
  · exact dataStep_pumpSound (h.stamp hnow) hdata

/-! #### The operations -/

/-- The tick input is `TICK_BITS` bits wide. -/
theorem tick_lt (s : State) : s.tick < 2 ^ s.params.tickBits := Nat.mod_lt _ (Nat.two_pow_pos _)

theorem receive_sound {c : Byte} {s t : State} (hs : s.Sound) (h : receive c s = .next t) : Sound s.params t.engine := by
  obtain ⟨htx, hpump⟩ := sound_iff.1 hs.engine
  obtain ⟨x, hx, rfl⟩ := receive_eq_next h
  exact sound_iff.2 ⟨htx.of_frame (rxByteStep_frame hx), rxByteStep_pumpSound hs.spreads (tick_lt s) hpump hx⟩

theorem clampPriority_bounds (v : Int) : -60 ≤ clampPriority v ∧ clampPriority v ≤ 60 := by
  unfold clampPriority
  split
  · omega
  · split <;> omega

/-- A clamped priority fits the 8-bit register. -/
theorem priorityBits_toInt {v : Int} (hlow : -60 ≤ v) (hhigh : v ≤ 60) : (priorityBits v).toInt = v := by
  unfold priorityBits
  rw [BitVec.toInt_ofInt]
  exact Int.bmod_eq_of_le (by omega) (by omega)

theorem execSetPriority_sound {v : BitVec 16} {s t : State} (hs : Sound s.params s.engine)
    (h : execSetPriority v s = .next t) : Sound s.params t.engine := by
  cases h
  obtain ⟨hlow, hhigh⟩ := clampPriority_bounds (priorityOperand v)
  obtain ⟨-, -, hpos⟩ := hs.v5
  refine { hs with range := { hs.range with }, v5 := ⟨?_, ?_, hpos⟩ }
  all_goals simpa [priorityBits_toInt hlow hhigh]

theorem execTxStart_sound {s t : State} (hs : Sound s.params s.engine) (h : execTxStart s = .next t) :
    Sound s.params t.engine := by
  obtain ht | ⟨-, ht⟩ := execTxStart_engine h <;> rw [ht]
  · exact hs
  · exact { hs with range := { hs.range with frameStart := hs.range.head }, v6 := fun _ => rfl }

/-- The pump's part does not see the ring, its lock and its frame mark. -/
theorem PumpSound.of_producer {p : Params} {e e' : Engine} (h : PumpSound p e)
    (he : e' = { e with txq := e'.txq, txHead := e'.txHead, txTail := e'.txTail, txLock := e'.txLock,
                        txFrameStart := e'.txFrameStart, txOvf := e'.txOvf }) : PumpSound p e' := by
  rw [he]
  exact ⟨{ h.rx with }, { h.seq with }, h.owns⟩

theorem execTxPush_sound {b : Byte} {s t : State} (hs : Sound s.params s.engine) (h : execTxPush b s = .next t) :
    Sound s.params t.engine := by
  obtain ⟨htx, hpump⟩ := sound_iff.1 hs
  obtain ⟨-, rfl⟩ | ⟨hlock, -, rfl⟩ | ⟨-, -, -, e, he, rfl⟩ := execTxPush_eq_next h
  · exact hs
  · refine sound_iff.2 ⟨{ htx with v6 := fun hunlocked => ?_ }, hpump.of_producer rfl⟩
    rw [finish_engine, hlock] at hunlocked
    cases hunlocked
  · refine sound_iff.2 ⟨htx.appendCells he, hpump.of_producer ?_⟩
    rw [finish_engine, appendCells_engine he]

/-- One more frame counted and the lock released. -/
theorem PumpSound.count {p : Params} {e : Engine} (h : PumpSound p e) :
    PumpSound p { e with txPending := e.txPending + 1, txLock := false } := by
  obtain ⟨hpart, hwait, -⟩ := h.seq.v3
  have hv3 : V3 { e with txPending := e.txPending + 1, txLock := false } :=
    ⟨fun hst => ⟨Nat.succ_pos _, (hpart hst).2⟩, hwait, fun _ => Nat.succ_pos _⟩
  exact ⟨{ h.rx with }, { h.seq with v3 := hv3 }, h.owns⟩

/-- The kick starts a round with a frame queued, from whatever state (R183). -/
theorem PumpSound.kick {p : Params} {e : Engine} {now : Nat} (hsp : Spreads (spreadOf p)) (h : PumpSound p e)
    (hnow : now < 2 ^ p.tickBits) (hpending : 0 < e.txPending) : PumpSound p (kick p now e).engine := by
  obtain ⟨hlow, hhigh, -⟩ := h.seq.v5
  exact ⟨{ h.rx with }, .of_participating rfl (Nat.zero_le _) hnow ⟨hlow, hhigh, Nat.zero_le _⟩ rfl hpending
    (packetForm_arbRegen hsp _), pumpOwns_of_not_receiving nofun⟩

theorem closeSteps_sound {p : Params} {now : Nat} {e : Engine} {x : Eff} (hsp : Spreads (spreadOf p))
    (hnow : now < 2 ^ p.tickBits) (hs : Sound p e) (hovf : e.txOvf = false) (h : closeSteps p now e = .ok x) :
    Sound p x.engine := by
  obtain ⟨htx, hpump⟩ := sound_iff.1 hs
  obtain ⟨e₁, he₁, hend⟩ := closeSteps_engine h
  have htx₁ : TxSound p e₁ := htx.appendCell he₁
  have hovf₁ : e₁.txOvf = false := by obtain ⟨-, rfl⟩ := appendCell_eq_ok.1 he₁; exact hovf
  have hpump₁ : PumpSound p { e₁ with txPending := e₁.txPending + 1, txLock := false } := by
    obtain ⟨-, rfl⟩ := appendCell_eq_ok.1 he₁
    exact hpump.count.of_producer rfl
  obtain hx | hx := hend <;> rw [hx]
  · have hkick := hpump₁.kick hsp hnow (Nat.succ_pos _)
    exact sound_iff.2 ⟨{ htx₁ with v6 := fun _ => hovf₁ }, hkick.of_producer rfl⟩
  · exact sound_iff.2 ⟨{ htx₁ with v6 := fun _ => hovf₁ }, hpump₁⟩

theorem execTxClose_sound {s t : State} (hs : s.Sound) (h : execTxClose s = .next t) : Sound s.params t.engine := by
  obtain ⟨htx, hpump⟩ := sound_iff.1 hs.engine
  obtain ⟨-, rfl⟩ | ⟨-, -, rfl⟩ | ⟨-, hovf, -, x, hx, rfl⟩ := execTxClose_eq_next h
  · exact hs.engine
  · exact sound_iff.2 ⟨{ htx with head := htx.frameStart, v6 := fun _ => rfl }, hpump.of_producer rfl⟩
  · exact closeSteps_sound hs.spreads (tick_lt s) hs.engine hovf hx

theorem execRxRelease_sound {slot : BitVec 4} {s t : State} (hs : Sound s.params s.engine)
    (h : execRxRelease slot s = .next t) : Sound s.params t.engine := by
  obtain ⟨htx, hpump⟩ := sound_iff.1 hs
  obtain ht | ⟨sl, hsl, ht⟩ := execRxRelease_engine h <;> rw [ht]
  · exact hs
  · refine sound_iff.2 ⟨{ htx with }, hpump.rx.setSlot _ (hpump.rx.slot hsl).giveBack, { hpump.seq with }, ?_⟩
    intro hst hdrop sl' hsl'
    rw [setSlot_slots, setSlot_rxActive] at hsl'
    by_cases hk : slot.toNat = s.engine.rxActive
    · rw [← hk, ← setSlot_slots, getElem?_setSlot_same hsl] at hsl'
      cases hsl'
      rfl
    · rw [List.getElem?_set_ne hk] at hsl'
      exact hpump.owns hst hdrop sl' hsl'

/-- The last byte of a frame: the pump leaves `Sending` (R181). -/
theorem PumpSound.txDone {p : Params} {e : Engine} (h : PumpSound p e) : PumpSound p (txDone p e) := by
  have hst : (Machine.txDone p e).state = .idle ∨ (Machine.txDone p e).state = .sendingComplete := by
    unfold Machine.txDone
    cases p.sendingComplete
    · exact .inl rfl
    · exact .inr rfl
  exact ⟨{ h.rx with }, .of_inactive (hst.imp id .inr) h.seq.arbIndex h.seq.lastActivity h.seq.v5 rfl,
    pumpOwns_of_not_receiving (by obtain hst | hst := hst <;> simp [hst])⟩

theorem drainStep_sound {p : Params} {e : Engine} {x : Eff} (hs : Sound p e) (h : drainStep p e = .ok x) :
    Sound p x.engine := by
  obtain ⟨htx, hpump⟩ := sound_iff.1 hs
  obtain ⟨-, rfl⟩ | ⟨-, hlt, rfl⟩ := drainStep_eq_ok h
  · exact sound_iff.2 ⟨{ htx with }, hpump.txDone⟩
  · have htx' : TxSound p { e with txTail := ringNext p e.txTail } :=
      { htx with tail := ringNext_lt (Nat.zero_lt_of_lt hlt) _ }
    have hpump' : PumpSound p { e with txTail := ringNext p e.txTail } := hpump.of_producer rfl
    simp only [Eff.sending]
    split
    · exact sound_iff.2 ⟨{ htx' with }, hpump'.txDone⟩
    · exact sound_iff.2 ⟨htx', hpump'⟩

theorem execTxReady_sound {s t : State} (hs : Sound s.params s.engine) (h : execTxReady s = .next t) :
    Sound s.params t.engine := by
  obtain ht | ⟨-, x, hx, ht⟩ := execTxReady_engine h <;> rw [ht]
  · exact hs
  · exact drainStep_sound hs hx

/-- Every operation keeps the invariants. -/
theorem exec_sound {i : Instr} {s t : State} (hs : s.Sound) (h : exec i s = .next t) : Sound s.params t.engine := by
  cases i with
  | setChipId id => cases h; exact { hs.engine with range := { hs.engine.range with } }
  | setPriority v => exact execSetPriority_sound hs.engine h
  | isIdle => cases h; exact hs.engine
  | txStart => exact execTxStart_sound hs.engine h
  | txPush b => exact execTxPush_sound hs.engine h
  | txClose => exact execTxClose_sound hs h
  | rxRead slot offset => rw [execRxRead_engine h]; exact hs.engine
  | rxRelease slot => exact execRxRelease_sound hs.engine h
  | txReady => exact execTxReady_sound hs.engine h
  | rxByte c => exact receive_sound hs h
  | endSym => exact receive_sound hs h
  | esc => exact receive_sound hs h
  | escEnd => exact receive_sound hs h
  | escEsc => exact receive_sound hs h
  | lit b => exact receive_sound hs h

/-! #### Reset and steps -/

theorem reset_sound {p : Params} (hp : p.Legal) : Sound p (Engine.reset p) := by
  obtain ⟨hring, hslot, -, hpool, -, -, -⟩ := hp
  have hcap : 0 < p.txqCap := by omega
  refine sound_iff.2 ⟨⟨hcap, hcap, hcap, rfl, fun _ => rfl⟩,
    ⟨reset_slots_length p, (by omega : 0 < p.nSlots), fun sl hsl => ?_⟩,
    .of_inactive (.inl rfl) (Nat.zero_le _) (Nat.two_pow_pos _) ?_ rfl, pumpOwns_of_not_receiving nofun⟩
  · rw [eq_reset_of_mem_reset_slots hsl]; exact .reset (by omega)
  · simp [V5, Engine.reset]

/-- What holds of the engine at reset and after every operation holds after every step: with no input waiting and for a reserved
code the engine stays as it is. -/
theorem step_engine {Q : Engine → Prop} {s t : State} (h : step s = .next t) (hsame : Q s.engine)
    (hreset : Q (Engine.reset s.params))
    (hexec : ∀ (i : Instr) (u v : State), u.params = s.params → u.engine = s.engine → exec i u = .next v → Q v.engine) :
    Q t.engine := by
  obtain ⟨-, rfl⟩ | ⟨x, rest, -, hx⟩ := step_eq_next h
  · exact hsame
  · cases x with
    | command w now =>
      simp only [serve, serveCommand] at hx
      split at hx
      · exact hexec _ (s.accept _ rest) t rfl rfl hx
      · cases hx; exact hsame
    | wireByte b now => exact hexec _ (s.accept _ rest) t rfl rfl hx
    | reset => cases hx; exact hreset

/-- Settles O11: each operation keeps the three parts of `Sound` (ring, slots, sequencing) and the slot ownership; reset
establishes them. -/
theorem everyStepKeepsTheInvariants : Obligations.EveryStepKeepsTheInvariants := by
  intro s t hs h
  have hparams : t.params = s.params := parametersNeverChange s t h
  refine ⟨hparams ▸ hs.legal, hparams ▸ hs.spreads, ?_⟩
  rw [hparams]
  refine step_engine h hs.engine (reset_sound hs.legal) ?_
  intro i u v hparams hengine hexec
  have hu : u.Sound := by
    refine ⟨hparams ▸ hs.legal, hparams ▸ hs.spreads, ?_⟩
    rw [hparams, hengine]
    exact hs.engine
  exact hparams ▸ exec_sound hu hexec

end Sys2Proof.Machine

/-! ### V2: the ring as terminated chunks and the frame being composed (R39, R206) -/

namespace Sys2Proof.Machine

/-! #### Indices in ring order -/

section
variable {p : Params} {e e' : Engine}

/-- The index `k` cells behind `a` in ring order. -/
theorem ringIndex_eq {a k : Nat} (ha : a < p.txqCap) (hk : k < p.txqCap) :
    (a + k) % p.txqCap = if a + k < p.txqCap then a + k else a + k - p.txqCap := by
  split
  · next h => exact Nat.mod_eq_of_lt h
  · rw [Nat.mod_eq_sub_mod (by omega), Nat.mod_eq_of_lt (by omega)]

/-- The cells in ring order, each by its index. -/
theorem ringCells_eq_map {m : Memory} {a : Nat} (ha : a < p.txqCap) (n : Nat) :
    ringCells p m a n = (List.range n).map (fun k => m.read ((a + k) % p.txqCap)) := by
  induction n generalizing a with
  | zero => rfl
  | succ n ih =>
    have hnext : ∀ k, (ringNext p a + k) % p.txqCap = (a + (k + 1)) % p.txqCap := fun k => by
      rw [ringNext, Nat.mod_add_mod]; congr 1; omega
    rw [ringCells, ih (ringNext_lt (Nat.zero_lt_of_lt ha) a), List.range_succ_eq_map, List.map_cons, List.map_map]
    simp [Function.comp_def, hnext, Nat.mod_eq_of_lt ha]

/-- The cell after the ring content is the one at `tx_head`. -/
theorem tail_add_used (h : TxSound p e) : (e.txTail + txqUsed p e) % p.txqCap = e.txHead := by
  have hhead := h.head
  have htail := h.tail
  rw [ringIndex_eq htail (txqUsed_lt (Nat.zero_lt_of_lt hhead) e), txqUsed_eq hhead htail]
  split <;> split at * <;> omega

/-- The cell at `tx_head` is not among those of the ring content. -/
theorem tail_add_ne_head (h : TxSound p e) {k : Nat} (hk : k < txqUsed p e) : (e.txTail + k) % p.txqCap ≠ e.txHead := by
  have hhead := h.head
  have htail := h.tail
  have hused := txqUsed_lt (Nat.zero_lt_of_lt hhead) e
  rw [ringIndex_eq htail (hk.trans hused)]
  rw [txqUsed_eq hhead htail] at hk
  split <;> split at hk <;> omega

/-- An occupied cell more as long as one is free. -/
theorem txqUsed_of_append (h : TxSound p e) (hfree : 1 ≤ txqFree p e) (hhead : e'.txHead = ringNext p e.txHead)
    (htail : e'.txTail = e.txTail) : txqUsed p e' = txqUsed p e + 1 := by
  have hlt := h.head
  have htl := h.tail
  have hnext := ringNext_lt (Nat.zero_lt_of_lt hlt) e.txHead
  unfold txqFree at hfree
  rw [txqUsed_eq hlt htl] at hfree ⊢
  rw [txqUsed_eq (hhead ▸ hnext) (htail ▸ htl), hhead, htail, ringNext_eq hlt]
  split at hfree <;> split <;> split <;> omega

/-- An occupied cell less once `tx_tail` moves on. -/
theorem txqUsed_of_advance (hhead : e.txHead < p.txqCap) (htail : e.txTail < p.txqCap) (hne : e.txHead ≠ e.txTail)
    (hhead' : e'.txHead = e.txHead) (htail' : e'.txTail = ringNext p e.txTail) : txqUsed p e = txqUsed p e' + 1 := by
  have hnext := ringNext_lt (Nat.zero_lt_of_lt htail) e.txTail
  rw [txqUsed_eq hhead htail, txqUsed_eq (hhead' ▸ hhead) (htail' ▸ hnext), hhead', htail', ringNext_eq htail]
  split <;> split <;> split at * <;> omega

/-- What `tx_frame_start` cuts off is what a rollback leaves. -/
theorem frameOffset_eq_txqUsed (p : Params) (e : Engine) : frameOffset p e = txqUsed p (txRollback e) := rfl

/-! #### The ring content after each access -/

theorem ringContent_congr (hcells : e'.txq = e.txq) (hhead : e'.txHead = e.txHead) (htail : e'.txTail = e.txTail) :
    ringContent p e' = ringContent p e := by
  simp only [ringContent, txqUsed, hcells, hhead, htail]

theorem ringContent_appendCell {v : Byte} (h : TxSound p e) (hfree : 1 ≤ txqFree p e)
    (ha : appendCell p e v = .ok e') : ringContent p e' = ringContent p e ++ [v] := by
  obtain ⟨-, he'⟩ := appendCell_eq_ok.1 ha
  have hcells : e'.txq = e.txq.write e.txHead v := by rw [he']
  have hhead : e'.txHead = ringNext p e.txHead := by rw [he']
  have htail : e'.txTail = e.txTail := by rw [he']
  have hqueued : ∀ k ∈ List.range (txqUsed p e),
      (e.txq.write e.txHead v).read ((e.txTail + k) % p.txqCap) = e.txq.read ((e.txTail + k) % p.txqCap) :=
    fun k hk => Memory.read_write_other (tail_add_ne_head h (List.mem_range.1 hk)) v
  rw [ringContent, txqUsed_of_append h hfree hhead htail, hcells, htail, ringContent, ringCells_eq_map h.tail,
    ringCells_eq_map h.tail, List.range_succ, List.map_append, List.map_congr_left hqueued]
  simp only [List.map_cons, List.map_nil, tail_add_used h, Memory.read_write_same h.txqWf]

/-- A push appends its bytes to the ring content, if their cells are free. -/
theorem ringContent_appendCells {vs : List Byte} (h : TxSound p e) (hfree : vs.length ≤ txqFree p e)
    (ha : appendCells p e vs = .ok e') : ringContent p e' = ringContent p e ++ vs := by
  induction vs generalizing e with
  | nil => cases ha; simp
  | cons v vs ih =>
    obtain ⟨e₁, he₁, hvs⟩ := appendCells_cons_eq_ok.1 ha
    rw [List.length_cons] at hfree
    have hfirst : ringContent p e₁ = ringContent p e ++ [v] := ringContent_appendCell h (by omega) he₁
    have hused : txqUsed p e₁ = txqUsed p e + 1 := by
      rw [← ringContent_length, ← ringContent_length, hfirst, List.length_append, List.length_singleton]
    have hfree₁ : vs.length ≤ txqFree p e₁ := by
      unfold txqFree at hfree ⊢
      omega
    rw [ih (h.appendCell he₁) hfree₁ hvs, hfirst, List.append_assoc, List.singleton_append]

theorem ringContent_rollback (hmark : frameOffset p e ≤ txqUsed p e) :
    ringContent p (txRollback e) = (ringContent p e).take (frameOffset p e) :=
  ringCells_take hmark

/-- A drain takes the first byte off the ring content. -/
theorem ringContent_of_advance (h : TxSound p e) (hne : e.txHead ≠ e.txTail) (hcells : e'.txq = e.txq)
    (hhead : e'.txHead = e.txHead) (htail : e'.txTail = ringNext p e.txTail) :
    ringContent p e = e.txq.read e.txTail :: ringContent p e' := by
  rw [ringContent, txqUsed_of_advance h.head h.tail hne hhead htail, ringCells, ringContent, hcells, htail]

/-! #### V2 after each access -/

theorem Closed.tail {c : Byte} {q : List Byte} (h : Closed (c :: q)) : Closed q := by
  cases q with
  | nil => exact .inl rfl
  | cons d q =>
    obtain h | h := h
    · cases h
    · exact .inr (by rwa [List.getLast?_cons_cons] at h)

/-- V2 and what an accepted push leaves, carried from the engine `e` to the engine `e'`. -/
structure KeepsRing (p : Params) (e e' : Engine) : Prop where
  v2 : V2 p e'
  fits : TerminatorFits p e → TerminatorFits p e'

/-- V2 rests on the ring, the lock and the frame mark. -/
theorem V2.congr (h : V2 p e) (hring : sameRing e' e) (hlock : e'.txLock = e.txLock)
    (hstart : e'.txFrameStart = e.txFrameStart) : V2 p e' := by
  obtain ⟨hcells, hhead, htail, hpending⟩ := hring
  have hq : ringContent p e' = ringContent p e := ringContent_congr hcells hhead htail
  have hused : txqUsed p e' = txqUsed p e := by simp only [txqUsed, hhead, htail]
  have hoff : frameOffset p e' = frameOffset p e := by simp only [frameOffset, hstart, htail]
  constructor
  · rw [hpending]; exact h.bound
  · rw [hq, hpending]; exact h.count
  · rw [hlock, hq]; exact h.unlocked
  · rw [hlock, hoff, hused]; exact h.mark
  · rw [hlock, hq, hoff]; exact h.queued
  · rw [hlock, hq, hoff]; exact h.composed

theorem KeepsRing.of_same (h : V2 p e) (hring : sameRing e' e) (hprod : sameProducerRegisters e' e) :
    KeepsRing p e e' := by
  obtain ⟨hlock, hstart, hovf⟩ := hprod
  refine ⟨h.congr hring hlock hstart, ?_⟩
  obtain ⟨-, hhead, htail, -⟩ := hring
  have hused : txqUsed p e' = txqUsed p e := by simp only [txqUsed, hhead, htail]
  intro hfits
  rw [TerminatorFits, hlock, hovf, hhead, hstart, txqFree, hused]
  exact hfits

/-- A frame is begun: everything in the ring is queued (R200). -/
theorem KeepsRing.of_start (h : V2 p e) (hunlocked : e.txLock = false) :
    KeepsRing p e { e with txLock := true, txFrameStart := e.txHead, txOvf := false } where
  v2 :=
    { bound := h.bound
      count := h.count
      unlocked := nofun
      mark := fun _ => Nat.le_refl (txqUsed p e)
      queued := fun _ => by
        change Closed ((ringContent p e).take (txqUsed p e))
        rw [← ringContent_length, List.take_length]
        exact h.unlocked hunlocked
      composed := fun _ => by
        change ∀ b ∈ (ringContent p e).drop (txqUsed p e), b ≠ 0#8
        rw [← ringContent_length, List.drop_length]
        nofun }
  fits _ _ _ hne := absurd rfl hne

/-- Bytes other than the terminator are appended to the frame being composed (R201). -/
theorem KeepsRing.of_push {vs : List Byte} (htx : TxSound p e) (h : V2 p e) (hlock : e.txLock = true)
    (hfree : vs.length + 1 ≤ txqFree p e) (hvs : ∀ b ∈ vs, b ≠ 0#8) (ha : appendCells p e vs = .ok e') :
    KeepsRing p e e' := by
  have hq : ringContent p e' = ringContent p e ++ vs := ringContent_appendCells htx (Nat.le_of_succ_le hfree) ha
  have hused : txqUsed p e' = txqUsed p e + vs.length := by
    rw [← ringContent_length, hq, List.length_append, ringContent_length]
  have hoff : frameOffset p e' = frameOffset p e := by rw [appendCells_engine ha]; rfl
  have hpending : e'.txPending = e.txPending := by rw [appendCells_engine ha]
  have hlock' : e'.txLock = true := by rw [appendCells_engine ha]; exact hlock
  have hmark : frameOffset p e ≤ (ringContent p e).length := by rw [ringContent_length]; exact h.mark hlock
  refine ⟨⟨?_, ?_, ?_, fun _ => ?_, fun _ => ?_, fun _ => ?_⟩, fun _ _ _ _ => ?_⟩
  · rw [hpending]; exact h.bound
  · rw [hq, List.count_append, h.count, hpending, List.count_eq_zero.2 fun hmem => hvs _ hmem rfl, Nat.add_zero]
  · rw [hlock']; nofun
  · rw [hoff, hused]; exact Nat.le_add_right_of_le (h.mark hlock)
  · rw [hq, hoff, List.take_append_of_le_length hmark]; exact h.queued hlock
  · rw [hq, hoff, List.drop_append_of_le_length hmark]
    intro b hb
    obtain hb | hb := List.mem_append.1 hb
    · exact h.composed hlock b hb
    · exact hvs b hb
  · unfold txqFree at hfree ⊢
    omega

/-- The frame being composed is dropped: it holds no terminator, so no queued frame is lost (R203). -/
theorem KeepsRing.of_rollback (h : V2 p e) (hlock : e.txLock = true) : KeepsRing p e (txRollback e) := by
  have hq := ringContent_rollback (h.mark hlock)
  have hdropped : ((ringContent p e).drop (frameOffset p e)).count 0#8 = 0 :=
    List.count_eq_zero.2 fun hmem => h.composed hlock _ hmem rfl
  have hcount : ((ringContent p e).take (frameOffset p e)).count 0#8 = e.txPending := by
    have hsplit := h.count
    rw [← List.take_append_drop (frameOffset p e) (ringContent p e), List.count_append, hdropped] at hsplit
    exact hsplit
  exact ⟨⟨h.bound, by rw [hq]; exact hcount, fun _ => by rw [hq]; exact h.queued hlock, nofun, nofun, nofun⟩,
    fun _ => nofun⟩

/-- The terminator is appended, the frame counted and the lock released (R202). -/
theorem KeepsRing.of_close {e₁ : Engine} (htx : TxSound p e) (h : V2 p e) (hfree : 1 ≤ txqFree p e)
    (ha : appendCell p e endByte = .ok e₁) (hcells : e'.txq = e₁.txq) (hhead : e'.txHead = e₁.txHead)
    (htail : e'.txTail = e₁.txTail) (hpending : e'.txPending = e₁.txPending + 1) (hlock : e'.txLock = false) :
    KeepsRing p e e' := by
  have hq : ringContent p e' = ringContent p e ++ [0#8] :=
    (ringContent_congr hcells hhead htail).trans (ringContent_appendCell htx hfree ha)
  have hpending₁ : e₁.txPending = e.txPending := by obtain ⟨-, rfl⟩ := appendCell_eq_ok.1 ha; rfl
  have hcount : (ringContent p e').count 0#8 = e'.txPending := by
    rw [hq, List.count_append, h.count, hpending, hpending₁]; rfl
  have hbound : e'.txPending < p.txqCap :=
    calc e'.txPending = (ringContent p e').count 0#8 := hcount.symm
      _ ≤ (ringContent p e').length := List.count_le_length
      _ = txqUsed p e' := ringContent_length p e'
      _ < p.txqCap := txqUsed_lt (Nat.zero_lt_of_lt htx.head) e'
  refine ⟨⟨hbound, hcount, fun _ => .inr ?_, ?_, ?_, ?_⟩, fun _ hlocked => ?_⟩
  · rw [hq, List.getLast?_concat]
  · rw [hlock]; nofun
  · rw [hlock]; nofun
  · rw [hlock]; nofun
  · rw [hlock] at hlocked; nomatch hlocked

/-- A byte is drained while a frame is queued (R180, R181): it belongs to a queued chunk, never to the frame being composed. -/
theorem KeepsRing.of_drain (htx : TxSound p e) (h : V2 p e) (hqueued : 0 < e.txPending) (hne : e.txHead ≠ e.txTail)
    (hcells : e'.txq = e.txq) (hhead : e'.txHead = e.txHead) (htail : e'.txTail = ringNext p e.txTail)
    (hprod : sameProducerRegisters e' e)
    (hpending : e'.txPending = if e.txq.read e.txTail = endByte then e.txPending - 1 else e.txPending) :
    KeepsRing p e e' := by
  obtain ⟨hlock, hstart, hovf⟩ := hprod
  have hq : ringContent p e = e.txq.read e.txTail :: ringContent p e' := ringContent_of_advance htx hne hcells hhead htail
  have hused : txqUsed p e = txqUsed p e' + 1 := txqUsed_of_advance htx.head htx.tail hne hhead htail
  have hle : e'.txPending ≤ e.txPending := by rw [hpending]; split <;> omega
  have hcount : (ringContent p e').count 0#8 = e'.txPending := by
    have hcons := h.count
    rw [hq, List.count_cons] at hcons
    rw [hpending]
    split
    · next hend => rw [hend] at hcons; simp only [beq_self_eq_true, if_true] at hcons; omega
    · next hbyte => simpa [hbyte] using hcons
  have hoff : e.txLock = true → frameOffset p e = frameOffset p e' + 1 := by
    intro hl
    refine txqUsed_of_advance (e := txRollback e) (e' := txRollback e') htx.frameStart htx.tail ?_ hstart htail
    intro heq
    have hzero : frameOffset p e = 0 := by
      rw [frameOffset_eq_txqUsed, txqUsed_eq (e := txRollback e) htx.frameStart htx.tail, heq]
      simp
    have hnone : (ringContent p e).count 0#8 = 0 :=
      List.count_eq_zero.2 fun hmem => h.composed hl _ (by rwa [hzero]) rfl
    rw [h.count] at hnone
    omega
  refine ⟨⟨Nat.lt_of_le_of_lt hle h.bound, hcount, ?_, ?_, ?_, ?_⟩, ?_⟩
  · rw [hlock]
    intro hl
    exact (hq ▸ h.unlocked hl).tail
  · rw [hlock]
    intro hl
    have hmark := h.mark hl
    rw [hoff hl, hused] at hmark
    exact Nat.le_of_succ_le_succ hmark
  · rw [hlock]
    intro hl
    have hclosed := h.queued hl
    rw [hoff hl, hq, List.take_succ_cons] at hclosed
    exact hclosed.tail
  · rw [hlock]
    intro hl
    have hnoend := h.composed hl
    rw [hoff hl, hq, List.drop_succ_cons] at hnoend
    exact hnoend
  · intro hfits
    rw [TerminatorFits, hlock, hovf, hhead, hstart]
    intro hl ho hn
    have hfree := hfits hl ho hn
    unfold txqFree at hfree ⊢
    omega

end

/-! #### The operations -/

/-- No encoding of a byte holds the terminator (R120). -/
theorem enc_ne_end {b c : Byte} (h : c ∈ enc b) : c ≠ 0#8 := by
  unfold enc at h
  split at h
  · rintro rfl; simp [escByte, escEndByte] at h
  · split at h
    · rintro rfl; simp [escByte, escEscByte] at h
    · next hb _ => obtain rfl := List.mem_singleton.1 h; exact hb

theorem execTxStart_keepsRing {s t : State} (h2 : V2 s.params s.engine) (h : execTxStart s = .next t) :
    KeepsRing s.params s.engine t.engine := by
  obtain ht | ⟨hunlocked, ht⟩ := execTxStart_engine h <;> rw [ht]
  · exact .of_same h2 ⟨rfl, rfl, rfl, rfl⟩ ⟨rfl, rfl, rfl⟩
  · exact .of_start h2 hunlocked

theorem execTxPush_keepsRing {b : Byte} {s t : State} (htx : TxSound s.params s.engine) (h2 : V2 s.params s.engine)
    (h : execTxPush b s = .next t) : KeepsRing s.params s.engine t.engine := by
  obtain ⟨-, rfl⟩ | ⟨-, -, rfl⟩ | ⟨hlock, -, hfree, e, he, rfl⟩ := execTxPush_eq_next h
  · exact .of_same h2 ⟨rfl, rfl, rfl, rfl⟩ ⟨rfl, rfl, rfl⟩
  · exact ⟨h2.congr ⟨rfl, rfl, rfl, rfl⟩ rfl rfl, fun _ _ hovf => nomatch hovf⟩
  · exact .of_push htx h2 hlock hfree (fun _ => enc_ne_end) he

theorem execTxClose_keepsRing {s t : State} (htx : TxSound s.params s.engine) (h2 : V2 s.params s.engine)
    (h : execTxClose s = .next t) : KeepsRing s.params s.engine t.engine := by
  obtain ⟨-, rfl⟩ | ⟨hlock, -, rfl⟩ | ⟨-, -, hfree, x, hx, rfl⟩ := execTxClose_eq_next h
  · exact .of_same h2 ⟨rfl, rfl, rfl, rfl⟩ ⟨rfl, rfl, rfl⟩
  · exact .of_rollback h2 hlock
  · obtain ⟨e₁, he₁, hend⟩ := closeSteps_engine hx
    rw [finish_engine]
    obtain hx | hx := hend <;> rw [hx] <;> exact .of_close htx h2 hfree he₁ rfl rfl rfl rfl rfl

/-- A sending node has a frame queued (V3), so the ring is not empty and its first byte belongs to that frame. -/
theorem drainStep_keepsRing {p : Params} {e : Engine} {x : Eff} (hs : Sound p e) (h2 : V2 p e) (hst : e.state = .sending)
    (h : drainStep p e = .ok x) : KeepsRing p e x.engine := by
  obtain ⟨htx, -⟩ := sound_iff.1 hs
  obtain ⟨-, -, hsending⟩ := hs.v3
  have hqueued : 0 < e.txPending := hsending hst
  obtain ⟨hempty, -⟩ | ⟨hne, -, rfl⟩ := drainStep_eq_ok h
  · have hused : txqUsed p e = 0 := by rw [txqUsed_eq htx.head htx.tail, hempty]; simp
    have hle : (ringContent p e).count 0#8 ≤ (ringContent p e).length := List.count_le_length
    rw [h2.count, ringContent_length, hused] at hle
    omega
  · simp only [Eff.sending]
    split
    · next hend => exact .of_drain htx h2 hqueued hne rfl rfl rfl ⟨rfl, rfl, rfl⟩ (by simp [hend])
    · next hbyte => exact .of_drain htx h2 hqueued hne rfl rfl rfl ⟨rfl, rfl, rfl⟩ (by simp [hbyte])

theorem execTxReady_keepsRing {s t : State} (hs : Sound s.params s.engine) (h2 : V2 s.params s.engine)
    (h : execTxReady s = .next t) : KeepsRing s.params s.engine t.engine := by
  obtain ht | ⟨hst, x, hx, ht⟩ := execTxReady_engine h <;> rw [ht]
  · exact .of_same h2 ⟨rfl, rfl, rfl, rfl⟩ ⟨rfl, rfl, rfl⟩
  · exact drainStep_keepsRing hs h2 hst hx

theorem receive_keepsRing {c : Byte} {s t : State} (h2 : V2 s.params s.engine) (h : receive c s = .next t) :
    KeepsRing s.params s.engine t.engine :=
  .of_same h2 (receive_frame h).ring (receive_frame h).producer

/-- Every operation keeps V2 and the room for the terminator of pushed bytes. -/
theorem exec_keepsRing {i : Instr} {s t : State} (hs : Sound s.params s.engine) (h2 : V2 s.params s.engine)
    (h : exec i s = .next t) : KeepsRing s.params s.engine t.engine := by
  obtain ⟨htx, -⟩ := sound_iff.1 hs
  cases i with
  | setChipId id => cases h; exact .of_same h2 ⟨rfl, rfl, rfl, rfl⟩ ⟨rfl, rfl, rfl⟩
  | setPriority v => cases h; exact .of_same h2 ⟨rfl, rfl, rfl, rfl⟩ ⟨rfl, rfl, rfl⟩
  | isIdle => cases h; exact .of_same h2 ⟨rfl, rfl, rfl, rfl⟩ ⟨rfl, rfl, rfl⟩
  | txStart => exact execTxStart_keepsRing h2 h
  | txPush b => exact execTxPush_keepsRing htx h2 h
  | txClose => exact execTxClose_keepsRing htx h2 h
  | rxRead slot offset => rw [execRxRead_engine h]; exact .of_same h2 ⟨rfl, rfl, rfl, rfl⟩ ⟨rfl, rfl, rfl⟩
  | rxRelease slot =>
    obtain ⟨-, hring, hprod, -⟩ := execRxRelease_frame h
    exact .of_same h2 hring hprod
  | txReady => exact execTxReady_keepsRing hs h2 h
  | rxByte c => exact receive_keepsRing h2 h
  | endSym => exact receive_keepsRing h2 h
  | esc => exact receive_keepsRing h2 h
  | escEnd => exact receive_keepsRing h2 h
  | escEsc => exact receive_keepsRing h2 h
  | lit b => exact receive_keepsRing h2 h

/-! #### Reset and steps -/

/-- The ring is empty after reset. -/
theorem reset_ringContent (p : Params) : ringContent p (Engine.reset p) = [] := by
  have hused : txqUsed p (Engine.reset p) = 0 := by simp [txqUsed, Engine.reset]
  rw [ringContent, hused, ringCells]

theorem reset_v2 {p : Params} (hp : p.Legal) : V2 p (Engine.reset p) where
  bound := Nat.lt_of_lt_of_le (Nat.zero_lt_succ 3) hp.1
  count := by rw [reset_ringContent]; rfl
  unlocked _ := .inl (reset_ringContent p)
  mark := nofun
  queued := nofun
  composed := nofun

/-- Settles O10: the parts of `Sound` hold of the values of R40, and V2 holds of an empty ring. -/
theorem resetSatisfiesTheInvariants : Obligations.ResetSatisfiesTheInvariants :=
  fun _ hp => ⟨reset_sound hp, reset_v2 hp⟩

/-- Settles O12: each operation keeps V2 by what it does to the ring content (nothing, append, cut at the frame mark, drop the
first byte); reset empties the ring. -/
theorem everyStepKeepsTheRing : Obligations.EveryStepKeepsTheRing := by
  intro s t hs h2 h
  have hkeeps : KeepsRing s.params s.engine t.engine := by
    refine step_engine h (.of_same h2 ⟨rfl, rfl, rfl, rfl⟩ ⟨rfl, rfl, rfl⟩) ⟨reset_v2 hs.legal, fun _ => nofun⟩ ?_
    intro i u v hparams hengine hexec
    rw [← hparams, ← hengine]
    refine exec_keepsRing ?_ ?_ hexec
    · rw [hparams, hengine]; exact hs.engine
    · rw [hparams, hengine]; exact h2
  rw [parametersNeverChange s t h]
  exact ⟨hkeeps.v2, Nat.le_sub_one_of_lt hkeeps.v2.bound, hkeeps.fits⟩

end Sys2Proof.Machine

/-! ### A TX_CLOSE that is refused (R203, R206 e, R251) -/

namespace Sys2Proof.Machine

/-- A TX_CLOSE under the lock rolls the frame back if it is marked, or if its terminator finds no free cell. -/
theorem execTxClose_of_overflow {s : State} (hlock : s.engine.txLock = true)
    (hover : s.engine.txOvf = true ∨ txqFree s.params s.engine = 0) :
    execTxClose s = .next (s.finish (txRollback s.engine) [] (Answer.plain .rejected)) := by
  have hmarked : (markOverflow s.params [] s.engine).txOvf = true :=
    markOverflow_txOvf.2 (hover.imp_right fun hfull => by simp [hfull])
  rw [execTxClose, if_neg (by simp [hlock]), if_pos hmarked, txRollback_markOverflow]

/-- Where pushed bytes leave a cell for their terminator, an unmarked frame on a full ring has no pushed byte. -/
theorem txHead_eq_frameStart_of_full {p : Params} {e : Engine} (hfits : TerminatorFits p e) (hlock : e.txLock = true)
    (hovf : e.txOvf = false) (hfull : txqFree p e = 0) : e.txHead = e.txFrameStart := by
  by_contra hpushed
  have hcell : 1 ≤ txqFree p e := hfits hlock hovf hpushed
  omega

/-- Settles O13: the full ring sets the mark, so the frame is rolled back; that frame is empty, so the rollback moves no head. -/
theorem closeOnAFullRingIsRefused : Obligations.CloseOnAFullRingIsRefused := by
  rintro s ⟨hlock, hovf, hfull⟩
  have hclose : exec .txClose s = .next (s.finish (txRollback s.engine) [] (Answer.plain .rejected)) :=
    execTxClose_of_overflow hlock (.inr hfull)
  refine ⟨hclose, fun _ hfits t ht => ?_⟩
  rw [hclose] at ht
  cases ht
  have hhead : s.engine.txHead = s.engine.txFrameStart := txHead_eq_frameStart_of_full hfits hlock hovf hfull
  exact ringContent_congr rfl hhead.symm rfl

end Sys2Proof.Machine

/-! ### The fields of a command word and of its operand (R96, R97) -/

namespace Sys2Proof

@[simp] theorem cmdOp_mkCmd (op : BitVec 4) (a : BitVec 16) : cmdOp (mkCmd op a) = op := BitVec.extractLsb'_append_eq_left

@[simp] theorem cmdArg_mkCmd (op : BitVec 4) (a : BitVec 16) : cmdArg (mkCmd op a) = a := BitVec.extractLsb'_append_eq_right

@[simp] theorem argId_append (hi : BitVec 2) (id : BitVec 14) : argId (hi ++ id) = id := BitVec.extractLsb'_append_eq_right

@[simp] theorem argByte_append (hi b : Byte) : argByte (hi ++ b) = b := BitVec.extractLsb'_append_eq_right

@[simp] theorem argSlot_append (slot : BitVec 4) (lo : BitVec 12) : argSlot (slot ++ lo) = slot :=
  BitVec.extractLsb'_append_eq_left

@[simp] theorem argOffset_append (slot : BitVec 4) (offset : BitVec 12) : argOffset (slot ++ offset) = offset :=
  BitVec.extractLsb'_append_eq_right

section
variable {w : CmdWord}

/-- A field of `arg` is the same field of the command word, whose low half `arg` is. -/
theorem extractLsb'_cmdArg (w : CmdWord) {start len : Nat} (h : start + len ≤ 16) :
    (cmdArg w).extractLsb' start len = w.extractLsb' start len := by
  apply BitVec.eq_of_getLsbD_eq
  intro k hk
  have hlow : start + k < 16 := by omega
  simp [cmdArg, hlow]

theorem argId_cmdArg (w : CmdWord) : argId (cmdArg w) = w.extractLsb' 0 14 := extractLsb'_cmdArg w (by decide)
theorem argByte_cmdArg (w : CmdWord) : argByte (cmdArg w) = w.extractLsb' 0 8 := extractLsb'_cmdArg w (by decide)
theorem argSlot_cmdArg (w : CmdWord) : argSlot (cmdArg w) = w.extractLsb' 12 4 := extractLsb'_cmdArg w (by decide)

/-! ### The operation map, row by row (R97, R98) -/

theorem decodeCommand_setChipId (h : cmdOp w = 1#4) : decodeCommand w = .ok (.setChipId (argId (cmdArg w))) := by
  simp [decodeCommand, h]
theorem decodeCommand_setPriority (h : cmdOp w = 2#4) : decodeCommand w = .ok (.setPriority (cmdArg w)) := by
  simp [decodeCommand, h]
theorem decodeCommand_isIdle (h : cmdOp w = 3#4) : decodeCommand w = .ok .isIdle := by
  simp [decodeCommand, h]
theorem decodeCommand_txStart (h : cmdOp w = 4#4) : decodeCommand w = .ok .txStart := by
  simp [decodeCommand, h]
theorem decodeCommand_txPush (h : cmdOp w = 5#4) : decodeCommand w = .ok (.txPush (argByte (cmdArg w))) := by
  simp [decodeCommand, h]
theorem decodeCommand_txClose (h : cmdOp w = 6#4) : decodeCommand w = .ok .txClose := by
  simp [decodeCommand, h]
theorem decodeCommand_rxRead (h : cmdOp w = 7#4) :
    decodeCommand w = .ok (.rxRead (argSlot (cmdArg w)) (argOffset (cmdArg w))) := by
  simp [decodeCommand, h]
theorem decodeCommand_rxRelease (h : cmdOp w = 8#4) : decodeCommand w = .ok (.rxRelease (argSlot (cmdArg w))) := by
  simp [decodeCommand, h]
theorem decodeCommand_rxByte (h : cmdOp w = 9#4) : decodeCommand w = .ok (.rxByte (argByte (cmdArg w))) := by
  simp [decodeCommand, h]
theorem decodeCommand_txReady (h : cmdOp w = 10#4) : decodeCommand w = .ok .txReady := by
  simp [decodeCommand, h]

/-- The codes of R98 that name no operation. -/
abbrev ReservedOp (op : BitVec 4) : Prop := op = 0#4 ∨ 11 ≤ op.toNat

theorem decodeCommand_reserved (h : ReservedOp (cmdOp w)) : decodeCommand w = .error (.reservedOp (cmdOp w)) := by
  have hcode : (cmdOp w).toNat = 0 ∨ 11 ≤ (cmdOp w).toNat := h.imp_left (congrArg BitVec.toNat)
  unfold decodeCommand
  split <;> try omega
  rfl

/-- Every operation code is a row of the map or reserved. -/
theorem opcode_cases (op : BitVec 4) :
    ReservedOp op ∨ op = 1#4 ∨ op = 2#4 ∨ op = 3#4 ∨ op = 4#4 ∨ op = 5#4 ∨ op = 6#4 ∨ op = 7#4 ∨ op = 8#4 ∨
      op = 9#4 ∨ op = 10#4 := by
  revert op; decide

end

/-- Settles O3: each word has the code of its row, and its operand fields are read off. -/
theorem wordsOfTheVectorsDecode : Obligations.WordsOfTheVectorsDecode :=
  ⟨decodeCommand_setChipId rfl, decodeCommand_setChipId rfl, decodeCommand_setPriority rfl, decodeCommand_isIdle rfl,
    decodeCommand_txPush rfl, decodeCommand_rxRead rfl, decodeCommand_rxRelease rfl, decodeCommand_rxByte rfl,
    decodeCommand_txReady rfl⟩

/-- Settles O2: by the row of the common operation code, whose instruction is built from the bits the hypothesis gives, or from
none; the error of a reserved code names the code alone. -/
theorem unusedOperandBitsAreIgnored : Obligations.UnusedOperandBitsAreIgnored := by
  rintro w w' hop ⟨hid, hprio, hpush, hread, hrelease, hbyte⟩
  have hop' : cmdOp w' = cmdOp w := hop.symm
  obtain h | h | h | h | h | h | h | h | h | h | h := opcode_cases (cmdOp w)
  · rw [decodeCommand_reserved h, decodeCommand_reserved (hop' ▸ h), hop']
  · rw [decodeCommand_setChipId h, decodeCommand_setChipId (hop'.trans h), argId_cmdArg, argId_cmdArg, hid h]
  · rw [decodeCommand_setPriority h, decodeCommand_setPriority (hop'.trans h), cmdArg, cmdArg, hprio h]
  · rw [decodeCommand_isIdle h, decodeCommand_isIdle (hop'.trans h)]
  · rw [decodeCommand_txStart h, decodeCommand_txStart (hop'.trans h)]
  · rw [decodeCommand_txPush h, decodeCommand_txPush (hop'.trans h), argByte_cmdArg, argByte_cmdArg, hpush h]
  · rw [decodeCommand_txClose h, decodeCommand_txClose (hop'.trans h)]
  · rw [decodeCommand_rxRead h, decodeCommand_rxRead (hop'.trans h), cmdArg, cmdArg, hread h]
  · rw [decodeCommand_rxRelease h, decodeCommand_rxRelease (hop'.trans h), argSlot_cmdArg, argSlot_cmdArg, hrelease h]
  · rw [decodeCommand_rxByte h, decodeCommand_rxByte (hop'.trans h), argByte_cmdArg, argByte_cmdArg, hbyte h]
  · rw [decodeCommand_txReady h, decodeCommand_txReady (hop'.trans h)]

/-! ### The wire symbols (R90) -/

@[simp] theorem decodeWire_end (rxEsc : Bool) : decodeWire rxEsc endByte = .ok .endSym := rfl

theorem decodeWire_esc : decodeWire false escByte = .ok .esc := rfl

theorem decodeWire_escEnd : decodeWire true escEndByte = .ok .escEnd := rfl

theorem decodeWire_escEsc : decodeWire true escEscByte = .ok .escEsc := rfl

theorem decodeWire_lit {b : Byte} (hend : b ≠ endByte) (hesc : b ≠ escByte) : decodeWire false b = .ok (.lit b) := by
  simp [decodeWire, hend, hesc]

theorem decodeWire_invalidEscape {b : Byte} (hend : b ≠ endByte) (hescEnd : b ≠ escEndByte) (hescEsc : b ≠ escEscByte) :
    decodeWire true b = .error (.invalidEscape b) := by
  simp [decodeWire, hend, hescEnd, hescEsc]

/-- Settles O4: the rows of the table, one lemma each. -/
theorem wireSymbolsAreClassified : Obligations.WireSymbolsAreClassified :=
  ⟨decodeWire_end, decodeWire_esc, decodeWire_escEnd, decodeWire_escEsc, fun _ => decodeWire_lit,
    fun _ => decodeWire_invalidEscape⟩

theorem wellFormed_lit_iff {b : Byte} : (Instr.lit b).wellFormed = true ↔ b ≠ endByte ∧ b ≠ escByte := by
  simp [Instr.wellFormed]

/-- Settles O1: each encoding is a command word with the code of its row, whose fields are the operands, or the byte of its
symbol. -/
theorem decodeOfEncodeIsTheInstruction : Obligations.DecodeOfEncodeIsTheInstruction := by
  intro i hwf
  cases i with
  | setChipId id => exact (decodeCommand_setChipId (cmdOp_mkCmd _ _)).trans (by rw [cmdArg_mkCmd, argId_append])
  | setPriority v => exact (decodeCommand_setPriority (cmdOp_mkCmd _ _)).trans (by rw [cmdArg_mkCmd])
  | isIdle => exact decodeCommand_isIdle (cmdOp_mkCmd 3 0)
  | txStart => exact decodeCommand_txStart (cmdOp_mkCmd 4 0)
  | txPush b => exact (decodeCommand_txPush (cmdOp_mkCmd _ _)).trans (by rw [cmdArg_mkCmd, argByte_append])
  | txClose => exact decodeCommand_txClose (cmdOp_mkCmd 6 0)
  | rxRead slot offset =>
    exact (decodeCommand_rxRead (cmdOp_mkCmd _ _)).trans (by rw [cmdArg_mkCmd, argSlot_append, argOffset_append])
  | rxRelease slot => exact (decodeCommand_rxRelease (cmdOp_mkCmd _ _)).trans (by rw [cmdArg_mkCmd, argSlot_append])
  | rxByte c => exact (decodeCommand_rxByte (cmdOp_mkCmd _ _)).trans (by rw [cmdArg_mkCmd, argByte_append])
  | txReady => exact decodeCommand_txReady (cmdOp_mkCmd 10 0)
  | endSym => exact decodeWire_end false
  | esc => exact decodeWire_esc
  | escEnd => exact decodeWire_escEnd
  | escEsc => exact decodeWire_escEsc
  | lit b =>
    obtain ⟨hend, hesc⟩ := wellFormed_lit_iff.1 hwf
    exact decodeWire_lit hend hesc

/-! ### What a byte on the wire is run as (R91) -/

section
variable {inBody rxEsc : Bool} {b : Byte}

/-- END anywhere, and every symbol in a frame body. -/
theorem wireInstr_of_symbol {i : Instr} (hctx : b = endByte ∨ inBody = true) (h : decodeWire rxEsc b = .ok i) :
    wireInstr inBody rxEsc b = i := by
  unfold wireInstr
  by_cases hend : b = endByte
  · subst hend
    rw [decodeWire_end] at h
    cases h
    exact if_pos rfl
  · rw [if_neg hend, if_pos (hctx.resolve_left hend), h]

/-- A data byte outside a frame body, and the invalid escape. -/
theorem wireInstr_of_no_symbol {r : DecodeError} (hend : b ≠ endByte)
    (h : inBody = false ∨ decodeWire rxEsc b = .error r) : wireInstr inBody rxEsc b = .rxByte b := by
  unfold wireInstr
  rw [if_neg hend]
  cases inBody with
  | false => rfl
  | true => rw [if_pos rfl, h.resolve_left nofun]

end

theorem ok_of_toOption {x : Except DecodeError Instr} {i : Instr} (h : x.toOption = some i) : x = .ok i := by
  cases x with
  | ok j => cases h; rfl
  | error r => cases h

/-- The two formats of the opcode table's rows. -/
theorem decodeTableWord_eq_some {nbits w : Nat} {i : Instr} (h : decodeTableWord nbits w = some i) :
    if nbits ≤ 8 then decodeWire (tableEsc (BitVec.ofNat 8 w)) (BitVec.ofNat 8 w) = .ok i
    else decodeCommand (BitVec.ofNat 20 w) = .ok i := by
  unfold decodeTableWord tableEncoded at h
  split_ifs at h ⊢ with hn hw hw
  · exact ok_of_toOption h
  · exact ok_of_toOption h

end Sys2Proof

/-! ### Serving a command word and a wire byte (R91, R96, R98) -/

namespace Sys2Proof.Machine

section
variable {s : State} {w : CmdWord} {b : Byte} {now : Nat} {rest : List Input} {i : Instr} {r : DecodeError}

theorem step_command (hp : s.port.pending = .command w now :: rest) (hd : decodeCommand w = .ok i) :
    step s = exec i (s.accept (.command w now) rest) := by
  rw [step_of_pending hp, serve, serveCommand, hd]

theorem step_command_error (hp : s.port.pending = .command w now :: rest) (hd : decodeCommand w = .error r) :
    step s = (s.accept (.command w now) rest).turnAway .rejected := by
  rw [step_of_pending hp, serve, serveCommand, hd]

theorem step_wireByte (hp : s.port.pending = .wireByte b now :: rest) :
    step s = exec (wireInstr (decide (s.engine.state = .receiving)) s.engine.rxEsc b) (s.accept (.wireByte b now) rest) := by
  rw [step_of_pending hp]; rfl

theorem step_wireByte_symbol (hp : s.port.pending = .wireByte b now :: rest)
    (hctx : b = endByte ∨ s.engine.state = .receiving) (hd : decodeWire s.engine.rxEsc b = .ok i) :
    step s = exec i (s.accept (.wireByte b now) rest) := by
  rw [step_wireByte hp, wireInstr_of_symbol (hctx.imp_right (decide_eq_true ·)) hd]

theorem step_wireByte_no_symbol (hp : s.port.pending = .wireByte b now :: rest) (hend : b ≠ endByte)
    (h : s.engine.state ≠ .receiving ∨ decodeWire s.engine.rxEsc b = .error r) :
    step s = exec (.rxByte b) (s.accept (.wireByte b now) rest) := by
  rw [step_wireByte hp, wireInstr_of_no_symbol hend (h.imp_left (decide_eq_false ·))]

theorem step_of_no_input (hp : s.port.pending = []) : step s = .next s := by
  unfold step; rw [hp]

end

/-- Settles O5: a command word by its decoding, a wire byte by what it is to the receive path. -/
theorem stepRunsTheDecodedInstruction : Obligations.StepRunsTheDecodedInstruction :=
  ⟨fun _ _ _ _ _ => step_command, fun _ _ _ _ _ => step_wireByte_symbol, fun _ _ _ _ _ => step_wireByte_no_symbol,
    fun _ => step_of_no_input⟩

/-! #### A slot field beyond the pool (R98) -/

theorem execRxRead_of_no_slot {s : State} {slot : BitVec 4} (offset : BitVec 12) (h : s.params.nSlots ≤ slot.toNat) :
    exec (.rxRead slot offset) s = s.turnAway .rejected := if_pos h

theorem execRxRelease_of_no_slot {s : State} {slot : BitVec 4} (h : s.params.nSlots ≤ slot.toNat) :
    exec (.rxRelease slot) s = s.turnAway .rejected := if_pos h

/-- Settles O7: a reserved code fails to decode, and RX_READ and RX_RELEASE turn a slot field beyond the pool away. -/
theorem reservedCommandsAreRejected : Obligations.ReservedCommandsAreRejected := by
  intro s w now rest hp h
  have hreserved : ReservedOp (cmdOp w) ∨
      ((cmdOp w = 7#4 ∨ cmdOp w = 8#4) ∧ s.params.nSlots ≤ (argSlot (cmdArg w)).toNat) := by
    rw [argSlot_cmdArg]
    exact or_assoc.2 h
  have hstep : step s = (s.accept (.command w now) rest).turnAway .rejected := by
    obtain hop | ⟨hread | hrelease, hslot⟩ := hreserved
    · exact step_command_error hp (decodeCommand_reserved hop)
    · exact (step_command hp (decodeCommand_rxRead hread)).trans (execRxRead_of_no_slot _ hslot)
    · exact (step_command hp (decodeCommand_rxRelease hrelease)).trans (execRxRelease_of_no_slot hslot)
  exact hstep

/-! #### The rows of the opcode table at the port (R90, log entries 3, 5) -/

section
variable (s : State) (b : Byte)

@[simp] theorem inRowContext_port : (s.inRowContext b).port = s.port := by
  unfold State.inRowContext; split <;> rfl

theorem inRowContext_state : b = endByte ∨ (s.inRowContext b).engine.state = .receiving := by
  unfold State.inRowContext; split
  · next hend => exact .inl hend
  · exact .inr rfl

/-- In its row's context a byte is classified with its row's flag; END is classified alike with either flag. -/
theorem decodeWire_inRowContext : decodeWire (s.inRowContext b).engine.rxEsc b = decodeWire (tableEsc b) b := by
  unfold State.inRowContext; split
  · next hend => rw [hend, decodeWire_end, decodeWire_end]
  · rfl

end

/-- Accepting the input just presented, at the present tick, restores the machine. -/
theorem accept_present {s : State} {x : Input} (hnow : x.tickOr s.port.now = s.port.now) :
    (s.present x).accept x s.port.pending = s := by
  simp [State.accept, State.present, hnow]

theorem withFetchWord_command (s : State) {nbits : Nat} (hn : ¬ nbits ≤ 8) (w : Nat) :
    s.withFetchWord nbits w = s.present (.command (BitVec.ofNat 20 w) s.port.now) := if_neg hn

theorem withFetchWord_wire (s : State) {nbits : Nat} (hn : nbits ≤ 8) (w : Nat) :
    s.withFetchWord nbits w = (s.inRowContext (BitVec.ofNat 8 w)).present (.wireByte (BitVec.ofNat 8 w) s.port.now) :=
  if_pos hn

/-- Settles O6: the presented input is the next one, it decodes to the row's instruction in the context it is presented in, and
accepting it leaves the machine as it was before. -/
theorem presentedRowIsRunNext : Obligations.PresentedRowIsRunNext := by
  intro s nbits w i h
  have hd := decodeTableWord_eq_some h
  split_ifs at hd ⊢ with hn
  · rw [withFetchWord_wire s hn, step_wireByte_symbol (present_pending _ _) (inRowContext_state s _)
      ((decodeWire_inRowContext s _).trans hd), accept_present (by rw [inRowContext_port]; rfl)]
  · rw [withFetchWord_command s hn, step_command (present_pending _ _) hd, accept_present rfl]

end Sys2Proof.Machine

/-! ### The encoder of the frame codec (R120, R121, R130) -/

namespace Sys2Proof.Machine

/-! #### The encoding of one byte (R120) -/

theorem enc_end : enc endByte = [escByte, escEndByte] := rfl

theorem enc_esc : enc escByte = [escByte, escEscByte] := rfl

theorem enc_lit {b : Byte} (hend : b ≠ endByte) (hesc : b ≠ escByte) : enc b = [b] := by
  rw [enc, if_neg hend, if_neg hesc]

/-- A byte is the terminator, the escape byte, or a literal. -/
theorem byte_cases (b : Byte) : b = endByte ∨ b = escByte ∨ (b ≠ endByte ∧ b ≠ escByte) := by
  tauto

/-- A byte takes one cell, and one more if it is escaped. -/
theorem enc_length (b : Byte) : (enc b).length = 1 + [b].count endByte + [b].count escByte := by
  obtain rfl | rfl | ⟨hend, hesc⟩ := byte_cases b
  · rfl
  · rfl
  · rw [enc_lit hend hesc, List.count_singleton, List.count_singleton, if_neg (by simpa using hend),
      if_neg (by simpa using hesc)]
    rfl

theorem enc_length_le (b : Byte) : (enc b).length ≤ 2 := by
  obtain rfl | rfl | ⟨hend, hesc⟩ := byte_cases b
  · exact Nat.le_refl 2
  · exact Nat.le_refl 2
  · rw [enc_lit hend hesc]; exact Nat.le_succ 1

/-! #### The encoding of a byte string (R121) -/

@[simp] theorem encodeBytes_nil : encodeBytes [] = [] := rfl

@[simp] theorem encodeBytes_cons (b : Byte) (bs : List Byte) : encodeBytes (b :: bs) = enc b ++ encodeBytes bs := rfl

theorem encodeBytes_singleton (b : Byte) : encodeBytes [b] = enc b := List.append_nil (enc b)

@[simp] theorem encodeBytes_append (bs cs : List Byte) : encodeBytes (bs ++ cs) = encodeBytes bs ++ encodeBytes cs := by
  induction bs with
  | nil => rfl
  | cons b bs ih => rw [List.cons_append, encodeBytes_cons, encodeBytes_cons, ih, List.append_assoc]

theorem encodeBytes_length (bs : List Byte) :
    (encodeBytes bs).length = bs.length + bs.count endByte + bs.count escByte := by
  induction bs with
  | nil => rfl
  | cons b bs ih =>
    have hcount (x : Byte) : (b :: bs).count x = [b].count x + bs.count x := List.count_append (l₁ := [b])
    rw [encodeBytes_cons, List.length_append, enc_length, ih, hcount, hcount, List.length_cons]
    omega

theorem encodeBytes_length_le (bs : List Byte) : (encodeBytes bs).length ≤ 2 * bs.length := by
  induction bs with
  | nil => exact Nat.le_refl 0
  | cons b bs ih =>
    have hb : (enc b).length ≤ 2 := enc_length_le b
    rw [encodeBytes_cons, List.length_append, List.length_cons]
    omega

/-- No encoding holds the terminator, since the encoding of no byte does. -/
theorem end_notMem_encodeBytes (bs : List Byte) : endByte ∉ encodeBytes bs := by
  induction bs with
  | nil => exact List.not_mem_nil
  | cons b bs ih =>
    rw [encodeBytes_cons, List.mem_append]
    rintro (hb | hbs)
    · exact enc_ne_end hb rfl
    · exact ih hbs

/-! #### Every escape byte of an encoding is completed (R130) -/

/-- Wherever `ws` holds the escape byte, the next byte is one of the two that complete it. -/
def EscapesCompleted (ws : List Byte) : Prop :=
  ∀ pre post, ws = pre ++ escByte :: post → ∃ c rest, post = c :: rest ∧ (c = escEndByte ∨ c = escEscByte)

theorem EscapesCompleted.of_notMem {ws : List Byte} (h : escByte ∉ ws) : EscapesCompleted ws := by
  rintro pre post rfl
  exact absurd (List.mem_append_right pre List.mem_cons_self) h

/-- One escape pair: the escape byte can only be its first byte. -/
theorem EscapesCompleted.of_pair {c : Byte} (hc : c = escEndByte ∨ c = escEscByte) : EscapesCompleted [escByte, c] := by
  intro pre post h
  cases pre with
  | nil =>
    obtain ⟨-, rfl⟩ := List.cons.inj h
    exact ⟨c, [], rfl, hc⟩
  | cons x pre =>
    have hmem : escByte ∈ [c] := (List.cons.inj h).2 ▸ List.mem_append_right pre List.mem_cons_self
    obtain rfl := List.mem_singleton.1 hmem
    exact absurd hc (by decide)

/-- An escape byte of a concatenation lies in one of its parts, and what completes it there is still next. -/
theorem EscapesCompleted.append {ws vs : List Byte} (hws : EscapesCompleted ws) (hvs : EscapesCompleted vs) :
    EscapesCompleted (ws ++ vs) := by
  intro pre post h
  obtain ⟨mid, -, hright⟩ | ⟨mid, hleft, hright⟩ := List.append_eq_append_iff.1 h
  · exact hvs mid post hright
  · cases mid with
    | nil => exact hvs [] post hright.symm
    | cons x mid =>
      obtain ⟨rfl, rfl⟩ := List.cons.inj hright
      obtain ⟨c, rest, rfl, hc⟩ := hws pre mid hleft
      exact ⟨c, rest ++ vs, rfl, hc⟩

theorem enc_escapesCompleted (b : Byte) : EscapesCompleted (enc b) := by
  obtain rfl | rfl | ⟨hend, hesc⟩ := byte_cases b
  · exact .of_pair (.inl rfl)
  · exact .of_pair (.inr rfl)
  · rw [enc_lit hend hesc]
    exact .of_notMem fun hmem => hesc (List.mem_singleton.1 hmem).symm

theorem encodeBytes_escapesCompleted (bs : List Byte) : EscapesCompleted (encodeBytes bs) := by
  induction bs with
  | nil => exact .of_notMem List.not_mem_nil
  | cons b bs ih => exact (enc_escapesCompleted b).append ih

/-- Settles O20: the encoding of a string is put together from those of its bytes, each of one or two bytes. -/
theorem encodingIsAConcatenation : Obligations.EncodingIsAConcatenation :=
  ⟨encodeBytes_nil, encodeBytes_singleton, encodeBytes_append, fun bs => ⟨encodeBytes_length bs, encodeBytes_length_le bs⟩⟩

/-- Settles O19: both properties pass from the encodings of the bytes to their concatenation. -/
theorem encodingHasNoStraySymbol : Obligations.EncodingHasNoStraySymbol :=
  ⟨fun bs => ⟨end_notMem_encodeBytes bs, encodeBytes_escapesCompleted bs⟩, rfl⟩

end Sys2Proof.Machine

/-! ### The decoder of the frame codec (R122 to R129, R131) -/

namespace Sys2Proof.Machine

section
variable {c : Byte}

/-! #### One decode step, case by case (R123 to R127) -/

theorem decStepOf_lit (hesc : c ≠ escByte) : decStepOf false c = { rxEsc := false, byte := some c, desync := false } :=
  if_neg hesc

theorem decStepOf_esc : decStepOf false escByte = { rxEsc := true, byte := none, desync := false } := rfl

theorem decStepOf_escEnd : decStepOf true escEndByte = { rxEsc := false, byte := some endByte, desync := false } := rfl

theorem decStepOf_escEsc : decStepOf true escEscByte = { rxEsc := false, byte := some escByte, desync := false } := rfl

theorem decStepOf_invalidEscape (hescEnd : c ≠ escEndByte) (hescEsc : c ≠ escEscByte) :
    decStepOf true c = { rxEsc := false, byte := none, desync := true } :=
  (if_neg hescEnd).trans (if_neg hescEsc)

/-! #### The stream form (R131) -/

/-- A decoded byte in front of what the decoder makes of the rest. -/
def Decoded.cons (b : Byte) (r : Decoded) : Decoded := { r with bytes := b :: r.bytes }

/-- A step that emits a byte puts it in front of the rest. -/
theorem decodeFrom_cons_of_byte {rxEsc rxEsc' : Bool} {b : Byte} (ws : List Byte)
    (h : decStepOf rxEsc c = { rxEsc := rxEsc', byte := some b, desync := false }) :
    decodeFrom rxEsc (c :: ws) = (decodeFrom rxEsc' ws).cons b := by
  simp [decodeFrom, h, Decoded.cons]

/-- The escape byte of a pair emits nothing and sets the flag. -/
theorem decodeFrom_cons_esc (ws : List Byte) : decodeFrom false (escByte :: ws) = decodeFrom true ws := by
  simp [decodeFrom, decStepOf_esc]

/-- The encoding of one byte decodes to that byte and leaves no escape pending. -/
theorem decodeFrom_enc_append (b : Byte) (ws : List Byte) :
    decodeFrom false (enc b ++ ws) = (decodeFrom false ws).cons b := by
  obtain rfl | rfl | ⟨hend, hesc⟩ := byte_cases b
  · exact (decodeFrom_cons_esc _).trans (decodeFrom_cons_of_byte ws decStepOf_escEnd)
  · exact (decodeFrom_cons_esc _).trans (decodeFrom_cons_of_byte ws decStepOf_escEsc)
  · rw [enc_lit hend hesc]
    exact decodeFrom_cons_of_byte ws (decStepOf_lit hesc)

/-! #### The decode step on the engine (R122, R127) -/

theorem decStep_invalidEscape {e : Engine} (p : Params) (hpending : e.rxEsc = true) (hescEnd : c ≠ escEndByte)
    (hescEsc : c ≠ escEscByte) : decStep p c e = .ok (Eff.report { e with rxEsc := false } .desync) := by
  rw [decStep, hpending, decStepOf_invalidEscape hescEnd hescEsc]
  rfl

/-- A data byte in `Receiving` is a decode step, after the timestamp is written (R161, R177). -/
theorem rxByteStep_receiving {e : Engine} (p : Params) (now : Nat) (hstate : e.state = .receiving) (hend : c ≠ endByte) :
    rxByteStep p now c e = decStep p c { e with lastActivity := now } := by
  rw [rxByteStep, if_neg hend, dataStep, hstate]

end

/-- Settles O18: by induction on the string, one encoded byte at a time. -/
theorem codecRoundTrip : Obligations.CodecRoundTrip := by
  intro bs
  rw [decodeBytes]
  induction bs with
  | nil => rfl
  | cons b bs ih => rw [encodeBytes_cons, decodeFrom_enc_append, ih, Decoded.cons]

/-- Settles O56: the byte is a data byte of the frame, and its decode step is the invalid escape of R127. -/
theorem anInvalidEscapeIsDropped : Obligations.AnInvalidEscapeIsDropped := by
  intro s c hstate hpending hend hescEnd hescEsc
  have hstep : rxByteStep s.params s.tick c s.engine =
      .ok (Eff.report { s.engine with lastActivity := s.tick, rxEsc := false } .desync) := by
    rw [rxByteStep_receiving s.params s.tick hstate hend]
    exact decStep_invalidEscape s.params hpending hescEnd hescEsc
  exact congrArg (s.complete · okAnswer) hstep

end Sys2Proof.Machine

/-! ### The bytes of the arbitration packet (R140, R141, R149) -/

namespace Sys2Proof.Machine

/-! #### Two registers side by side as a number -/

theorem toNat_append_add {m n : Nat} (x : BitVec m) (y : BitVec n) : (x ++ y).toNat = x.toNat * 2 ^ n + y.toNat := by
  rw [BitVec.toNat_append, ← Nat.shiftLeft_add_eq_or_of_lt y.isLt, Nat.shiftLeft_eq]

/-- The identity a packet carries in its first three bytes (R149). -/
def ArbPkt.identity (a : ArbPkt) : Identity := { priority := a.priority, chipIdHi := a.chipIdHi, chipIdLo := a.chipIdLo }

theorem Identity.number_toNat (a : Identity) :
    a.number.toNat = a.priority.toNat * 65536 + (a.chipIdHi.toNat * 256 + a.chipIdLo.toNat) := by
  rw [Identity.number, toNat_append_add, toNat_append_add]
  omega

theorem Identity.number_lt_of_priority {a b : Identity} (h : a.priority.toNat < b.priority.toNat) :
    a.number.toNat < b.number.toNat := by
  have hhi : a.chipIdHi.toNat < 256 := a.chipIdHi.isLt
  have hlo : a.chipIdLo.toNat < 256 := a.chipIdLo.isLt
  rw [a.number_toNat, b.number_toNat]
  omega

theorem Identity.number_lt_of_chipId {a b : Identity} (hprio : a.priority = b.priority)
    (h : a.chipIdHi.toNat * 256 + a.chipIdLo.toNat < b.chipIdHi.toNat * 256 + b.chipIdLo.toNat) :
    a.number.toNat < b.number.toNat := by
  rw [a.number_toNat, b.number_toNat, hprio]
  exact Nat.add_lt_add_left h _

/-! #### The priority byte -/

/-- Seven bits hold `p + 64` wherever `p` is a 7-bit signed number, so on all of R140's range. -/
theorem prioByte_toNat {p : Int} (hlow : -64 ≤ p) (hhigh : p < 64) : ((prioByte p).toNat : Int) = 2 * (p + 64) + 1 := by
  obtain ⟨n, hn⟩ := Int.eq_ofNat_of_zero_le (show 0 ≤ p + 64 by omega)
  have hseven : BitVec.ofInt 8 (p + 64) = (BitVec.ofNat 7 n).setWidth 8 := by
    apply BitVec.eq_of_toNat_eq
    rw [hn, BitVec.ofInt_natCast, BitVec.toNat_setWidth, BitVec.toNat_ofNat, BitVec.toNat_ofNat]
    omega
  rw [prioByte, BitVec.or_comm, hseven, shifted_or_one_toNat, BitVec.toNat_ofNat]
  omega

theorem prioByte_lt {p q : Int} (hlow : -60 ≤ p) (hpq : p < q) (hhigh : q ≤ 60) :
    (prioByte p).toNat < (prioByte q).toNat := by
  have hp := prioByte_toNat (p := p) (by omega) (by omega)
  have hq := prioByte_toNat (p := q) (by omega) (by omega)
  omega

/-- Settles O21: the range and the growth are those of `2 * (p + 64) + 1`. -/
theorem priorityByteIsMonotone : Obligations.PriorityByteIsMonotone := by
  intro p hlow hhigh
  have hp := prioByte_toNat (p := p) (by omega) (by omega)
  exact ⟨hp, by omega, by omega, fun q hpq hq => prioByte_lt hlow hpq hq⟩

/-! #### The chip-id bytes -/

/-- Settles O22: the default is the formula, whose two bytes are known as numbers and which meets R141. -/
theorem chipIdSpreadIsMonotone : Obligations.ChipIdSpreadIsMonotone := by
  intro p id hdefault
  obtain ⟨hhi, hlo⟩ := spread14_toNat id
  rw [← spreadOf_formula hdefault] at hhi hlo
  exact ⟨hhi, hlo, (spreads_of_formula hdefault).monotone id⟩

/-- Settles O24: a lower priority decides by the first byte; with equal priorities the first bytes agree and the chip-id pair
decides. -/
theorem identityOrdersByPriorityThenChipId : Obligations.IdentityOrdersByPriorityThenChipId := by
  intro p e f hspreads helow _ _ hfhigh horder
  change (arbRegen p e).arbPkt.identity.number.toNat < (arbRegen p f).arbPkt.identity.number.toNat
  obtain hprio | ⟨hprio, hid⟩ := horder
  · exact Identity.number_lt_of_priority (prioByte_lt helow hprio hfhigh)
  · exact Identity.number_lt_of_chipId (congrArg (fun v : Byte => prioByte v.toInt) hprio) (hspreads.monotone _ _ hid)

/-! #### No byte of a packet is END -/

theorem ne_end_of_bitZero {b : Byte} (h : b.getLsbD 0 = true) : b ≠ endByte := by
  rintro rfl
  exact absurd h (by decide)

theorem oneBitCleared_ge {b : Byte} (h : oneBitCleared b) : 0x7F ≤ b.toNat := by
  obtain ⟨k, hk, rfl⟩ := h
  revert k
  decide

/-- A map byte of a packet in the form of V7 has at most one bit cleared. -/
theorem mapByte_of_packetForm {a : ArbPkt} {i : Nat} (h : PacketForm a) (hlow : 4 ≤ i) (hhigh : i < 7) :
    a.byte i = 0xFF#8 ∨ oneBitCleared (a.byte i) := by
  obtain ⟨-, -, -, -, hmap⟩ := h
  obtain rfl | rfl | rfl : i = 4 ∨ i = 5 ∨ i = 6 := by omega
  all_goals
    obtain ⟨h4, h5, h6⟩ | ⟨h4, h5, h6⟩ | ⟨h4, h5, h6⟩ | ⟨h4, h5, h6⟩ := hmap
    all_goals simp only [ArbPkt.byte, h4, h5, h6, true_or, or_true]

theorem mapByte_ge_of_packetForm {a : ArbPkt} {i : Nat} (h : PacketForm a) (hlow : 4 ≤ i) (hhigh : i < 7) :
    0x7F ≤ (a.byte i).toNat := by
  obtain hfull | hcleared := mapByte_of_packetForm h hlow hhigh
  · rw [hfull]; decide
  · exact oneBitCleared_ge hcleared

/-- In a packet in the form of V7, bytes 0 to 2 have bit 0 set, byte 3 is 0xFF and the map bytes are at least 0x7F. -/
theorem byte_ne_end_of_packetForm {a : ArbPkt} {i : Nat} (h : PacketForm a) (hi : i < 7) : a.byte i ≠ endByte := by
  by_cases hmap : 4 ≤ i
  · intro hend
    have hge := mapByte_ge_of_packetForm h hmap hi
    rw [hend] at hge
    exact absurd hge (by decide)
  · obtain ⟨hprio, hhi, hlo, hlat, -⟩ := h
    obtain rfl | rfl | rfl | rfl : i = 0 ∨ i = 1 ∨ i = 2 ∨ i = 3 := by omega
    · exact ne_end_of_bitZero hprio
    · exact ne_end_of_bitZero hhi
    · exact ne_end_of_bitZero hlo
    · rw [ArbPkt.byte, hlat]; decide

/-- Settles O23: the packet is in the form of V7 when it is regenerated and stays so when the map is built. -/
theorem noPacketByteIsEnd : Obligations.NoPacketByteIsEnd := by
  intro p e hbitZero _ _ hpos i hi
  have hfresh : PacketForm (arbRegen p e).arbPkt :=
    ⟨prioByte_bitZero _, (hbitZero _).1, (hbitZero _).2, rfl, .inl ⟨rfl, rfl, rfl⟩⟩
  have hbuilt : PacketForm (arbBuildMap (arbRegen p e)).arbPkt := packetForm_arbBuildMap hfresh hpos
  exact ⟨byte_ne_end_of_packetForm hfresh hi, byte_ne_end_of_packetForm hbuilt hi,
    fun hmap => mapByte_ge_of_packetForm hbuilt hmap hi⟩

end Sys2Proof.Machine

/-! ### The position of the first mismatch (R143 to R145) -/

namespace Sys2Proof.Machine

/-! #### The top differing bit of two registers -/

/-- `r` is the position of the top bit in which two registers differ, counted from 1, and 0 if they are equal (R143). -/
def MismatchAt {n : Nat} (a b : BitVec n) (r : Nat) : Prop :=
  (a = b → r = 0) ∧
    (a ≠ b → ∃ k < n, r = k + 1 ∧ a.getLsbD k ≠ b.getLsbD k ∧ ∀ j, k < j → j < n → a.getLsbD j = b.getLsbD j)

section
variable {m n r : Nat}

theorem MismatchAt.of_eq (a : BitVec n) : MismatchAt a a 0 := ⟨fun _ => rfl, fun hne => absurd rfl hne⟩

theorem MismatchAt.of_bit {a b : BitVec n} {k : Nat} (hk : k < n) (hbit : a.getLsbD k ≠ b.getLsbD k)
    (habove : ∀ j, k < j → j < n → a.getLsbD j = b.getLsbD j) : MismatchAt a b (k + 1) :=
  ⟨fun heq => absurd (congrArg (·.getLsbD k) heq) hbit, fun _ => ⟨k, hk, rfl, hbit, habove⟩⟩

theorem MismatchAt.ne_zero {a b : BitVec n} (h : MismatchAt a b r) (hne : a ≠ b) : r ≠ 0 := by
  obtain ⟨k, -, rfl, -⟩ := h.2 hne
  exact Nat.succ_ne_zero k

/-- Where the upper parts agree, the lower parts decide. -/
theorem MismatchAt.append_left {y y' : BitVec n} (x : BitVec m) (h : MismatchAt y y' r) :
    MismatchAt (x ++ y) (x ++ y') r := by
  by_cases heq : y = y'
  · rw [h.1 heq, heq]
    exact .of_eq _
  · obtain ⟨k, hk, rfl, hbit, habove⟩ := h.2 heq
    refine .of_bit (by omega) (by simpa [BitVec.getLsbD_append, hk] using hbit) fun j hkj _ => ?_
    rw [BitVec.getLsbD_append, BitVec.getLsbD_append]
    split
    · exact habove j hkj ‹_›
    · rfl

/-- Where the upper parts differ, they decide, whatever the lower parts are. -/
theorem MismatchAt.append_right {x x' : BitVec m} (y y' : BitVec n) (h : MismatchAt x x' r) (hr : r ≠ 0) :
    MismatchAt (x ++ y) (x' ++ y') (r + n) := by
  obtain ⟨k, hk, rfl, hbit, habove⟩ := h.2 (mt h.1 hr)
  rw [show k + 1 + n = (k + n) + 1 by omega]
  refine .of_bit (by omega) (by simpa [BitVec.getLsbD_append] using hbit) fun j hkj hj => ?_
  rw [BitVec.getLsbD_append, BitVec.getLsbD_append, if_neg (by omega), if_neg (by omega)]
  exact habove (j - n) (by omega) (by omega)

end

/-! #### One byte (R143, R144) -/

theorem topBit_of_clear {x : Byte} {n : Nat} (h : ∀ j < n, x.getLsbD j = false) : topBit x n = 0 := by
  induction n with
  | zero => rfl
  | succ n ih =>
    rw [topBit, h n (Nat.lt_succ_self n), if_neg Bool.false_ne_true]
    exact ih fun j hj => h j (Nat.lt_succ_of_lt hj)

/-- If one of the low `n` bits is set, `topBit` is one more than the index of the highest. -/
theorem topBit_of_set {x : Byte} {n i : Nat} (hi : i < n) (hset : x.getLsbD i = true) :
    ∃ k < n, topBit x n = k + 1 ∧ x.getLsbD k = true ∧ ∀ j, k < j → j < n → x.getLsbD j = false := by
  induction n with
  | zero => exact absurd hi (Nat.not_lt_zero i)
  | succ n ih =>
    by_cases htop : x.getLsbD n = true
    · exact ⟨n, Nat.lt_succ_self n, by rw [topBit, if_pos htop], htop, fun j hj hjn => absurd hjn (by omega)⟩
    · have hin : i ≠ n := fun heq => htop (heq ▸ hset)
      obtain ⟨k, hk, hpos, hbit, habove⟩ := ih (by omega)
      refine ⟨k, by omega, by rw [topBit, if_neg htop, hpos], hbit, fun j hj hjn => ?_⟩
      obtain rfl | hlt : j = n ∨ j < n := by omega
      · exact Bool.eq_false_iff.2 htop
      · exact habove j hj hlt

theorem getMismatchPos_comm (a b : Byte) : getMismatchPos a b = getMismatchPos b a := by
  rw [getMismatchPos, BitVec.xor_comm, getMismatchPos]

@[simp] theorem getMismatchPos_self (a : Byte) : getMismatchPos a a = 0 := by
  rw [getMismatchPos, BitVec.xor_self]
  exact topBit_of_clear fun j _ => BitVec.getLsbD_zero

theorem getMismatchPos_mismatchAt (a b : Byte) : MismatchAt a b (getMismatchPos a b) := by
  by_cases heq : a = b
  · rw [heq, getMismatchPos_self]
    exact .of_eq b
  · obtain ⟨i, hi, hdiff⟩ : ∃ i < 8, a.getLsbD i ≠ b.getLsbD i := by
      by_contra hnone
      push Not at hnone
      exact heq (BitVec.eq_of_getLsbD_eq hnone)
    obtain ⟨k, hk, hpos, hbit, habove⟩ := topBit_of_set (x := a ^^^ b) hi (by simpa using hdiff)
    rw [getMismatchPos, hpos]
    exact .of_bit hk (by simpa using hbit) fun j hkj hj => by simpa using habove j hkj hj

theorem getMismatchPos_ne_zero {a b : Byte} (h : a ≠ b) : getMismatchPos a b ≠ 0 := (getMismatchPos_mismatchAt a b).ne_zero h

theorem linPos_ne_zero {sent seen : Byte} (i : Nat) (h : sent ≠ seen) : linPos i sent seen ≠ 0 := by
  have hpos := getMismatchPos_ne_zero h
  unfold linPos
  omega

/-- Settles O25: the bytes differ where their exclusive or is set, and its top bit is the one reported. -/
theorem mismatchPositionIsTheTopDifference : Obligations.MismatchPositionIsTheTopDifference :=
  fun a b => ⟨getMismatchPos_comm a b, getMismatchPos_mismatchAt a b⟩

/-! #### The three identity bytes (R144, R145) -/

section
variable {own bus : Identity}

theorem recordedPos_of_priority (h : own.priority ≠ bus.priority) :
    recordedPos own bus = linPos 0 own.priority bus.priority := if_pos h

theorem recordedPos_of_chipIdHi (hprio : own.priority = bus.priority) (h : own.chipIdHi ≠ bus.chipIdHi) :
    recordedPos own bus = linPos 1 own.chipIdHi bus.chipIdHi := by
  rw [recordedPos, if_neg (not_not.2 hprio), if_pos h]

theorem recordedPos_of_chipIdLo (hprio : own.priority = bus.priority) (hhi : own.chipIdHi = bus.chipIdHi)
    (h : own.chipIdLo ≠ bus.chipIdLo) : recordedPos own bus = linPos 2 own.chipIdLo bus.chipIdLo := by
  rw [recordedPos, if_neg (not_not.2 hprio), if_neg (not_not.2 hhi), if_pos h]

@[simp] theorem recordedPos_self (own : Identity) : recordedPos own own = 0 := by simp [recordedPos]

theorem identity_eq (hprio : own.priority = bus.priority) (hhi : own.chipIdHi = bus.chipIdHi)
    (hlo : own.chipIdLo = bus.chipIdLo) : own = bus := by
  cases own
  cases bus
  rw [Identity.mk.injEq]
  exact ⟨hprio, hhi, hlo⟩

end

/-- The position a node records is that of the top differing bit of the 24-bit identity: an earlier byte takes precedence, and
the bias of R144 is the number of bits below the byte. -/
theorem recordedPos_mismatchAt (own bus : Identity) : MismatchAt own.number bus.number (recordedPos own bus) := by
  rw [Identity.number, Identity.number]
  by_cases hprio : own.priority = bus.priority
  · by_cases hhi : own.chipIdHi = bus.chipIdHi
    · by_cases hlo : own.chipIdLo = bus.chipIdLo
      · rw [identity_eq hprio hhi hlo, recordedPos_self]
        exact .of_eq _
      · rw [recordedPos_of_chipIdLo hprio hhi hlo, hprio, hhi]
        exact (getMismatchPos_mismatchAt _ _).append_left _
    · rw [recordedPos_of_chipIdHi hprio hhi, hprio]
      exact ((getMismatchPos_mismatchAt _ _).append_left _).append_right _ _ (getMismatchPos_ne_zero hhi)
  · rw [recordedPos_of_priority hprio]
    exact ((getMismatchPos_mismatchAt _ _).append_right _ _ (getMismatchPos_ne_zero hprio)).append_right _ _
      (Nat.succ_ne_zero _)

section
variable {e : Engine} {i : Nat} {c : Byte}

theorem arbCompare_of_match (h : e.arbPkt.byte i = c) : arbCompare e i c = e := if_neg fun hne => hne.2 h.symm

theorem arbCompare_of_recorded (h : e.mismatchPos ≠ 0) : arbCompare e i c = e := if_neg fun hne => h hne.1

theorem arbCompare_of_mismatch (hpos : e.mismatchPos = 0) (h : e.arbPkt.byte i ≠ c) :
    arbCompare e i c = { e with mismatchPos := linPos i (e.arbPkt.byte i) c } := if_pos ⟨hpos, Ne.symm h⟩

end

/-- A round's three comparisons record the first mismatch of the packet's identity with the one seen. -/
theorem arbCompare_identity {e : Engine} (hpos : e.mismatchPos = 0) (bus : Identity) :
    (arbCompare (arbCompare (arbCompare e 0 bus.priority) 1 bus.chipIdHi) 2 bus.chipIdLo).mismatchPos =
      recordedPos e.arbPkt.identity bus := by
  by_cases hprio : e.arbPkt.byte 0 = bus.priority
  · rw [arbCompare_of_match hprio]
    by_cases hhi : e.arbPkt.byte 1 = bus.chipIdHi
    · rw [arbCompare_of_match hhi]
      by_cases hlo : e.arbPkt.byte 2 = bus.chipIdLo
      · rw [arbCompare_of_match hlo, identity_eq (own := e.arbPkt.identity) hprio hhi hlo, recordedPos_self, hpos]
      · rw [arbCompare_of_mismatch hpos hlo]
        exact (recordedPos_of_chipIdLo (own := e.arbPkt.identity) hprio hhi hlo).symm
    · rw [arbCompare_of_mismatch hpos hhi, arbCompare_of_recorded (linPos_ne_zero 1 hhi)]
      exact (recordedPos_of_chipIdHi (own := e.arbPkt.identity) hprio hhi).symm
  · have hrec := linPos_ne_zero 0 hprio
    rw [arbCompare_of_mismatch hpos hprio, arbCompare_of_recorded hrec, arbCompare_of_recorded hrec]
    exact (recordedPos_of_priority (own := e.arbPkt.identity) hprio).symm

/-- Settles O26: the comparisons record the first mismatch of the identities, which is the top one of their numbers. -/
theorem firstMismatchIsTheMostSignificant : Obligations.FirstMismatchIsTheMostSignificant := by
  intro e c0 c1 c2 hpos own bus r
  have hr : r = recordedPos e.arbPkt.identity ⟨c0, c1, c2⟩ := arbCompare_identity hpos ⟨c0, c1, c2⟩
  rw [hr]
  exact recordedPos_mismatchAt e.arbPkt.identity ⟨c0, c1, c2⟩

end Sys2Proof.Machine

/-! ### The collision map and the loss test (R146, R147) -/

namespace Sys2Proof.Machine

/-! #### The map of a position (R146) -/

theorem collMask_getLsbD {p k : Nat} (hk : k < 24) : (collMask p).getLsbD k = decide (k + 1 ≠ p) := by
  have hones : (0xFFFFFF#24).getLsbD k = true := by
    rw [show 0xFFFFFF#24 = BitVec.allOnes 24 from rfl, BitVec.getLsbD_allOnes, decide_eq_true hk]
  unfold collMask
  split_ifs with hp
  · simp [hones, hp]
  · have hbit : (1#24 <<< (p - 1)).getLsbD k = decide (k + 1 = p) := by
      rw [← BitVec.twoPow_eq, BitVec.getLsbD_twoPow, ← Bool.decide_and]
      exact decide_eq_decide.2 (by omega)
    rw [BitVec.getLsbD_and, BitVec.getLsbD_not, hones, hbit]
    simp [hk]

/-- The three bytes side by side are the mask. -/
theorem collMap_append (p : Nat) : (collMap p).1 ++ (collMap p).2.1 ++ (collMap p).2.2 = collMask p := by
  have hupper : (collMask p).extractLsb' 16 8 ++ (collMask p).extractLsb' 8 8 = (collMask p).extractLsb' 8 16 :=
    BitVec.extractLsb'_append_extractLsb'_eq_extractLsb' rfl
  have hall : (collMask p).extractLsb' 8 16 ++ (collMask p).extractLsb' 0 8 = collMask p :=
    (BitVec.extractLsb'_append_extractLsb'_eq_extractLsb' rfl).trans BitVec.extractLsb'_eq_self
  simp only [collMap, hupper]
  exact hall

/-- Settles O27: the three bytes are the mask of R146, and the frame is the definition of `arb_build_map`. -/
theorem collisionMapClearsOneBit : Obligations.CollisionMapClearsOneBit := by
  intro e _
  refine ⟨fun k hk => ?_, rfl⟩
  calc ((collMap e.mismatchPos).1 ++ (collMap e.mismatchPos).2.1 ++ (collMap e.mismatchPos).2.2).getLsbD k
    _ = (collMask e.mismatchPos).getLsbD k := congrArg (·.getLsbD k) (collMap_append e.mismatchPos)
    _ = decide (k + 1 ≠ e.mismatchPos) := collMask_getLsbD hk

/-! #### The loss test (R147) -/

theorem belowMask_getLsbD {p k : Nat} (hp : p ≤ 24) : (belowMask p).getLsbD k = decide (k + 1 < p) := by
  unfold belowMask
  split_ifs with h0
  · simp [h0]
  · have hlt : 2 ^ (p - 1) < 2 ^ 24 := Nat.pow_lt_pow_right (by omega) (by omega)
    have hnum : (1#24 <<< (p - 1) - 1#24).toNat = 2 ^ (p - 1) - 1 := by
      have hpow : (1#24 <<< (p - 1)).toNat = 2 ^ (p - 1) := by
        rw [← BitVec.twoPow_eq, BitVec.toNat_twoPow_of_lt (by omega)]
      have hone : (1#24).toNat = 1 := rfl
      rw [BitVec.toNat_sub_of_le (by rw [BitVec.le_def, hpow, hone]; exact Nat.one_le_two_pow), hpow, hone]
    rw [BitVec.getLsbD, hnum, Nat.testBit_two_pow_sub_one]
    exact decide_eq_decide.2 (by omega)

/-- Bit `k` of the mask for map byte `i` stands for the position `8 * (6 - i) + k + 1`. -/
theorem lowMask_getLsbD {p i k : Nat} (hp : p ≤ 24) (hk : k < 8) :
    (lowMask p i).getLsbD k = decide (8 * (6 - i) + k + 1 < p) := by
  have hones : (0xFF#24).getLsbD k = true := by
    revert k
    decide
  rw [lowMask, BitVec.getLsbD_setWidth, BitVec.getLsbD_and, BitVec.getLsbD_ushiftRight, belowMask_getLsbD hp, hones]
  simp [hk]

/-- The test finds a bit of the byte seen that is cleared and lies under the mask. -/
theorem arbLost_iff {p i : Nat} {c : Byte} :
    arbLost p i c = true ↔ ∃ k < 8, c.getLsbD k = false ∧ (lowMask p i).getLsbD k = true := by
  have hbit : ∀ k < 8, (~~~c &&& lowMask p i).getLsbD k = (!c.getLsbD k && (lowMask p i).getLsbD k) := by
    intro k hk
    rw [BitVec.getLsbD_and, BitVec.getLsbD_not, decide_eq_true hk, Bool.true_and]
  rw [arbLost, show 0xFF#8 = BitVec.allOnes 8 from rfl, BitVec.and_allOnes, bne_iff_ne, ne_eq, BitVec.eq_of_getLsbD_eq_iff]
  push Not
  refine exists_congr fun k => and_congr_right fun hk => ?_
  rw [hbit k hk]
  simp

/-- Settles O28: bit `k` of map byte `i` is the position `q = 8 * (6 - i) + k + 1`. -/
theorem lossMeansALowerPositionIsCleared : Obligations.LossMeansALowerPositionIsCleared := by
  intro p i c hp _ _
  rw [arbLost_iff]
  constructor
  · rintro ⟨k, hk, hclear, hmask⟩
    rw [lowMask_getLsbD hp hk, decide_eq_true_eq] at hmask
    refine ⟨8 * (6 - i) + k + 1, by omega, hmask, by omega, by omega, ?_⟩
    rwa [show 8 * (6 - i) + k + 1 - 1 - 8 * (6 - i) = k by omega]
  · rintro ⟨q, hq, hqp, hlow, hhigh, hclear⟩
    refine ⟨q - 1 - 8 * (6 - i), by omega, hclear, ?_⟩
    rw [lowMask_getLsbD hp (by omega), decide_eq_true_eq]
    omega

end Sys2Proof.Machine

/-! ### The byte pump, rule by rule: the reception of a byte (R161 to R166, R169) -/

namespace Sys2Proof.Machine

/-! #### From the engine's step to the operation -/

/-- The engine with the timestamp of the byte being received, where every rule of the pump begins (R161). -/
abbrev State.stamped (s : State) : Engine := { s.engine with lastActivity := s.tick }

/-- The raw 0x00 is received as the command RX_BYTE or as the wire symbol END. -/
theorem exec_of_end {i : Instr} (hi : i = .rxByte endByte ∨ i = .endSym) (s : State) : exec i s = receive endByte s := by
  obtain rfl | rfl := hi
  · rfl
  · rfl

section
variable {s : State} {c : Byte} {x : Eff}

theorem receive_of_ok (h : rxByteStep s.params s.tick c s.engine = .ok x) :
    receive c s = .next (s.finish x.engine x.events okAnswer) := congrArg (s.complete · okAnswer) h

theorem receive_data (hc : c ≠ endByte) (h : dataStep s.params c s.stamped = .ok x) :
    receive c s = .next (s.finish x.engine x.events okAnswer) :=
  receive_of_ok ((if_neg hc).trans h)

theorem resyncDue_eq_false {p : Params} {now : Nat} {e : Engine} (h : elapsed p now e.lastActivity ≤ p.tResync) :
    resyncDue p now e = false := decide_eq_false (Nat.not_lt.2 h)

theorem receive_end_in_window (hwindow : elapsed s.params s.tick s.engine.lastActivity ≤ s.params.tResync)
    (h : endStep s.params s.stamped = .ok x) : receive endByte s = .next (s.finish x.engine x.events okAnswer) := by
  refine receive_of_ok ?_
  rw [rxByteStep, if_pos rfl, resyncDue_eq_false hwindow]
  exact h

theorem receive_end_late (hlate : s.params.tResync < elapsed s.params s.tick s.engine.lastActivity)
    (h : endStep s.params (forceIdle s.stamped) = .ok x) :
    receive endByte s = .next (s.finish x.engine x.events okAnswer) := by
  have hdue : resyncDue s.params s.tick s.engine = true := decide_eq_true hlate
  refine receive_of_ok ?_
  rw [rxByteStep, if_pos rfl, hdue]
  exact h

end

/-! #### END by the handler state (R163 to R166) -/

section
variable {p : Params} {e : Engine}

theorem endStep_sending (hst : e.state = .sending) : endStep p e = .ok (Eff.quiet e) := by
  rw [endStep, hst]

theorem endStep_sendingComplete (hst : e.state = .sendingComplete) :
    endStep p e = .ok (Eff.quiet { e with state := .idle }) := by
  rw [endStep, hst]

/-- The states in which END does nothing but start a round (R166). -/
theorem endStep_rearb (hst : e.state = .idle ∨ e.state = .participatingArbitration ∨ e.state = .waitingArbitration) :
    endStep p e = .ok (rearb p e) := by
  obtain hst | hst | hst := hst <;> rw [endStep, hst]

theorem endStep_receiving (hst : e.state = .receiving) :
    endStep p e = Eff.andThen (rxFinish p e) (fun e₁ => .ok (rearb p e₁)) := by
  rw [endStep, hst]

/-- A round with a frame queued: the packet is regenerated and its first byte sent (R169, R142). -/
theorem rearb_of_pending (h : 0 < e.txPending) :
    rearb p e = Eff.sending
      { e with arbIndex := 0, mismatchPos := 0, arbPkt := ownPacket p e, state := .participatingArbitration }
      (prioByte e.cfgPriority.toInt) := if_pos h

theorem rearb_of_none_pending (h : e.txPending = 0) :
    rearb p e = Eff.quiet { e with arbIndex := 0, mismatchPos := 0, state := .waitingArbitration } :=
  if_neg (Nat.not_lt.2 (Nat.le_of_eq h))

/-- Both cases of a round's start in one equation. -/
theorem rearb_eq (p : Params) (e : Engine) :
    rearb p e =
      { engine :=
          { e with
              arbIndex := 0, mismatchPos := 0
              arbPkt := if 0 < e.txPending then ownPacket p e else e.arbPkt
              state := if 0 < e.txPending then .participatingArbitration else .waitingArbitration }
        events := if 0 < e.txPending then [.send (prioByte e.cfgPriority.toInt)] else [] } := by
  obtain h | h := Nat.eq_zero_or_pos e.txPending
  · rw [rearb_of_none_pending h, h]; rfl
  · rw [rearb_of_pending h, if_pos h, if_pos h, if_pos h]; rfl

end

/-- Settles O45: the two rules of END in the states that send. -/
theorem endWhileSendingStartsNoRound : Obligations.EndWhileSendingStartsNoRound := by
  intro s i hi hwindow
  rw [exec_of_end hi]
  exact ⟨fun hst => receive_end_in_window hwindow (endStep_sending hst),
    fun hst => receive_end_in_window hwindow (endStep_sendingComplete hst)⟩

/-- Settles O46: END starts a round from the stamped engine. -/
theorem endStartsARound : Obligations.EndStartsARound := by
  intro s i hi hst hwindow
  rw [exec_of_end hi, receive_end_in_window hwindow (endStep_rearb hst)]
  refine ⟨fun hpending => ?_, fun hnone => ?_⟩
  · rw [rearb_of_pending (e := s.stamped) hpending]; rfl
  · rw [rearb_of_none_pending (e := s.stamped) hnone]; rfl

/-- Settles O47: a late END forces the engine to `Idle`, whatever was under way, and starts a round from there. -/
theorem aLateEndResynchronises : Obligations.ALateEndResynchronises := by
  intro s i hi hlate
  rw [exec_of_end hi, receive_end_late hlate (endStep_rearb (.inl (forceIdle_state _)))]
  refine ⟨fun hpending => ?_, fun hnone => ?_⟩
  · rw [rearb_of_pending (e := forceIdle s.stamped) hpending]; rfl
  · rw [rearb_of_none_pending (e := forceIdle s.stamped) hnone]; rfl

/-! #### The end of a frame body (R165, R224) -/

section
variable {p : Params} {e : Engine}

theorem andThen_of_ok {a b : Eff} {f : Engine → Except Fault Eff} (h : f a.engine = .ok b) :
    Eff.andThen (.ok a) f = .ok { engine := b.engine, events := a.events ++ b.events } :=
  andThen_eq_ok.2 ⟨a, b, rfl, h, rfl⟩

theorem endEscape_eq (e : Engine) :
    endEscape e = { engine := { e with rxEsc := false }, events := if e.rxEsc then [.diag .desync] else [] } := by
  rw [← endEscape_engine]
  unfold endEscape
  split <;> rfl

theorem deliver_dropped (hdrop : e.rxDrop = true) : deliver p e = .ok (Eff.quiet e) := if_pos hdrop

section
variable {sl : Slot} (hdrop : e.rxDrop = false) (hsl : e.slots[e.rxActive]? = some sl)
include hdrop hsl

theorem deliver_with_separator (hsep : sl.sepValid = true) :
    deliver p e = .ok
      { engine := { e with slots := e.slots.set e.rxActive { sl with available := true }
                           rxActive := (e.rxActive + 1) % p.nSlots }
        events := [.notify] } := by
  rw [deliver, if_neg (by simp [hdrop]), getSlot_eq_ok.2 hsl]
  exact if_pos hsep

theorem deliver_without_separator (hsep : sl.sepValid = false) : deliver p e = .ok (Eff.report e .rxNoSep) := by
  rw [deliver, if_neg (by simp [hdrop]), getSlot_eq_ok.2 hsl]
  exact if_neg (by simp [hsep])

end

/-- The three endings of a frame in one statement: only the slots and `rx_active` can change, and do in a delivery. -/
theorem deliver_of_slot {sl : Slot} (p : Params) (hsl : e.slots[e.rxActive]? = some sl) :
    ∃ slots active,
      deliver p e = .ok
        { engine := { e with slots := slots, rxActive := active }
          events := if e.rxDrop then [] else if sl.sepValid then [.notify] else [.diag .rxNoSep] } ∧
      (e.rxDrop = false ∧ sl.sepValid = true →
        slots = e.slots.set e.rxActive { sl with available := true } ∧ active = (e.rxActive + 1) % p.nSlots) ∧
      (e.rxDrop = true ∨ sl.sepValid = false → slots = e.slots ∧ active = e.rxActive) := by
  by_cases hdrop : e.rxDrop = true
  · rw [if_pos hdrop]
    exact ⟨_, _, deliver_dropped hdrop, by simp [hdrop], fun _ => ⟨rfl, rfl⟩⟩
  · rw [if_neg hdrop]
    rw [Bool.not_eq_true] at hdrop
    by_cases hsep : sl.sepValid = true
    · rw [if_pos hsep]
      exact ⟨_, _, deliver_with_separator hdrop hsl hsep, fun _ => ⟨rfl, rfl⟩, by simp [hdrop, hsep]⟩
    · rw [if_neg hsep]
      rw [Bool.not_eq_true] at hsep
      exact ⟨_, _, deliver_without_separator hdrop hsl hsep, by simp [hsep], fun _ => ⟨rfl, rfl⟩⟩

/-- END in a frame body: the dangling escape, the ending of the frame, the next round, each with its events (R262). -/
theorem endStep_of_deliver {y : Eff} (hst : e.state = .receiving) (hy : deliver p { e with rxEsc := false } = .ok y) :
    endStep p e = .ok
      { engine := (rearb p y.engine).engine
        events := (if e.rxEsc then [.diag .desync] else []) ++ y.events ++ (rearb p y.engine).events } := by
  rw [endStep_receiving hst, rxFinish, endEscape_eq, andThen_of_ok hy, andThen_of_ok rfl]

end

/-- Settles O48: what `rx_finish` leaves differs from the engine in the receive side only, and the round starts from there. -/
theorem endInReceptionEndsTheFrame : Obligations.EndInReceptionEndsTheFrame := by
  intro s i sl hi _ hst hwindow hsl
  obtain ⟨slots, active, hdeliver, hdelivered, hkept⟩ :=
    deliver_of_slot (e := { s.stamped with rxEsc := false }) s.params hsl
  rw [exec_of_end hi, receive_end_in_window hwindow (endStep_of_deliver hst hdeliver), rearb_eq]
  exact ⟨_, rfl, rfl, rfl, rfl, rfl, rfl, rfl, rfl, rfl, rfl, ⟨rfl, rfl, rfl, rfl⟩, ⟨rfl, rfl⟩, ⟨rfl, rfl, rfl⟩, rfl,
    rfl, hdelivered, hkept⟩

end Sys2Proof.Machine

/-! ### The byte pump, rule by rule: data bytes (R170 to R177) -/

namespace Sys2Proof.Machine

/-! #### A data byte by the handler state (R170) -/

section
variable {s : State} {c : Byte} {x : Eff} (hc : c ≠ endByte)
include hc

theorem receive_ignored
    (hst : s.engine.state = .idle ∨ s.engine.state = .sending ∨ s.engine.state = .sendingComplete) :
    receive c s = .next (s.finish s.stamped [] okAnswer) := by
  refine receive_data (x := Eff.quiet s.stamped) hc ?_
  obtain hst | hst | hst := hst <;> rw [dataStep, hst]

theorem receive_waiting (hst : s.engine.state = .waitingArbitration) (h : waitStep s.stamped = .ok x) :
    receive c s = .next (s.finish x.engine x.events okAnswer) :=
  receive_data hc (by rw [dataStep, hst]; exact h)

theorem receive_participating (hst : s.engine.state = .participatingArbitration) (h : partStep s.stamped c = .ok x) :
    receive c s = .next (s.finish x.engine x.events okAnswer) :=
  receive_data hc (by rw [dataStep, hst]; exact h)

theorem receive_receiving (hst : s.engine.state = .receiving) (h : decStep s.params c s.stamped = .ok x) :
    receive c s = .next (s.finish x.engine x.events okAnswer) :=
  receive_of_ok ((rxByteStep_receiving s.params s.tick hst hc).trans h)

end

/-- Settles O49: RX_BYTE and the symbols are all the reception of their byte, which these states ignore. -/
theorem dataBytesAreIgnoredOutsideRounds : Obligations.DataBytesAreIgnoredOutsideRounds := by
  intro s c hc hst i hi
  have hreceive : exec i s = receive c s := by
    obtain rfl | rfl | ⟨rfl, rfl⟩ | ⟨rfl, rfl⟩ | ⟨rfl, rfl⟩ := hi
    all_goals rfl
  exact hreceive.trans (receive_ignored hc hst)

/-! #### The seventh arbitration byte begins reception (R171, R175, R220) -/

/-- The step into a frame body that `wait_step` and `part_lose` share: `rx_begin`, then `Receiving`. -/
def beginReception (e : Engine) : Except Fault Eff :=
  Eff.andThen (rxBegin e) (fun e₁ => .ok (Eff.quiet { e₁ with state := .receiving }))

section
variable {e : Engine}

theorem waitStep_counts (hi : e.arbIndex < 6) : waitStep e = .ok (Eff.quiet { e with arbIndex := e.arbIndex + 1 }) :=
  if_pos hi

theorem waitStep_seventh (hi : e.arbIndex = 6) : waitStep e = beginReception { e with arbIndex := 7 } := by
  rw [waitStep, if_neg (by omega), if_pos hi]
  rfl

theorem partLose_listens (hi : e.arbIndex ≠ 7) : partLose e = .ok (Eff.quiet { e with state := .waitingArbitration }) :=
  if_neg hi

theorem partLose_seventh (hi : e.arbIndex = 7) : partLose e = beginReception e := if_pos hi

section
variable {sl : Slot} (hsl : e.slots[e.rxActive]? = some sl)
include hsl

theorem rxBegin_free (hfree : sl.available = false) :
    rxBegin e = .ok (Eff.quiet (setSlot { e with rxEsc := false, rxDrop := false } e.rxActive sl.restart)) := by
  rw [rxBegin, getSlot_eq_ok.2 hsl]
  exact if_neg (by simp [hfree])

theorem rxBegin_taken (htaken : sl.available = true) :
    rxBegin e = .ok (Eff.report { e with rxEsc := false, rxDrop := true } .rxNoSlot) := by
  rw [rxBegin, getSlot_eq_ok.2 hsl]
  exact if_pos htaken

theorem beginReception_free (hfree : sl.available = false) :
    beginReception e = .ok (Eff.quiet
      { e with
          state := .receiving, rxEsc := false, rxDrop := false
          slots := e.slots.set e.rxActive { sl with len := 0, sep := 0, sepValid := false } }) := by
  rw [beginReception, rxBegin_free hsl hfree]
  rfl

theorem beginReception_taken (htaken : sl.available = true) :
    beginReception e = .ok (Eff.report { e with state := .receiving, rxEsc := false, rxDrop := true } .rxNoSlot) := by
  rw [beginReception, rxBegin_taken hsl htaken]
  rfl

end

end

/-- Settles O50: a listener counts, and its seventh byte begins reception. -/
theorem aListenerCountsSevenBytes : Obligations.AListenerCountsSevenBytes := by
  intro s c sl _ hc hst hsl
  have hseventh (hi : s.engine.arbIndex = 6) : waitStep s.stamped = beginReception { s.stamped with arbIndex := 7 } :=
    waitStep_seventh hi
  refine ⟨fun hi => ?_, fun hi hfree => ?_, fun hi htaken => ?_⟩
  · exact receive_waiting hc hst (waitStep_counts hi)
  · exact receive_waiting hc hst ((hseventh hi).trans (beginReception_free hsl hfree))
  · exact receive_waiting hc hst ((hseventh hi).trans (beginReception_taken hsl htaken))

/-! #### The echoes of a participating node (R172 to R176) -/

section
variable {e : Engine} {c : Byte}

theorem partStep_identity (hi : e.arbIndex ≤ 2) : partStep e c = .ok (partIdentity e c) := if_pos hi

theorem partStep_latency (hi : e.arbIndex = 3) : partStep e c = .ok (partLatency e) := by
  rw [partStep, if_neg (by omega), if_pos hi]

theorem partStep_map (hlow : 4 ≤ e.arbIndex) (hhigh : e.arbIndex ≤ 6) : partStep e c = partMap e c := by
  rw [partStep, if_neg (by omega), if_neg (by omega), if_pos hhigh]

theorem partMap_lost (hlost : arbLost e.mismatchPos e.arbIndex c = true) :
    partMap e c = partLose { e with arbIndex := e.arbIndex + 1 } := if_pos hlost

theorem partMap_survived (hkept : arbLost e.mismatchPos e.arbIndex c = false) (hi : e.arbIndex < 6) :
    partMap e c = .ok (Eff.sending { e with arbIndex := e.arbIndex + 1 } (e.arbPkt.byte (e.arbIndex + 1))) := by
  rw [partMap, if_neg (by simp [hkept]), if_pos hi]

theorem partMap_won (hkept : arbLost e.mismatchPos e.arbIndex c = false) (hi : e.arbIndex = 6) :
    partMap e c = .ok (Eff.quiet { e with arbIndex := 7, state := .sending, txIrqEn := true }) := by
  rw [partMap, if_neg (by simp [hkept]), if_neg (by omega), hi]
  rfl

theorem arbCompare_mismatchPos (e : Engine) (i : Nat) (c : Byte) :
    (arbCompare e i c).mismatchPos =
      if e.mismatchPos = 0 then (if c = e.arbPkt.byte i then 0 else linPos i (e.arbPkt.byte i) c) else e.mismatchPos := by
  by_cases hpos : e.mismatchPos = 0
  · by_cases hc : c = e.arbPkt.byte i
    · rw [arbCompare_of_match hc.symm, if_pos hpos, if_pos hc, hpos]
    · rw [arbCompare_of_mismatch hpos (Ne.symm hc), if_pos hpos, if_neg hc]
  · rw [arbCompare_of_recorded hpos, if_neg hpos]

/-- The map's bytes come after the identity and the latency byte. -/
theorem arbBuildMap_byte {i : Nat} (hi : i ≤ 3) (e : Engine) : (arbBuildMap e).arbPkt.byte i = e.arbPkt.byte i := by
  obtain rfl | rfl | rfl | rfl : i = 0 ∨ i = 1 ∨ i = 2 ∨ i = 3 := by omega
  all_goals rfl

/-- The byte sent after an identity echo is the next one of the packet as it was: the map built after byte 2 lies behind it. -/
theorem partIdentity_events (hi : e.arbIndex ≤ 2) :
    (partIdentity e c).events = [.send (e.arbPkt.byte (e.arbIndex + 1))] := by
  unfold partIdentity
  split
  · simp only [Eff.sending, arbBuildMap_byte (Nat.succ_le_succ hi), arbCompare_arbPkt]
  · simp only [Eff.sending, arbCompare_arbPkt]

end

/-- Settles O51: the engine and the events of `part_step` for an identity byte, field by field. -/
theorem anIdentityEchoSendsTheNextByte : Obligations.AnIdentityEchoSendsTheNextByte := by
  intro s c hc hst hi
  refine ⟨_, receive_participating hc hst (partStep_identity hi), ?_⟩
  rw [partIdentity_engine, partIdentity_events (e := s.stamped) hi]
  refine ⟨rfl, arbCompare_mismatchPos s.stamped s.engine.arbIndex c, ?_, rfl⟩
  by_cases hlast : s.engine.arbIndex = 2
  · simp only [finish_engine, hlast, if_true]
    rw [arbBuildMap, arbCompare_arbPkt]
  · simp only [finish_engine, hlast, if_false]

/-- Settles O52: at index 3 `part_step` is the rule of R173, which does not read the byte received. -/
theorem theLatencyEchoIsNotCompared : Obligations.TheLatencyEchoIsNotCompared :=
  fun _ _ hc hst hi => receive_participating hc hst (partStep_latency hi)

/-- Settles O53: a map byte that does not exclude the node is survived below index 6 and wins the round at 6. -/
theorem aMapByteIsSurvivedOrWon : Obligations.AMapByteIsSurvivedOrWon := by
  intro s c hc hst hlow hhigh hkept
  have hmap : partStep s.stamped c = partMap s.stamped c := partStep_map hlow hhigh
  exact ⟨fun hi => receive_participating hc hst (hmap.trans (partMap_survived hkept hi)),
    fun hi => receive_participating hc hst (hmap.trans (partMap_won hkept hi))⟩

/-- Settles O54: an excluded node goes on as a listener, with the byte counted; the seventh begins reception. -/
theorem anExcludedNodeListens : Obligations.AnExcludedNodeListens := by
  intro s c sl _ hc hst hlow hlost hsl
  have hlose (hhigh : s.engine.arbIndex ≤ 6) :
      partStep s.stamped c = partLose { s.stamped with arbIndex := s.engine.arbIndex + 1 } :=
    (partStep_map (e := s.stamped) hlow hhigh).trans (partMap_lost hlost)
  have hseventh (hi : s.engine.arbIndex = 6) :
      partStep s.stamped c = beginReception { s.stamped with arbIndex := 7 } := by
    rw [hlose (Nat.le_of_eq hi), hi, partLose_seventh rfl]
  refine ⟨fun hi => ?_, fun hi hfree => ?_, fun hi htaken => ?_⟩
  · exact receive_participating hc hst ((hlose (Nat.le_of_lt hi)).trans (partLose_listens (by simp only; omega)))
  · exact receive_participating hc hst ((hseventh hi).trans (beginReception_free hsl hfree))
  · exact receive_participating hc hst ((hseventh hi).trans (beginReception_taken hsl htaken))

/-! #### The body symbols (R177, R123 to R126, R221, R222) -/

/-- What the statements call the decoding of an instruction to `d` is the reception of a byte whose decode step emits `d`. -/
theorem exec_of_decodesTo {rxEsc : Bool} {i : Instr} {d : Byte} (h : decodesTo rxEsc i d) :
    ∃ c, c ≠ endByte ∧ (∀ s, exec i s = receive c s) ∧
      decStepOf rxEsc c = { rxEsc := false, byte := some d, desync := false } := by
  obtain ⟨rfl, hi, rfl⟩ | ⟨rfl, hi, rfl⟩ | ⟨rfl, hi, hend, hesc⟩ := h
  · exact ⟨escEndByte, by decide, by obtain rfl | rfl := hi <;> exact fun _ => rfl, decStepOf_escEnd⟩
  · exact ⟨escEscByte, by decide, by obtain rfl | rfl := hi <;> exact fun _ => rfl, decStepOf_escEsc⟩
  · exact ⟨d, hend, by obtain rfl | rfl := hi <;> exact fun _ => rfl, decStepOf_lit hesc⟩

section
variable {p : Params} {e : Engine} {c d : Byte}

theorem decStep_esc (hesc : e.rxEsc = false) : decStep p escByte e = .ok (Eff.quiet { e with rxEsc := true }) := by
  rw [decStep, hesc, decStepOf_esc]
  rfl

theorem decStep_of_byte {esc : Bool} (h : decStepOf e.rxEsc c = { rxEsc := esc, byte := some d, desync := false }) :
    decStep p c e = rxEmit p d { e with rxEsc := esc } := by
  rw [decStep, h]

theorem rxEmit_stores {sl : Slot} (hdrop : e.rxDrop = false) (hsl : e.slots[e.rxActive]? = some sl)
    (hroom : sl.len < p.rxSlotCap) : rxEmit p d e = .ok (Eff.quiet (setSlot e e.rxActive (sl.store d))) := by
  rw [rxEmit, if_neg (by simp [hdrop]), getSlot_eq_ok.2 hsl]
  simp only [if_neg (Nat.ne_of_lt hroom), memWrite_eq_ok.2 ⟨hroom, rfl⟩]

end

@[simp] theorem Slot.store_len (sl : Slot) (d : Byte) : (sl.store d).len = sl.len + 1 := by
  unfold Slot.store; split <;> rfl

@[simp] theorem Slot.store_buf (sl : Slot) (d : Byte) : (sl.store d).buf = sl.buf.write sl.len d := by
  unfold Slot.store; split <;> rfl

/-- The first zero byte becomes the separator (R222). -/
theorem Slot.store_sep (sl : Slot) (d : Byte) :
    if d = 0x00#8 ∧ sl.sepValid = false then (sl.store d).sep = sl.len ∧ (sl.store d).sepValid = true
    else (sl.store d).sep = sl.sep ∧ (sl.store d).sepValid = sl.sepValid := by
  unfold Slot.store
  split <;> exact ⟨rfl, rfl⟩

/-- Settles O55: ESC is its own decode step; every other symbol emits one byte, which is stored at the write cursor. -/
theorem bodySymbolsDecodeIntoTheSlot : Obligations.BodySymbolsDecodeIntoTheSlot := by
  intro s sl hs hst hsl
  refine ⟨fun i hi hesc => ?_, fun i d hd hdrop hroom => ?_⟩
  · have hreceive : exec i s = receive escByte s := by obtain rfl | rfl := hi <;> rfl
    exact hreceive.trans (receive_receiving (c := escByte) (by decide) hst (decStep_esc hesc))
  · obtain ⟨c, hc, hreceive, hdec⟩ := exec_of_decodesTo hd
    have hwf : sl.buf.wf = true := hs.engine.range.bufWf sl (List.mem_of_getElem? hsl)
    have hstep : decStep s.params c s.stamped =
        .ok (Eff.quiet (setSlot { s.stamped with rxEsc := false } s.engine.rxActive (sl.store d))) :=
      (decStep_of_byte (e := s.stamped) hdec).trans (rxEmit_stores hdrop hsl hroom)
    refine ⟨sl.store d, (hreceive s).trans (receive_receiving hc hst hstep), sl.store_len d, sl.store_available d, ?_, ?_,
      sl.store_sep d⟩
    · rw [sl.store_buf]; exact Memory.read_write_same hwf _ _
    · intro a ha
      rw [sl.store_buf]; exact Memory.read_write_other ha d

end Sys2Proof.Machine

/-! ### TX_READY and the elapsed time (R180 to R184) -/

namespace Sys2Proof.Machine

/-! #### The drain of one byte -/

section
variable {s : State} {p : Params} {e : Engine} {x : Eff}

theorem execTxReady_of_drain (hst : s.engine.state = .sending) (h : drainStep s.params s.engine = .ok x) :
    exec .txReady s = .next (s.finish x.engine x.events okAnswer) :=
  (if_pos hst).trans (congrArg (s.complete · okAnswer) h)

theorem drainStep_empty (hempty : e.txHead = e.txTail) : drainStep p e = .ok (Eff.quiet (txDone p e)) :=
  if_pos (decide_eq_true hempty)

theorem drainStep_queued (hne : e.txHead ≠ e.txTail) (htail : e.txTail < p.txqCap) :
    drainStep p e = .ok (Eff.sending
      (if e.txq.read e.txTail = endByte then txDone p { e with txTail := ringNext p e.txTail }
       else { e with txTail := ringNext p e.txTail }) (e.txq.read e.txTail)) := by
  rw [drainStep, txqEmpty, decide_eq_false hne, if_neg Bool.false_ne_true, memRead_eq_ok.2 ⟨htail, rfl⟩]

/-- Where the ring content has a first byte, it is the one at `tx_tail`, which is not `tx_head`. -/
theorem ringContent_eq_cons {b : Byte} {q : List Byte} (htx : TxSound p e) (h : ringContent p e = b :: q) :
    e.txHead ≠ e.txTail ∧ e.txq.read e.txTail = b ∧
      ∀ e', e'.txq = e.txq → e'.txHead = e.txHead → e'.txTail = ringNext p e.txTail → ringContent p e' = q := by
  have hne : e.txHead ≠ e.txTail := by
    intro heq
    have hused : txqUsed p e = 0 := by rw [txqUsed_eq htx.head htx.tail, heq]; simp
    have hlen := ringContent_length p e
    rw [h, hused] at hlen
    cases hlen
  have hcons (e' : Engine) (hcells : e'.txq = e.txq) (hhead : e'.txHead = e.txHead)
      (htail : e'.txTail = ringNext p e.txTail) : b = e.txq.read e.txTail ∧ q = ringContent p e' :=
    List.cons.inj (h.symm.trans (ringContent_of_advance htx hne hcells hhead htail))
  exact ⟨hne, (hcons { e with txTail := ringNext p e.txTail } rfl rfl rfl).1.symm,
    fun e' hcells hhead htail => (hcons e' hcells hhead htail).2.symm⟩

end

/-- Settles O58: the byte sent is the first of the ring content; the terminator and the exhausted ring complete the frame. -/
theorem txReadyDrainsOneByte : Obligations.TxReadyDrainsOneByte := by
  refine ⟨fun s b q hs hst hq => ?_, fun s hst hempty => ?_⟩
  · obtain ⟨htx, -⟩ := sound_iff.1 hs.engine
    obtain ⟨hne, rfl, hrest⟩ := ringContent_eq_cons htx hq
    refine ⟨_, execTxReady_of_drain hst (drainStep_queued hne htx.tail), ?_⟩
    simp only [Eff.sending, finish_engine, finish_params]
    split
    · next hend =>
      exact ⟨hrest _ rfl rfl rfl, rfl, fun hbyte => absurd hend hbyte, fun _ => by rw [hend]; rfl⟩
    · next hbyte =>
      exact ⟨hrest _ rfl rfl rfl, rfl, fun _ => rfl, fun hend => absurd hend hbyte⟩
  · have hcount : (if 0 < s.engine.txPending then s.engine.txPending - 1 else 0) = s.engine.txPending - 1 := by
      split <;> omega
    rw [hcount]
    exact execTxReady_of_drain hst (drainStep_empty hempty)

/-- Settles O59: outside `Sending` TX_READY is turned away with the status OK. -/
theorem txReadyElsewhereDoesNothing : Obligations.TxReadyElsewhereDoesNothing := fun _ hst => if_neg hst

/-- Settles O34: modulo `2^TICK_BITS` the difference of `t + d` and `t` is `d`. -/
theorem elapsedIsRightAcrossAWrap : Obligations.ElapsedIsRightAcrossAWrap := by
  intro p t d _ hd
  have hgap : (((t + d) % 2 ^ p.tickBits : Nat) - (t : Int)) % ((2 ^ p.tickBits : Nat) : Int) = d :=
    calc (((t + d) % 2 ^ p.tickBits : Nat) - (t : Int)) % ((2 ^ p.tickBits : Nat) : Int)
      _ = ((t : Int) + d - t) % ((2 ^ p.tickBits : Nat) : Int) := by
        rw [Int.natCast_emod, Int.emod_sub_emod, Int.natCast_add]
      _ = (d : Int) % ((2 ^ p.tickBits : Nat) : Int) := by rw [add_sub_cancel_left]
      _ = d := Int.emod_eq_of_lt (Int.natCast_nonneg d) (Int.ofNat_lt.2 hd)
  rw [elapsed, hgap, Int.toNat_natCast]

end Sys2Proof.Machine

/-! ### At most one send per operation (R185, R202) -/

namespace Sys2Proof.Machine

theorem sends_append (xs ys : List Event) : sends (xs ++ ys) = sends xs ++ sends ys := by
  induction xs with
  | nil => rfl
  | cons x xs ih => cases x <;> simp [sends, ih]

/-- An operation's effect emits no `send`. -/
abbrev Eff.Silent (x : Eff) : Prop := sends x.events = []

/-- An operation's effect emits at most one `send`. -/
abbrev Eff.SendsOnce (x : Eff) : Prop := (sends x.events).length ≤ 1

section
variable {p : Params} {e : Engine} {x y : Eff}

theorem Eff.Silent.sendsOnce (h : x.Silent) : x.SendsOnce := by rw [Eff.SendsOnce, h]; exact Nat.zero_le 1

/-- Of two procedures in one operation the first is silent. -/
theorem Eff.Silent.append_sendsOnce (hx : x.Silent) (hy : y.SendsOnce) (e : Engine) :
    Eff.SendsOnce { engine := e, events := x.events ++ y.events } := by
  rw [Eff.SendsOnce, sends_append, hx]
  exact hy

/-! #### The receive side sends nothing -/

theorem rxBegin_silent (h : rxBegin e = .ok x) : x.Silent := by
  obtain ⟨sl, -, ⟨-, rfl⟩ | ⟨-, rfl⟩⟩ := rxBegin_eq_ok h <;> rfl

theorem rxEmit_silent {d : Byte} (h : rxEmit p d e = .ok x) : x.Silent := by
  obtain ⟨-, rfl⟩ | ⟨sl, -, -, ⟨-, rfl⟩ | ⟨-, rfl⟩⟩ := rxEmit_eq_ok h <;> rfl

theorem decStep_silent {c : Byte} (h : decStep p c e = .ok x) : x.Silent := by
  unfold decStep at h
  simp only at h
  split at h
  · exact rxEmit_silent h
  · split at h <;> cases h <;> rfl

theorem deliver_silent (h : deliver p e = .ok x) : x.Silent := by
  obtain ⟨-, rfl⟩ | ⟨sl, -, -, ⟨-, rfl⟩ | ⟨-, rfl⟩⟩ := deliver_eq_ok h <;> rfl

theorem rxFinish_silent (h : rxFinish p e = .ok x) : x.Silent := by
  obtain ⟨a, b, ha, hb, rfl⟩ := andThen_eq_ok.1 h
  cases ha
  rw [Eff.Silent, sends_append, deliver_silent hb, endEscape_eq]
  split <;> rfl

theorem waitStep_silent (h : waitStep e = .ok x) : x.Silent := by
  obtain ⟨-, rfl⟩ | ⟨a, -, ha, rfl⟩ := waitStep_eq_ok h
  · rfl
  · exact rxBegin_silent (x := a) ha

theorem partLose_silent (h : partLose e = .ok x) : x.Silent := by
  obtain ⟨-, rfl⟩ | ⟨a, -, ha, rfl⟩ := partLose_eq_ok h
  · rfl
  · exact rxBegin_silent (x := a) ha

/-! #### The procedures that send -/

theorem sending_sendsOnce (e : Engine) (b : Byte) : (Eff.sending e b).SendsOnce := Nat.le_refl 1

theorem rearb_sendsOnce (p : Params) (e : Engine) : (rearb p e).SendsOnce := by
  obtain h | h := Nat.eq_zero_or_pos e.txPending
  · rw [rearb_of_none_pending h]; exact Eff.Silent.sendsOnce rfl
  · rw [rearb_of_pending h]; exact sending_sendsOnce _ _

theorem partStep_sendsOnce {c : Byte} (h : partStep e c = .ok x) : x.SendsOnce := by
  obtain ⟨-, rfl⟩ | ⟨-, rfl⟩ | ⟨-, hmap⟩ := partStep_eq_ok h
  · exact sending_sendsOnce _ _
  · exact sending_sendsOnce _ _
  · obtain hlose | ⟨-, rfl⟩ | ⟨-, rfl⟩ := partMap_eq_ok hmap
    · exact (partLose_silent hlose).sendsOnce
    · exact sending_sendsOnce _ _
    · exact Eff.Silent.sendsOnce rfl

theorem endStep_sendsOnce (h : endStep p e = .ok x) : x.SendsOnce := by
  unfold endStep at h
  split at h
  case h_1 => cases h; exact Eff.Silent.sendsOnce rfl
  case h_2 => cases h; exact Eff.Silent.sendsOnce rfl
  case h_3 =>
    obtain ⟨a, b, ha, hb, rfl⟩ := andThen_eq_ok.1 h
    cases hb
    exact (rxFinish_silent ha).append_sendsOnce (rearb_sendsOnce p a.engine) _
  all_goals cases h; exact rearb_sendsOnce p e

theorem dataStep_sendsOnce {c : Byte} (h : dataStep p c e = .ok x) : x.SendsOnce := by
  unfold dataStep at h
  split at h
  case h_4 => exact (waitStep_silent h).sendsOnce
  case h_5 => exact partStep_sendsOnce h
  case h_6 => exact (decStep_silent h).sendsOnce
  all_goals cases h; exact Eff.Silent.sendsOnce rfl

theorem rxByteStep_sendsOnce {now : Nat} {c : Byte} (h : rxByteStep p now c e = .ok x) : x.SendsOnce := by
  obtain hend | hend | hdata := rxByteStep_eq_ok h
  · exact endStep_sendsOnce hend
  · exact endStep_sendsOnce hend
  · exact dataStep_sendsOnce hdata

theorem drainStep_sendsOnce (h : drainStep p e = .ok x) : x.SendsOnce := by
  obtain ⟨-, rfl⟩ | ⟨-, -, rfl⟩ := drainStep_eq_ok h
  · exact Eff.Silent.sendsOnce rfl
  · exact sending_sendsOnce _ _

theorem closeSteps_sendsOnce {now : Nat} (h : closeSteps p now e = .ok x) : x.SendsOnce := by
  obtain ⟨e₁, -, ⟨-, rfl⟩ | ⟨-, rfl⟩⟩ := closeSteps_eq_ok h
  · exact sending_sendsOnce _ _
  · exact Eff.Silent.sendsOnce rfl

end

/-! #### The operations -/

/-- If the outcome `r` is a next state, its trace is that of `s` with events added, at most one of them a `send`. -/
def SendsAtMostOnce (s : State) (r : Host.Outcome State Fault Refusal) : Prop :=
  ∀ t, r = .next t → ∃ evs, t.port.trace = s.port.trace ++ evs ∧ (sends evs).length ≤ 1

section
variable {s : State}

theorem SendsAtMostOnce.of_finish (e : Engine) {evs : List Event} (h : (sends evs).length ≤ 1) (a : Answer) :
    SendsAtMostOnce s (.next (s.finish e evs a)) := by
  intro t ht
  cases ht
  exact ⟨evs, rfl, h⟩

theorem SendsAtMostOnce.of_quiet (e : Engine) (a : Answer) : SendsAtMostOnce s (.next (s.finish e [] a)) :=
  .of_finish (evs := []) e (Nat.zero_le 1) a

theorem SendsAtMostOnce.of_fault (f : Fault) : SendsAtMostOnce s (.fault f) := by
  intro t ht
  cases ht

theorem SendsAtMostOnce.of_complete {r : Except Fault Eff} (h : ∀ x, r = .ok x → x.SendsOnce) (a : Answer) :
    SendsAtMostOnce s (s.complete r a) := by
  intro t ht
  obtain ⟨x, hx, rfl⟩ := complete_eq_next.1 ht
  exact ⟨x.events, rfl, h x hx⟩

end

theorem execTxStart_sendsAtMostOnce (s : State) : SendsAtMostOnce s (execTxStart s) := by
  unfold execTxStart
  split
  · exact .of_quiet _ _
  · exact .of_quiet _ _

theorem execTxPush_sendsAtMostOnce (b : Byte) (s : State) : SendsAtMostOnce s (execTxPush b s) := by
  intro t h
  obtain ⟨-, rfl⟩ | ⟨-, -, rfl⟩ | ⟨-, -, -, e, -, rfl⟩ := execTxPush_eq_next h
  all_goals exact ⟨[], rfl, Nat.zero_le 1⟩

/-- TX_CLOSE sends at most the raw END of its kick (R183, R202). -/
theorem execTxClose_sendsAtMostOnce (s : State) : SendsAtMostOnce s (execTxClose s) := by
  intro t h
  obtain ⟨-, rfl⟩ | ⟨-, -, rfl⟩ | ⟨-, -, -, x, hx, rfl⟩ := execTxClose_eq_next h
  · exact ⟨[], rfl, Nat.zero_le 1⟩
  · exact ⟨[], rfl, Nat.zero_le 1⟩
  · exact ⟨x.events, rfl, closeSteps_sendsOnce hx⟩

theorem execRxRead_sendsAtMostOnce (slot : BitVec 4) (offset : BitVec 12) (s : State) :
    SendsAtMostOnce s (execRxRead slot offset s) := by
  unfold execRxRead
  split
  · exact .of_quiet _ _
  · split
    · exact .of_fault _
    · split
      · exact .of_fault _
      · exact .of_quiet _ _

theorem execRxRelease_sendsAtMostOnce (slot : BitVec 4) (s : State) : SendsAtMostOnce s (execRxRelease slot s) := by
  unfold execRxRelease
  split
  · exact .of_quiet _ _
  · split
    · exact .of_fault _
    · exact .of_quiet _ _

theorem execTxReady_sendsAtMostOnce (s : State) : SendsAtMostOnce s (execTxReady s) := by
  unfold execTxReady
  split
  · exact .of_complete (fun _ => drainStep_sendsOnce) _
  · exact .of_quiet _ _

theorem receive_sendsAtMostOnce (c : Byte) (s : State) : SendsAtMostOnce s (receive c s) :=
  .of_complete (fun _ => rxByteStep_sendsOnce) _

/-- Settles O15: only the pump's procedures and the kick send, and no operation runs two of them that do. -/
theorem atMostOneSendPerOperation : Obligations.AtMostOneSendPerOperation := by
  intro i s
  change SendsAtMostOnce s (exec i s)
  cases i with
  | setChipId id => exact .of_quiet _ _
  | setPriority v => exact .of_quiet _ _
  | isIdle => exact .of_quiet _ _
  | txStart => exact execTxStart_sendsAtMostOnce s
  | txPush b => exact execTxPush_sendsAtMostOnce b s
  | txClose => exact execTxClose_sendsAtMostOnce s
  | rxRead slot offset => exact execRxRead_sendsAtMostOnce slot offset s
  | rxRelease slot => exact execRxRelease_sendsAtMostOnce slot s
  | txReady => exact execTxReady_sendsAtMostOnce s
  | rxByte c => exact receive_sendsAtMostOnce c s
  | endSym => exact receive_sendsAtMostOnce endByte s
  | esc => exact receive_sendsAtMostOnce escByte s
  | escEnd => exact receive_sendsAtMostOnce escEndByte s
  | escEsc => exact receive_sendsAtMostOnce escEscByte s
  | lit b => exact receive_sendsAtMostOnce b s

end Sys2Proof.Machine

/-! ### The TX queue, operation by operation (R200 to R203) -/

namespace Sys2Proof.Machine

/-! #### Equations of the producer operations -/

/-- An unmarked frame whose cells are free stays unmarked. -/
theorem not_marked_of_fits {p : Params} {e : Engine} {xs : List Byte} (hovf : e.txOvf = false)
    (hfits : xs.length + 1 ≤ txqFree p e) : ¬ (markOverflow p xs e).txOvf = true := by
  rw [markOverflow_txOvf, not_or]
  exact ⟨Bool.eq_false_iff.1 hovf, Nat.not_lt.2 hfits⟩

section
variable {s : State} {b : Byte}

theorem execTxStart_of_locked (hlock : s.engine.txLock = true) :
    exec .txStart s = .next (s.finish s.engine [] (Answer.plain .held)) := if_pos hlock

theorem execTxStart_of_unlocked (hlock : s.engine.txLock = false) :
    exec .txStart s = .next (s.finish
      { s.engine with txLock := true, txFrameStart := s.engine.txHead, txOvf := false } [] okAnswer) :=
  if_neg (Bool.not_eq_true _ ▸ hlock)

theorem execTxPush_of_unlocked (hlock : s.engine.txLock = false) :
    exec (.txPush b) s = .next (s.finish s.engine [] (Answer.plain .rejected)) := if_pos hlock

/-- A push under the lock is refused if the frame is marked, or if the encoding and the terminator do not fit. -/
theorem execTxPush_of_overflow (hlock : s.engine.txLock = true)
    (hover : s.engine.txOvf = true ∨ txqFree s.params s.engine < (enc b).length + 1) :
    exec (.txPush b) s = .next (s.finish { s.engine with txOvf := true } [] (Answer.plain .rejected)) := by
  have hmarked : (markOverflow s.params (enc b) s.engine).txOvf = true := markOverflow_txOvf.2 hover
  have hmark : markOverflow s.params (enc b) s.engine = { s.engine with txOvf := true } := by rw [← hmarked]; rfl
  change execTxPush b s = _
  rw [execTxPush, if_neg (by simp [hlock]), if_pos hmarked, hmark]

theorem execTxPush_of_appendCells {e : Engine} (hlock : s.engine.txLock = true) (hovf : s.engine.txOvf = false)
    (hfree : (enc b).length + 1 ≤ txqFree s.params s.engine) (ha : appendCells s.params s.engine (enc b) = .ok e) :
    exec (.txPush b) s = .next (s.finish e [] okAnswer) := by
  change execTxPush b s = _
  rw [execTxPush, if_neg (by simp [hlock]), if_neg (not_marked_of_fits hovf hfree), ha]
  rfl

theorem execTxClose_of_unlocked (hlock : s.engine.txLock = false) :
    exec .txClose s = .next (s.finish s.engine [] (Answer.plain .rejected)) := if_pos hlock

theorem execTxClose_of_closeSteps {x : Eff} (hlock : s.engine.txLock = true) (hovf : s.engine.txOvf = false)
    (hfree : 1 ≤ txqFree s.params s.engine) (h : closeSteps s.params s.tick s.engine = .ok x) :
    exec .txClose s = .next (s.finish x.engine x.events okAnswer) := by
  change execTxClose s = _
  rw [execTxClose, if_neg (by simp [hlock]), if_neg (not_marked_of_fits (xs := []) hovf hfree), h]
  rfl

end

/-- Settles O35: TX_START branches on the lock alone. -/
theorem txStartTakesTheLockOrIsHeld : Obligations.TxStartTakesTheLockOrIsHeld :=
  fun _ => ⟨execTxStart_of_locked, execTxStart_of_unlocked⟩

/-! #### TX_PUSH (R201) -/

section
variable {p : Params} {e e' : Engine} {vs : List Byte}

theorem appendCell_of_lt (hhead : e.txHead < p.txqCap) (v : Byte) :
    appendCell p e v = .ok { e with txq := e.txq.write e.txHead v, txHead := ringNext p e.txHead } :=
  appendCell_eq_ok.2 ⟨hhead, rfl⟩

/-- The index after `a` and then `k` more, modulo the capacity. -/
theorem ringNext_add_mod (p : Params) (a k : Nat) : (ringNext p a + k) % p.txqCap = (a + (k + 1)) % p.txqCap := by
  rw [ringNext, Nat.mod_add_mod, Nat.add_assoc, Nat.add_comm 1 k]

/-- No append faults while `tx_head` is inside the ring. -/
theorem exists_appendCells (hhead : e.txHead < p.txqCap) (vs : List Byte) : ∃ e', appendCells p e vs = .ok e' := by
  induction vs generalizing e with
  | nil => exact ⟨e, rfl⟩
  | cons v vs ih =>
    obtain ⟨e', he'⟩ := ih (e := { e with txq := e.txq.write e.txHead v, txHead := ringNext p e.txHead })
      (ringNext_lt (Nat.zero_lt_of_lt hhead) _)
    exact ⟨e', appendCells_cons_eq_ok.2 ⟨_, appendCell_of_lt hhead v, he'⟩⟩

theorem appendCells_txHead (hhead : e.txHead < p.txqCap) (ha : appendCells p e vs = .ok e') :
    e'.txHead = (e.txHead + vs.length) % p.txqCap := by
  induction vs generalizing e with
  | nil => cases ha; exact (Nat.mod_eq_of_lt hhead).symm
  | cons v vs ih =>
    obtain ⟨e₁, he₁, hvs⟩ := appendCells_cons_eq_ok.1 ha
    obtain ⟨-, rfl⟩ := appendCell_eq_ok.1 he₁
    rw [ih (ringNext_lt (Nat.zero_lt_of_lt hhead) _) hvs, ringNext_add_mod, List.length_cons]

/-- An append writes only the cells from `tx_head` on that its bytes take, in ring order. -/
theorem appendCells_read_other {a : Nat} (hhead : e.txHead < p.txqCap) (ha : appendCells p e vs = .ok e')
    (hother : ∀ k < vs.length, a ≠ (e.txHead + k) % p.txqCap) : e'.txq.read a = e.txq.read a := by
  induction vs generalizing e with
  | nil => cases ha; rfl
  | cons v vs ih =>
    obtain ⟨e₁, he₁, hvs⟩ := appendCells_cons_eq_ok.1 ha
    obtain ⟨-, rfl⟩ := appendCell_eq_ok.1 he₁
    have hfirst : a ≠ e.txHead := by
      simpa [Nat.mod_eq_of_lt hhead] using hother 0 (Nat.zero_lt_succ _)
    have hrest : ∀ k < vs.length, a ≠ (ringNext p e.txHead + k) % p.txqCap := fun k hk => by
      rw [ringNext_add_mod]
      exact hother (k + 1) (Nat.succ_lt_succ hk)
    calc e'.txq.read a
      _ = (e.txq.write e.txHead v).read a := ih (ringNext_lt (Nat.zero_lt_of_lt hhead) _) hvs hrest
      _ = e.txq.read a := Memory.read_write_other hfirst v

end

/-- Settles O36: the bytes of the encoding are appended one by one, each at the cell `tx_head` has reached. -/
theorem txPushAppendsTheEncodedByte : Obligations.TxPushAppendsTheEncodedByte := by
  intro s b xs hs hxs hlock hovf hfree
  obtain rfl : xs = enc b := hxs
  obtain ⟨htx, -⟩ := sound_iff.1 hs.engine
  obtain ⟨e, ha⟩ := exists_appendCells htx.head (enc b)
  have hframe : e = { s.engine with txq := e.txq, txHead := (s.engine.txHead + (enc b).length) % s.params.txqCap } := by
    rw [← appendCells_txHead htx.head ha]
    exact appendCells_engine ha
  refine ⟨e.txq, ?_, ?_, fun a => appendCells_read_other htx.head ha⟩
  · rw [← hframe]
    exact execTxPush_of_appendCells hlock hovf hfree ha
  · rw [← hframe]
    exact ringContent_appendCells htx (Nat.le_of_succ_le hfree) ha

/-- The cells a push asks for: two bytes and the terminator for the bytes that are escaped, one and the terminator otherwise. -/
theorem enc_length_add_one (b : Byte) : (enc b).length + 1 = if b = endByte ∨ b = escByte then 3 else 2 := by
  obtain rfl | rfl | ⟨hend, hesc⟩ := byte_cases b
  · rfl
  · rfl
  · rw [enc_lit hend hesc, if_neg (not_or.2 ⟨hend, hesc⟩)]; rfl

/-- Settles O37: the room TX_PUSH tests for is that of the whole encoding and the terminator. -/
theorem txPushIsRefusedWhole : Obligations.TxPushIsRefusedWhole := by
  refine fun s b => ⟨execTxPush_of_unlocked, fun hlock hover => execTxPush_of_overflow hlock ?_⟩
  rw [enc_length_add_one]
  exact hover

/-! #### TX_CLOSE, accepted (R202) -/

section
variable {p : Params} {now : Nat} {e : Engine}

/-- No step of a TX_CLOSE faults while `tx_head` is inside the ring. -/
theorem exists_closeSteps (hhead : e.txHead < p.txqCap) (now : Nat) : ∃ x, closeSteps p now e = .ok x := by
  rw [closeSteps, appendCell_of_lt hhead]
  exact ⟨_, rfl⟩

theorem closeSteps_of_busy (hhead : e.txHead < p.txqCap) (hbusy : isIdle p now e = false) :
    closeSteps p now e = .ok (Eff.quiet
      { e with
          txq := e.txq.write e.txHead endByte, txHead := ringNext p e.txHead
          txPending := e.txPending + 1, txLock := false }) := by
  obtain ⟨x, hx⟩ := exists_closeSteps hhead now
  obtain ⟨e₁, he₁, hcase⟩ := closeSteps_eq_ok hx
  obtain ⟨-, rfl⟩ := appendCell_eq_ok.1 he₁
  obtain ⟨hidle, -⟩ | ⟨-, rfl⟩ := hcase
  · exact absurd (hbusy.symm.trans hidle) Bool.false_ne_true
  · exact hx

theorem closeSteps_of_idle (hhead : e.txHead < p.txqCap) (hidle : isIdle p now e = true) :
    closeSteps p now e = .ok (Eff.sending
      { e with
          txq := e.txq.write e.txHead endByte, txHead := ringNext p e.txHead
          txPending := e.txPending + 1, txLock := false
          arbIndex := 0, mismatchPos := 0, arbPkt := ownPacket p e
          state := .participatingArbitration, txIrqEn := false, lastActivity := now } endByte) := by
  obtain ⟨x, hx⟩ := exists_closeSteps hhead now
  obtain ⟨e₁, he₁, hcase⟩ := closeSteps_eq_ok hx
  obtain ⟨-, rfl⟩ := appendCell_eq_ok.1 he₁
  obtain ⟨-, rfl⟩ | ⟨hbusy, -⟩ := hcase
  · exact hx
  · exact absurd (hbusy.symm.trans hidle) Bool.false_ne_true

/-- The terminator goes behind the ring content. -/
theorem ringContent_terminated (htx : TxSound p e) (hfree : 1 ≤ txqFree p e) :
    ringContent p { e with txq := e.txq.write e.txHead endByte, txHead := ringNext p e.txHead } =
      ringContent p e ++ [endByte] :=
  ringContent_appendCell htx hfree (appendCell_of_lt htx.head endByte)

end

/-- Settles O38: off the idle bus the terminator, the count and the release are all the steps there are. -/
theorem txCloseQueuesTheFrame : Obligations.TxCloseQueuesTheFrame := by
  intro s hs hlock hovf hfree hbusy
  obtain ⟨htx, -⟩ := sound_iff.1 hs.engine
  exact ⟨s.engine.txq.write s.engine.txHead endByte,
    execTxClose_of_closeSteps hlock hovf hfree (closeSteps_of_busy htx.head hbusy),
    ringContent_terminated htx hfree, fun _ hne => Memory.read_write_other hne endByte⟩

/-- Settles O39: on the idle bus the kick runs between the count and the release. -/
theorem txCloseKicksOnAnIdleBus : Obligations.TxCloseKicksOnAnIdleBus := by
  intro s hs hlock hovf hfree hidle
  obtain ⟨htx, -⟩ := sound_iff.1 hs.engine
  exact ⟨s.engine.txq.write s.engine.txHead endByte,
    execTxClose_of_closeSteps hlock hovf hfree (closeSteps_of_idle htx.head hidle),
    ringContent_terminated htx hfree, fun _ hne => Memory.read_write_other hne endByte⟩

/-! #### TX_CLOSE, refused (R203) -/

/-- Settles O40: the overflow mark alone has TX_CLOSE roll the frame back. -/
theorem txCloseRefusedRollsBack : Obligations.TxCloseRefusedRollsBack :=
  fun _ => ⟨execTxClose_of_unlocked, fun hlock hovf => execTxClose_of_overflow hlock (.inl hovf)⟩

/-- Settles O41: the rollback cuts the ring content at the frame's start, behind which V2 has no terminator. -/
theorem rollbackKeepsTheQueuedFrames : Obligations.RollbackKeepsTheQueuedFrames := by
  intro s t _ h2 hlock hover ht
  obtain rfl : s.finish (txRollback s.engine) [] (Answer.plain .rejected) = t :=
    Host.Outcome.next.inj ((execTxClose_of_overflow hlock hover).symm.trans ht)
  have hkept : ringContent s.params (txRollback s.engine) =
      (ringContent s.params s.engine).take (frameOffset s.params s.engine) := ringContent_rollback (h2.mark hlock)
  have h2' : V2 s.params (txRollback s.engine) := (KeepsRing.of_rollback h2 hlock).v2
  refine ⟨(ringContent s.params s.engine).drop (frameOffset s.params s.engine), ?_, h2'.unlocked rfl, h2'.count, rfl,
    fun hmem => h2.composed hlock _ hmem rfl⟩
  rw [finish_params, finish_engine, hkept, List.take_append_drop]

end Sys2Proof.Machine

/-! ### The consumer's two operations (R225, R226) -/

namespace Sys2Proof.Machine

section
variable {s : State} {slot : BitVec 4} {sl : Slot}

/-- Every slot number of the pool names a slot of a sound engine. -/
theorem exists_slot_of_lt {p : Params} {e : Engine} {k : Nat} (hs : Sound p e) (hk : k < p.nSlots) :
    ∃ sl, e.slots[k]? = some sl :=
  ⟨_, List.getElem?_eq_getElem (hs.range.slotCount.symm ▸ hk)⟩

/-- An offset below the length of the frame names a cell of the slot, so the read does not stop. -/
theorem readData_eq {p : Params} (hlen : sl.len ≤ p.rxSlotCap) (i k : Nat) :
    readData p i sl k = .ok (if sl.available = true ∧ k < sl.len then sl.buf.read k else 0x00#8) := by
  unfold readData
  split
  · next h => exact memRead_eq_ok.2 ⟨Nat.lt_of_lt_of_le h.2 hlen, rfl⟩
  · rfl

theorem execRxRead_of_slot (k : BitVec 12) (hlt : slot.toNat < s.params.nSlots)
    (hsl : s.engine.slots[slot.toNat]? = some sl) (hlen : sl.len ≤ s.params.rxSlotCap) :
    exec (.rxRead slot k) s = .next (s.finish s.engine []
      { status := .ok
        result := .slotView sl.available sl.sep sl.len
          (if sl.available = true ∧ k.toNat < sl.len then sl.buf.read k.toNat else 0x00#8) }) := by
  have hread : execRxRead slot k s = _ := if_neg (Nat.not_le.2 hlt)
  rw [slotOperand, getSlot_eq_ok.2 hsl] at hread
  simp only [readData_eq hlen] at hread
  exact hread

theorem execRxRelease_of_slot (hlt : slot.toNat < s.params.nSlots) (hsl : s.engine.slots[slot.toNat]? = some sl) :
    exec (.rxRelease slot) s = .next (s.finish (setSlot s.engine slot.toNat { sl with available := false }) [] okAnswer) := by
  have hrelease : execRxRelease slot s = _ := if_neg (Nat.not_le.2 hlt)
  rw [slotOperand, getSlot_eq_ok.2 hsl] at hrelease
  exact hrelease

end

/-- Settles O42: a number beyond the pool is turned away; any other names a slot, whose frame lies inside its cells by V4. -/
theorem rxReadAnswersTheSlot : Obligations.RxReadAnswersTheSlot := by
  intro s slot k hs
  refine ⟨execRxRead_of_no_slot k, fun hlt => ?_⟩
  obtain ⟨sl, hsl⟩ := exists_slot_of_lt hs.engine hlt
  obtain ⟨hlen, -⟩ := hs.engine.v4 sl (List.mem_of_getElem? hsl)
  exact ⟨sl, hsl, execRxRead_of_slot k hlt hsl hlen⟩

/-- Settles O43: a number beyond the pool is turned away; any other names the slot that is written back. -/
theorem rxReleaseClearsAvailable : Obligations.RxReleaseClearsAvailable := by
  intro s slot hs
  refine ⟨execRxRelease_of_no_slot, fun hlt => ?_⟩
  obtain ⟨sl, hsl⟩ := exists_slot_of_lt hs.engine hlt
  exact ⟨sl, hsl, execRxRelease_of_slot hlt hsl⟩

end Sys2Proof.Machine

/-! ### The frame in a slot (R34, R225) -/

namespace Sys2Proof.Machine

section
variable {p : Params} {sl : Slot}

@[simp] theorem Slot.bytes_length (sl : Slot) : sl.bytes.length = sl.len := by simp [Slot.bytes]

@[simp] theorem Slot.topic_length (sl : Slot) : sl.topic.length = sl.sep := by simp [Slot.topic]

@[simp] theorem Slot.payload_length (sl : Slot) : sl.payload.length = sl.len - sl.sep - 1 := by simp [Slot.payload]

/-- The bytes are cut at `sep`: before it, there, and behind it. -/
theorem Slot.bytes_eq_cut (hsep : sl.sep < sl.len) : sl.bytes = sl.topic ++ sl.buf.read sl.sep :: sl.payload := by
  have hlen : sl.len = sl.sep + 1 + (sl.len - sl.sep - 1) := by omega
  have hrange : List.range sl.len =
      List.range sl.sep ++ sl.sep :: (List.range (sl.len - sl.sep - 1)).map (sl.sep + 1 + ·) := by
    calc List.range sl.len
        = List.range (sl.sep + 1 + (sl.len - sl.sep - 1)) := congrArg List.range hlen
      _ = List.range (sl.sep + 1) ++ (List.range (sl.len - sl.sep - 1)).map (sl.sep + 1 + ·) := List.range_add
      _ = _ := by rw [List.range_succ, List.append_assoc, List.singleton_append]
  rw [Slot.bytes, hrange, List.map_append, List.map_cons, List.map_map]
  rfl

theorem Slot.V4.sepValid (h : sl.V4 p) (havail : sl.available = true) : sl.sepValid = true := by
  obtain ⟨-, -, -, hsep⟩ := h
  exact hsep havail

/-- V4 of a slot with a separator, as a statement about its bytes: `sep` is the place of the first zero. -/
theorem Slot.frame_of_sepValid (h : sl.V4 p) (hsep : sl.sepValid = true) :
    sl.bytes = sl.topic ++ 0x00#8 :: sl.payload ∧ 0x00#8 ∉ sl.topic := by
  obtain ⟨-, hvalid, -, -⟩ := h
  obtain ⟨hlt, hzero, hfirst⟩ := hvalid hsep
  refine ⟨hzero ▸ Slot.bytes_eq_cut hlt, fun hmem => ?_⟩
  obtain ⟨k, hk, hread⟩ := List.mem_map.1 hmem
  exact hfirst k (List.mem_range.1 hk) hread

end

/-- Settles O44: an available slot has a separator, and V4 says where. -/
theorem anAvailableSlotIsAFrame : Obligations.AnAvailableSlotIsAFrame := by
  intro p e sl hs hmem havail
  have hv4 : sl.V4 p := hs.v4 sl hmem
  obtain ⟨hbytes, htopic⟩ := Slot.frame_of_sepValid hv4 (Slot.V4.sepValid hv4 havail)
  exact ⟨hbytes, htopic, sl.topic_length, sl.payload_length⟩

end Sys2Proof.Machine

/-! ### A slot the consumer owns (R68, R229 b) -/

namespace Sys2Proof.Machine

/-- From the engine `e` to the engine `e'` no available slot is touched. -/
def KeepsAvailable (e e' : Engine) : Prop :=
  ∀ (k : Nat) (sl : Slot), e.slots[k]? = some sl → sl.available = true → e'.slots[k]? = some sl

section
variable {p : Params} {e e' e₁ : Engine} {c : Byte} {x : Eff}

theorem KeepsAvailable.of_slots (h : e'.slots = e.slots) : KeepsAvailable e e' := by
  intro k sl hsl _
  rw [h, hsl]

theorem KeepsAvailable.trans (h : KeepsAvailable e e₁) (h' : KeepsAvailable e₁ e') : KeepsAvailable e e' :=
  fun k sl hsl havail => h' k sl (h k sl hsl havail) havail

/-- A slot that is not available may be written. -/
theorem KeepsAvailable.of_setSlot {i : Nat} {sl₀ : Slot} (hi : e.slots[i]? = some sl₀) (hfree : sl₀.available = false)
    (sl' : Slot) : KeepsAvailable e (setSlot e i sl') := by
  intro k sl hsl havail
  have hik : i ≠ k := by
    rintro rfl
    obtain rfl : sl₀ = sl := Option.some.inj (hi.symm.trans hsl)
    rw [hfree] at havail
    cases havail
  rw [setSlot_slots, List.getElem?_set_ne hik, hsl]

/-! #### The receive path: the pump writes no slot but its own -/

/-- `rx_begin` restarts a free slot only (R220). -/
theorem rxBegin_keepsAvailable (h : rxBegin e = .ok x) : KeepsAvailable e x.engine := by
  obtain ⟨sl, hsl, ⟨-, rfl⟩ | ⟨hfree, rfl⟩⟩ := rxBegin_eq_ok h
  · exact .of_slots rfl
  · exact .of_setSlot (e := { e with rxEsc := false, rxDrop := false }) hsl hfree _

section
variable (howns : PumpOwns e) (hst : e.state = .receiving)
include howns hst

theorem rxEmit_keepsAvailable {d : Byte} (h : rxEmit p d e = .ok x) : KeepsAvailable e x.engine := by
  obtain ⟨-, rfl⟩ | ⟨sl, hdrop, hsl, ⟨-, rfl⟩ | ⟨-, rfl⟩⟩ := rxEmit_eq_ok h
  · exact .of_slots rfl
  · exact .of_slots rfl
  · exact .of_setSlot hsl (howns hst hdrop sl hsl) _

theorem decStep_keepsAvailable (h : decStep p c e = .ok x) : KeepsAvailable e x.engine := by
  obtain ⟨esc, hx | ⟨d, hx⟩⟩ := decStep_eq_ok h
  · rw [hx]; exact .of_slots rfl
  · exact rxEmit_keepsAvailable (e := { e with rxEsc := esc }) howns hst hx

theorem deliver_keepsAvailable (h : deliver p e = .ok x) : KeepsAvailable e x.engine := by
  obtain ⟨-, rfl⟩ | ⟨sl, hdrop, hsl, ⟨-, rfl⟩ | ⟨-, rfl⟩⟩ := deliver_eq_ok h
  · exact .of_slots rfl
  · exact (KeepsAvailable.of_setSlot hsl (howns hst hdrop sl hsl) _).trans (.of_slots rfl)
  · exact .of_slots rfl

theorem rxFinish_keepsAvailable (h : rxFinish p e = .ok x) : KeepsAvailable e x.engine := by
  obtain ⟨y, hy, hx⟩ := rxFinish_eq_ok h
  rw [hx]
  exact deliver_keepsAvailable (e := { e with rxEsc := false }) howns hst hy

end

theorem waitStep_keepsAvailable (h : waitStep e = .ok x) : KeepsAvailable e x.engine := by
  obtain ⟨-, rfl⟩ | ⟨a, -, ha, rfl⟩ := waitStep_eq_ok h
  · exact .of_slots rfl
  · exact (rxBegin_keepsAvailable (e := { e with arbIndex := 7 }) ha).trans (.of_slots rfl)

theorem partLose_keepsAvailable (h : partLose e = .ok x) : KeepsAvailable e x.engine := by
  obtain ⟨-, rfl⟩ | ⟨a, -, ha, rfl⟩ := partLose_eq_ok h
  · exact .of_slots rfl
  · exact (rxBegin_keepsAvailable ha).trans (.of_slots rfl)

theorem partStep_keepsAvailable (h : partStep e c = .ok x) : KeepsAvailable e x.engine := by
  obtain ⟨-, rfl⟩ | ⟨-, rfl⟩ | ⟨-, hmap⟩ := partStep_eq_ok h
  · rw [partIdentity_engine]; exact .of_slots rfl
  · exact .of_slots rfl
  · obtain hlose | ⟨-, rfl⟩ | ⟨-, rfl⟩ := partMap_eq_ok hmap
    · exact partLose_keepsAvailable (e := { e with arbIndex := e.arbIndex + 1 }) hlose
    · exact .of_slots rfl
    · exact .of_slots rfl

theorem rearb_keepsAvailable (p : Params) (e : Engine) : KeepsAvailable e (rearb p e).engine := by
  rw [rearb_eq]
  exact .of_slots rfl

theorem dataStep_keepsAvailable (howns : PumpOwns e) (h : dataStep p c e = .ok x) : KeepsAvailable e x.engine := by
  unfold dataStep at h
  split at h
  case h_4 => exact waitStep_keepsAvailable h
  case h_5 => exact partStep_keepsAvailable h
  case h_6 hst => exact decStep_keepsAvailable howns hst h
  all_goals cases h; exact .of_slots rfl

theorem endStep_keepsAvailable (howns : PumpOwns e) (h : endStep p e = .ok x) : KeepsAvailable e x.engine := by
  unfold endStep at h
  split at h
  case h_1 => cases h; exact .of_slots rfl
  case h_2 => cases h; exact .of_slots rfl
  case h_3 hst =>
    obtain ⟨a, ha, hx⟩ := finish_then_rearb_eq_ok h
    rw [hx]
    exact (rxFinish_keepsAvailable howns hst ha).trans (rearb_keepsAvailable p a.engine)
  all_goals cases h; exact rearb_keepsAvailable p e

theorem rxByteStep_keepsAvailable {now : Nat} (howns : PumpOwns e) (h : rxByteStep p now c e = .ok x) :
    KeepsAvailable e x.engine := by
  obtain hend | hend | hdata := rxByteStep_eq_ok h
  · exact endStep_keepsAvailable (e := forceIdle { e with lastActivity := now }) (pumpOwns_of_not_receiving nofun) hend
  · exact endStep_keepsAvailable (e := { e with lastActivity := now }) howns hend
  · exact dataStep_keepsAvailable (e := { e with lastActivity := now }) howns hdata

end

section
variable {i : Instr} {s t : State}

theorem receive_keepsAvailable {c : Byte} (hs : s.Sound) (h : receive c s = .next t) :
    KeepsAvailable s.engine t.engine := by
  obtain ⟨x, hx, rfl⟩ := receive_eq_next h
  exact rxByteStep_keepsAvailable hs.engine.owns hx

theorem KeepsAvailable.of_sameReceiveSide {e e' : Engine} (h : sameReceiveSide e' e) : KeepsAvailable e e' := .of_slots h.1

/-! #### Operations and steps -/

/-- No operation but RX_RELEASE touches an available slot. -/
theorem exec_keepsAvailable (hs : s.Sound) (hi : ∀ slot, i ≠ .rxRelease slot) (h : exec i s = .next t) :
    KeepsAvailable s.engine t.engine := by
  cases i with
  | setChipId id => cases h; exact .of_slots rfl
  | setPriority v => cases h; exact .of_slots rfl
  | isIdle => cases h; exact .of_slots rfl
  | txStart => obtain ⟨-, -, hrx, -⟩ := execTxStart_frame h; exact .of_sameReceiveSide hrx
  | txPush b => obtain ⟨-, hrx, -⟩ := execTxPush_frame h; exact .of_sameReceiveSide hrx
  | txClose => obtain ⟨-, hrx, -⟩ := execTxClose_frame h; exact .of_sameReceiveSide hrx
  | rxRead slot offset => rw [execRxRead_engine h]; exact .of_slots rfl
  | rxRelease slot => exact absurd rfl (hi slot)
  | txReady => obtain ⟨-, -, hrx, -⟩ := execTxReady_frame h; exact .of_sameReceiveSide hrx
  | rxByte c => exact receive_keepsAvailable hs h
  | endSym => exact receive_keepsAvailable hs h
  | esc => exact receive_keepsAvailable hs h
  | escEnd => exact receive_keepsAvailable hs h
  | escEsc => exact receive_keepsAvailable hs h
  | lit b => exact receive_keepsAvailable hs h

/-- The two slots hold the same frame: cells, length, separator. -/
abbrev Slot.SameFrame (sl' sl : Slot) : Prop :=
  sl'.buf = sl.buf ∧ sl'.len = sl.len ∧ sl'.sep = sl.sep ∧ sl'.sepValid = sl.sepValid

variable {k : Nat} {sl : Slot}

/-- RX_RELEASE leaves every slot its frame, and every slot but the one it names its `available` bit. -/
theorem execRxRelease_keepsFrame {slot : BitVec 4} (h : exec (.rxRelease slot) s = .next t)
    (hsl : s.engine.slots[k]? = some sl) :
    ∃ sl', t.engine.slots[k]? = some sl' ∧ sl'.SameFrame sl ∧ (sl'.available = sl.available ∨ slot.toNat = k) := by
  obtain ht | ⟨sl₀, hsl₀, ht⟩ := execRxRelease_engine h <;> rw [ht]
  · exact ⟨sl, hsl, ⟨rfl, rfl, rfl, rfl⟩, .inl rfl⟩
  · by_cases hk : slot.toNat = k
    · subst hk
      obtain rfl : sl₀ = sl := Option.some.inj (hsl₀.symm.trans hsl)
      exact ⟨_, getElem?_setSlot_same hsl, ⟨rfl, rfl, rfl, rfl⟩, .inr rfl⟩
    · exact ⟨sl, (List.getElem?_set_ne hk).trans hsl, ⟨rfl, rfl, rfl, rfl⟩, .inl rfl⟩

/-- Every operation leaves an available slot its frame, and only the RX_RELEASE that names it takes it from the consumer. -/
theorem exec_keepsFrame (hs : s.Sound) (h : exec i s = .next t) (hsl : s.engine.slots[k]? = some sl)
    (havail : sl.available = true) :
    ∃ sl', t.engine.slots[k]? = some sl' ∧ sl'.SameFrame sl ∧
      (sl'.available = true ∨ ∃ slot, i = .rxRelease slot ∧ slot.toNat = k) := by
  by_cases hi : ∃ slot, i = .rxRelease slot
  · obtain ⟨slot, rfl⟩ := hi
    obtain ⟨sl', hsl', hframe, hend⟩ := execRxRelease_keepsFrame h hsl
    exact ⟨sl', hsl', hframe, hend.imp (·.trans havail) fun hk => ⟨slot, rfl, hk⟩⟩
  · exact ⟨sl, exec_keepsAvailable hs (not_exists.1 hi) h k sl hsl havail, ⟨rfl, rfl, rfl, rfl⟩, .inl havail⟩

end

/-- No byte on the wire is run as RX_RELEASE. -/
theorem wireInstr_ne_rxRelease (inBody rxEsc : Bool) (b : Byte) (slot : BitVec 4) :
    wireInstr inBody rxEsc b ≠ .rxRelease slot := by
  unfold wireInstr decodeWire
  split_ifs <;> exact nofun

theorem State.Sound.accept {s : State} (hs : s.Sound) (x : Input) (rest : List Input) : (s.accept x rest).Sound :=
  ⟨hs.legal, hs.spreads, hs.engine⟩

/-- Settles O17: the input is a command word, which is run or rejected, or a wire byte, which never releases a slot. -/
theorem anAvailableSlotIsNeverTouched : Obligations.AnAvailableSlotIsNeverTouched := by
  intro s t x rest k sl hs hp hx h hsl havail
  cases x with
  | reset => exact absurd rfl hx
  | command w now =>
    cases hd : decodeCommand w with
    | error r =>
      rw [step_command_error hp hd] at h
      cases h
      exact ⟨sl, hsl, rfl, rfl, rfl, rfl, .inl havail⟩
    | ok i =>
      rw [step_command hp hd] at h
      obtain ⟨sl', hsl', ⟨hbuf, hlen, hsep, hvalid⟩, hend⟩ := exec_keepsFrame (hs.accept _ rest) h hsl havail
      refine ⟨sl', hsl', hbuf, hlen, hsep, hvalid, hend.imp_right ?_⟩
      rintro ⟨slot, rfl, hk⟩
      exact ⟨w, now, slot, rfl, hd, hk⟩
  | wireByte b now =>
    rw [step_wireByte hp] at h
    have hkept := exec_keepsAvailable (hs.accept _ rest) (wireInstr_ne_rxRelease _ _ b) h
    exact ⟨sl, hkept k sl hsl havail, rfl, rfl, rfl, rfl, .inl havail⟩

end Sys2Proof.Machine

/-! ### A frame beyond the slot's capacity (R223) -/

namespace Sys2Proof.Machine

section
variable {p : Params} {e : Engine} {d : Byte}

theorem rxEmit_overflows {sl : Slot} (hdrop : e.rxDrop = false) (hsl : e.slots[e.rxActive]? = some sl)
    (hfull : sl.len = p.rxSlotCap) : rxEmit p d e = .ok (Eff.report { e with rxDrop := true } .rxOverflow) := by
  rw [rxEmit, if_neg (by simp [hdrop]), getSlot_eq_ok.2 hsl]
  exact if_pos hfull

theorem rxEmit_dropped (hdrop : e.rxDrop = true) : rxEmit p d e = .ok (Eff.quiet e) := if_pos hdrop

end

/-- ESC as the wire symbol or as RX_BYTE, in a frame body without a pending escape, marked or not (R124). -/
theorem exec_of_esc {s : State} {i : Instr} (hi : i = .esc ∨ i = .rxByte escByte) (hst : s.engine.state = .receiving)
    (hesc : s.engine.rxEsc = false) :
    exec i s = .next (s.finish { s.stamped with rxEsc := true } [] okAnswer) := by
  have hreceive : exec i s = receive escByte s := by obtain rfl | rfl := hi <;> rfl
  exact hreceive.trans (receive_receiving (c := escByte) (by decide) hst (decStep_esc hesc))

/-- Settles O57: the decode step clears the flag, then `rx_emit` marks the frame or, in a marked frame, does nothing. -/
theorem anOverlongFrameIsDropped : Obligations.AnOverlongFrameIsDropped := by
  intro s sl _ hst hsl
  refine ⟨fun i d hd => ?_, fun i hi hesc _ => exec_of_esc hi hst hesc⟩
  obtain ⟨c, hc, hreceive, hdec⟩ := exec_of_decodesTo hd
  have hstep : decStep s.params c s.stamped = rxEmit s.params d { s.stamped with rxEsc := false } :=
    decStep_of_byte (e := s.stamped) hdec
  refine ⟨fun hdrop hfull => ?_, fun hdrop => ?_⟩
  · exact (hreceive s).trans (receive_receiving hc hst (hstep.trans (rxEmit_overflows hdrop hsl hfull)))
  · exact (hreceive s).trans (receive_receiving hc hst (hstep.trans (rxEmit_dropped hdrop)))

end Sys2Proof.Machine

/-! ### The reception of a whole frame (R129, R228) -/

namespace Sys2Proof.Machine

theorem State.Sound.of_exec {i : Instr} {s t : State} (hs : s.Sound) (h : exec i s = .next t) : t.Sound := by
  have hengine : Machine.Sound s.params t.engine := exec_sound hs h
  obtain ⟨e, evs, a, rfl⟩ := exec_endsInFinish i s t h
  exact ⟨hs.legal, hs.spreads, hengine⟩

theorem State.Sound.atTick {s : State} (hs : s.Sound) (now : Nat) : (s.atTick now).Sound :=
  ⟨hs.legal, hs.spreads, hs.engine⟩

/-- The elapsed time depends on the two ticks modulo `2^TICK_BITS` only (R184). -/
theorem elapsed_mod (p : Params) (now t : Nat) :
    elapsed p (now % 2 ^ p.tickBits) (t % 2 ^ p.tickBits) = elapsed p now t := by
  unfold elapsed
  rw [Int.natCast_mod, Int.natCast_mod, ← Int.sub_emod]

/-! #### The bytes of a slot -/

/-- A stored byte is appended to the bytes the slot holds (R221). -/
theorem Slot.store_bytes {sl : Slot} (hwf : sl.buf.wf = true) (d : Byte) : (sl.store d).bytes = sl.bytes ++ [d] := by
  have hold : (List.range sl.len).map (sl.buf.write sl.len d).read = sl.bytes :=
    List.map_congr_left fun k hk => Memory.read_write_other (Nat.ne_of_lt (List.mem_range.1 hk)) d
  have hnew : (sl.buf.write sl.len d).read sl.len = d := Memory.read_write_same hwf _ _
  rw [Slot.bytes, sl.store_len, sl.store_buf, List.range_succ, List.map_append, hold, List.map_singleton, hnew]

/-- A byte that completes no invalid escape appends what it decodes to, a byte or nothing, to the active slot (R122, R221). -/
theorem decStep_stores {p : Params} {e : Engine} {c : Byte} {sl : Slot} (hdrop : e.rxDrop = false)
    (hsl : e.slots[e.rxActive]? = some sl) (hwf : sl.buf.wf = true) (hdesync : (decStepOf e.rxEsc c).desync = false)
    (hroom : (sl.bytes ++ (decStepOf e.rxEsc c).byte.toList).length ≤ p.rxSlotCap) :
    ∃ sl', decStep p c e = .ok (Eff.quiet (setSlot { e with rxEsc := (decStepOf e.rxEsc c).rxEsc } e.rxActive sl')) ∧
      sl'.bytes = sl.bytes ++ (decStepOf e.rxEsc c).byte.toList := by
  cases hbyte : (decStepOf e.rxEsc c).byte with
  | none =>
    have hsame : e.slots.set e.rxActive sl = e.slots := by
      obtain ⟨hlt, rfl⟩ := List.getElem?_eq_some_iff.1 hsl
      exact List.set_getElem_self hlt
    refine ⟨sl, ?_, (List.append_nil _).symm⟩
    rw [decStep, hbyte, setSlot, hsame]
    exact if_neg (by simp [hdesync])
  | some d =>
    rw [hbyte, List.length_append, Slot.bytes_length] at hroom
    refine ⟨sl.store d, ?_, Slot.store_bytes hwf d⟩
    rw [decStep, hbyte]
    exact rxEmit_stores (e := { e with rxEsc := (decStepOf e.rxEsc c).rxEsc }) hdrop hsl hroom

/-- A byte string is cut in one way only at its first zero. -/
theorem cut_at_zero_unique {xs xs' ys ys' : List Byte} (hxs : 0x00#8 ∉ xs) (hxs' : 0x00#8 ∉ xs')
    (h : xs ++ 0x00#8 :: ys = xs' ++ 0x00#8 :: ys') : xs = xs' ∧ ys = ys' := by
  have htake (zs ws : List Byte) (hzs : 0x00#8 ∉ zs) : (zs ++ 0x00#8 :: ws).takeWhile (· != 0x00#8) = zs := by
    have hnozero : ∀ b ∈ zs, (b != 0x00#8) = true := fun b hb => bne_iff_ne.2 (ne_of_mem_of_not_mem hb hzs)
    rw [List.takeWhile_append_of_pos hnozero, List.takeWhile_cons_of_neg (by decide), List.append_nil]
  have hleft : xs = xs' := by rw [← htake xs ys hxs, h, htake xs' ys' hxs']
  subst hleft
  exact ⟨rfl, (List.cons.inj (List.append_cancel_left h)).2⟩

/-- The bytes of a slot fix its separator, if there is a zero among them. -/
theorem Slot.frame_of_bytes {p : Params} {sl : Slot} {topic payload : List Byte} (h : sl.V4 p) (htopic : 0x00#8 ∉ topic)
    (hbytes : sl.bytes = topic ++ 0x00#8 :: payload) :
    sl.sepValid = true ∧ sl.topic = topic ∧ sl.payload = payload := by
  have hsep : sl.sepValid = true := by
    obtain ⟨-, -, hinvalid, -⟩ := h
    by_contra hnosep
    obtain ⟨-, hnozero⟩ := hinvalid (Bool.eq_false_iff.2 hnosep)
    have hmem : 0x00#8 ∈ sl.bytes := hbytes ▸ List.mem_append_right _ List.mem_cons_self
    obtain ⟨k, hk, hread⟩ := List.mem_map.1 hmem
    exact hnozero k (List.mem_range.1 hk) hread
  obtain ⟨hcut, hfirst⟩ := Slot.frame_of_sepValid h hsep
  exact ⟨hsep, cut_at_zero_unique hfirst htopic (hcut.symm.trans hbytes)⟩

/-! #### A reception under way -/

/-- A reception that began in `s` has come to `t`: the active slot holds the decoded bytes `bs`, the escape flag is `esc`, the
last byte came at the tick `last`, nothing has been reported, and what the end of the frame reads is as it was in `s`. -/
structure Receives (s : State) (esc : Bool) (bs : List Byte) (last : Nat) (t : State) : Prop where
  params : t.params = s.params
  sound : t.Sound
  state : t.engine.state = .receiving
  esc : t.engine.rxEsc = esc
  undropped : t.engine.rxDrop = false
  active : t.engine.rxActive = s.engine.rxActive
  pending : t.engine.txPending = s.engine.txPending
  priority : t.engine.cfgPriority = s.engine.cfgPriority
  stamp : t.engine.lastActivity = last % 2 ^ s.params.tickBits
  trace : t.port.trace = s.port.trace
  slot : ∃ sl, t.engine.slots[s.engine.rxActive]? = some sl ∧ sl.bytes = bs

section
variable {s t : State} {esc : Bool} {bs : List Byte} {last : Nat}

/-- One byte that is not END and completes no invalid escape is decoded, and what it decodes to is stored (R122, R177). -/
theorem Receives.rxByte {c : Byte} (h : Receives s esc bs last t) (hc : c ≠ endByte)
    (hdesync : (decStepOf esc c).desync = false)
    (hroom : (bs ++ (decStepOf esc c).byte.toList).length ≤ s.params.rxSlotCap) (now : Nat) :
    ∃ u, exec (.rxByte c) (t.atTick now) = .next u ∧
      Receives s (decStepOf esc c).rxEsc (bs ++ (decStepOf esc c).byte.toList) now u := by
  obtain ⟨sl, hsl, rfl⟩ := h.slot
  obtain rfl : t.engine.rxEsc = esc := h.esc
  have hactive : t.engine.slots[t.engine.rxActive]? = some sl := by rw [h.active, hsl]
  have hwf : sl.buf.wf = true := h.sound.engine.range.bufWf sl (List.mem_of_getElem? hsl)
  obtain ⟨sl', hdec, hbytes⟩ := decStep_stores (p := t.params) (e := (t.atTick now).stamped) h.undropped hactive hwf hdesync
    (by rw [h.params]; exact hroom)
  have hexec : exec (.rxByte c) (t.atTick now) = _ := receive_receiving hc h.state hdec
  refine ⟨_, hexec, { h with sound := (h.sound.atTick now).of_exec hexec, esc := rfl, stamp := ?_, trace := ?_,
                             slot := ⟨sl', ?_, hbytes⟩ }⟩
  · rw [← h.params]; rfl
  · exact (List.append_nil _).trans h.trace
  · rw [← h.active]; exact getElem?_setSlot_same (e := t.engine) hactive

/-- Byte by byte the engine stores what the stream decoder makes of the bytes (R131). -/
theorem Receives.rxBytes {xs : List (Byte × Nat)} (h : Receives s esc bs last t) (hend : endByte ∉ xs.map Prod.fst)
    (hdesyncs : (decodeFrom esc (xs.map Prod.fst)).desyncs = 0)
    (hroom : (bs ++ (decodeFrom esc (xs.map Prod.fst)).bytes).length ≤ s.params.rxSlotCap) :
    ∃ u, execScript (xs.map (fun x => (.rxByte x.1, x.2))) t = .next u ∧
      Receives s (decodeFrom esc (xs.map Prod.fst)).rxEsc (bs ++ (decodeFrom esc (xs.map Prod.fst)).bytes)
        ((xs.map Prod.snd).getLastD last) u := by
  induction xs generalizing esc bs last t with
  | nil => exact ⟨t, rfl, by simpa [decodeFrom] using h⟩
  | cons x xs ih =>
    obtain ⟨c, now⟩ := x
    rw [List.map_cons, List.mem_cons, not_or] at hend
    obtain ⟨hc, hend⟩ := hend
    simp only [List.map_cons, decodeFrom, Nat.add_eq_zero_iff, ite_eq_right_iff, Nat.one_ne_zero, imp_false,
      Bool.not_eq_true, ← List.append_assoc] at hdesyncs hroom ⊢
    obtain ⟨hdesync, hdesyncs⟩ := hdesyncs
    have hbyte : (bs ++ (decStepOf esc c).byte.toList).length ≤ s.params.rxSlotCap :=
      (List.sublist_append_left _ _).length_le.trans hroom
    obtain ⟨u, hu, hreceives⟩ := h.rxByte (Ne.symm hc) hdesync hbyte now
    obtain ⟨v, hv, hfinal⟩ := ih hreceives hend hdesyncs hroom
    refine ⟨v, ?_, by rw [List.getLastD_cons]; exact hfinal⟩
    rw [execScript, hu]
    exact hv

/-- The END after the last byte, inside the grace window, hands the slot over if its bytes are a frame (R165, R224). -/
theorem Receives.deliver {topic payload : List Byte} {fin : Nat} (h : Receives s false (topic ++ 0x00#8 :: payload) last t)
    (htopic : 0x00#8 ∉ topic) (hwindow : elapsed s.params fin last ≤ s.params.tResync) :
    ∃ u sl, exec (.rxByte 0x00#8) (t.atTick fin) = .next u ∧ u.engine.slots[s.engine.rxActive]? = some sl ∧
      sl.available = true ∧ sl.sep = topic.length ∧ sl.len = topic.length + 1 + payload.length ∧
      sl.topic = topic ∧ sl.payload = payload ∧ u.engine.rxActive = (s.engine.rxActive + 1) % s.params.nSlots ∧
      u.port.trace = s.port.trace ++
        (.notify :: (if 0 < s.engine.txPending then [.send (prioByte s.engine.cfgPriority.toInt)] else [])) := by
  obtain ⟨sl, hsl, hbytes⟩ := h.slot
  have hactive : t.engine.slots[t.engine.rxActive]? = some sl := by rw [h.active, hsl]
  obtain ⟨hsep, rfl, rfl⟩ :=
    Slot.frame_of_bytes (h.sound.engine.v4 sl (List.mem_of_getElem? hsl)) htopic hbytes
  have hlen : sl.len = sl.topic.length + 1 + sl.payload.length := by
    rw [← sl.bytes_length, hbytes, List.length_append, List.length_cons]
    omega
  have hwindow' : elapsed t.params (t.atTick fin).tick t.engine.lastActivity ≤ t.params.tResync := by
    rw [atTick_tick, h.stamp, h.params, elapsed_mod]
    exact hwindow
  obtain ⟨u, hu, -, -, -, -, -, -, -, -, -, -, -, -, -, htrace, hdelivered, -⟩ :=
    endInReceptionEndsTheFrame (t.atTick fin) (.rxByte 0x00#8) sl (.inl rfl) (h.sound.atTick fin) h.state hwindow' hactive
  obtain ⟨hslots, hnext⟩ := hdelivered ⟨h.undropped, hsep⟩
  simp only [atTick_engine, atTick_params, atTick_trace, h.esc, h.undropped, h.active, h.pending, h.priority, h.params,
    h.trace] at htrace hslots hnext
  rw [hsep] at htrace
  have hu_slot : u.engine.slots[s.engine.rxActive]? = some { sl with available := true } := by
    rw [hslots]
    exact getElem?_setSlot_same (e := t.engine) hsl
  exact ⟨u, { sl with available := true }, hu, hu_slot, rfl, sl.topic_length.symm, hlen, rfl, rfl, hnext, htrace⟩

end

/-- Settles O60: the engine stores what the stream decoder makes of the encoding, which by the round trip is the frame, and the
END delivers it; V4 tells where the separator is. -/
theorem aReceivedFrameIsDelivered : Obligations.AReceivedFrameIsDelivered := by
  intro s sl topic payload ticks last fin hs hst hesc hdrop hsl hlen _ htopic hfits hticks hlast hwindow
  have hbegun : Receives s false [] s.engine.lastActivity s :=
    ⟨rfl, hs, hst, hesc, hdrop, rfl, rfl, rfl, (Nat.mod_eq_of_lt hs.engine.range.lastActivity).symm, rfl,
      sl, hsl, by rw [Slot.bytes, hlen]; rfl⟩
  have hbytes := List.map_fst_zip (Nat.le_of_eq hticks.symm)
  have hstamps := List.map_snd_zip (Nat.le_of_eq hticks)
  have hdecoded : decodeFrom false (encodeBytes (topic ++ 0x00#8 :: payload)) =
      { bytes := topic ++ 0x00#8 :: payload, rxEsc := false, desyncs := 0 } := codecRoundTrip _
  obtain ⟨t, ht, hreceived⟩ := hbegun.rxBytes (xs := (encodeBytes (topic ++ 0x00#8 :: payload)).zip ticks)
    (by rw [hbytes]; exact end_notMem_encodeBytes _)
    (by rw [hbytes, hdecoded])
    (by rw [hbytes, hdecoded, List.nil_append, List.length_append, List.length_cons]; omega)
  rw [hbytes, hstamps, hdecoded, List.getLastD_eq_getLast?, hlast] at hreceived
  obtain ⟨u, sl', hu, hend⟩ := hreceived.deliver htopic hwindow
  refine ⟨u, sl', ?_, hend⟩
  rw [execScript_append, ht, onNext, execScript, hu]
  rfl

end Sys2Proof.Machine

/-! ### Configuration and query (R240 to R243) -/

namespace Sys2Proof.Machine

/-! #### SET_CHIP_ID (R240) -/

theorem exec_setChipId (id : BitVec 14) (s : State) :
    exec (.setChipId id) s = .next (s.finish { s.engine with cfgChipId := id } [] okAnswer) := rfl

/-- The word of operation code 1 is SET_CHIP_ID of the low fourteen bits of its `arg`, whatever the two above them. -/
theorem decodeCommand_setChipId_word (arg : BitVec 16) :
    decodeCommand (1#4 ++ arg) = .ok (.setChipId (arg.extractLsb' 0 14)) := by
  have hop : cmdOp (1#4 ++ arg) = 1#4 := cmdOp_mkCmd 1#4 arg
  have harg : cmdArg (1#4 ++ arg) = arg := cmdArg_mkCmd 1#4 arg
  rw [decodeCommand_setChipId hop, harg, argId]

/-- Settles O31: the word of the command decodes to SET_CHIP_ID of its low bits, and the step runs that instruction. -/
theorem setChipIdStoresFourteenBits : Obligations.SetChipIdStoresFourteenBits := by
  refine ⟨fun s id => exec_setChipId id s, fun s arg now rest hp => ?_⟩
  rw [step_command hp (decodeCommand_setChipId_word arg), exec_setChipId, accept_engine]

/-! #### SET_PRIORITY (R241) -/

theorem exec_setPriority (v : BitVec 16) (s : State) :
    exec (.setPriority v) s =
      .next (s.finish { s.engine with cfgPriority := priorityBits (clampPriority (priorityOperand v)) } [] okAnswer) := rfl

/-- The register loses nothing of a clamped priority. -/
theorem priorityBits_clampPriority_toInt (v : Int) : (priorityBits (clampPriority v)).toInt = clampPriority v := by
  obtain ⟨hlow, hhigh⟩ := clampPriority_bounds v
  exact priorityBits_toInt hlow hhigh

/-- Settles O32: the byte stored is the clamped operand's, which the clamp keeps within eight signed bits. -/
theorem setPriorityStoresTheClampedValue : Obligations.SetPriorityStoresTheClampedValue :=
  fun s v => ⟨_, priorityBits_clampPriority_toInt v.toInt, exec_setPriority v s⟩

/-! #### IS_IDLE (R242, R243) -/

theorem exec_isIdle (s : State) :
    exec .isIdle s =
      .next (s.finish s.engine [] { status := .ok, result := .idleBit (isIdle s.params s.tick s.engine) }) := rfl

/-- A bound on the elapsed time is a bound on the modular difference, as an integer. -/
theorem lt_elapsed_iff {p : Params} {now t k : Nat} :
    k < elapsed p now t ↔ (k : Int) < ((now : Int) - (t : Int)) % (2 ^ p.tickBits : Int) := by
  rw [elapsed, Int.lt_toNat, Nat.cast_pow, Nat.cast_ofNat]

theorem isIdle_iff {p : Params} {now : Nat} {e : Engine} :
    isIdle p now e = true ↔ e.state = .idle ∨ p.tIdle < elapsed p now e.lastActivity := by
  rw [isIdle, Bool.or_eq_true, decide_eq_true_iff, decide_eq_true_iff]

/-- Settles O33: the bit answered is the idle predicate, whose window is a strict bound on the elapsed time. -/
theorem isIdleAnswersTheIdleBit : Obligations.IsIdleAnswersTheIdleBit :=
  fun s => ⟨_, exec_isIdle s, isIdle_iff.trans (or_congr_right lt_elapsed_iff)⟩

end Sys2Proof.Machine

/-! ### No operation stops a sound machine (R250, R265) -/

namespace Sys2Proof.Machine

/-! #### The byte pump has a next engine

Each rule below runs through where `rx_active` names a slot; a bound on that slot's length or on `arb_index` is added where a
rule needs one. -/

section
variable {p : Params} {e : Engine} {c : Byte} {sl : Slot} (hsl : e.slots[e.rxActive]? = some sl)
include hsl

theorem exists_beginReception : ∃ x, beginReception e = .ok x := by
  cases havail : sl.available with
  | false => exact ⟨_, beginReception_free hsl havail⟩
  | true => exact ⟨_, beginReception_taken hsl havail⟩

/-- A seventh byte at most is counted, never an eighth (R39 V3). -/
theorem exists_waitStep (hi : e.arbIndex ≤ 6) : ∃ x, waitStep e = .ok x := by
  obtain hi | hi := Nat.lt_or_eq_of_le hi
  · exact ⟨_, waitStep_counts hi⟩
  · rw [waitStep_seventh hi]
    exact exists_beginReception (e := { e with arbIndex := 7 }) hsl

theorem exists_partLose : ∃ x, partLose e = .ok x := by
  by_cases hi : e.arbIndex = 7
  · rw [partLose_seventh hi]
    exact exists_beginReception hsl
  · exact ⟨_, partLose_listens hi⟩

theorem exists_partMap (hi : e.arbIndex ≤ 6) : ∃ x, partMap e c = .ok x := by
  cases hlost : arbLost e.mismatchPos e.arbIndex c with
  | true =>
    rw [partMap_lost hlost]
    exact exists_partLose (e := { e with arbIndex := e.arbIndex + 1 }) hsl
  | false =>
    obtain hi | hi := Nat.lt_or_eq_of_le hi
    · exact ⟨_, partMap_survived hlost hi⟩
    · exact ⟨_, partMap_won hlost hi⟩

/-- The indices 0 to 6 are the rows of R172 to R174; at 7 there is no row. -/
theorem exists_partStep (hi : e.arbIndex ≤ 6) : ∃ x, partStep e c = .ok x := by
  obtain hident | hlat | hmap : e.arbIndex ≤ 2 ∨ e.arbIndex = 3 ∨ 4 ≤ e.arbIndex := by omega
  · exact ⟨_, partStep_identity hident⟩
  · exact ⟨_, partStep_latency hlat⟩
  · rw [partStep_map hmap hi]
    exact exists_partMap hsl hi

/-- A slot that is not full has a cell for the byte, and a full one drops the frame (R221, R223). -/
theorem exists_rxEmit (hlen : sl.len ≤ p.rxSlotCap) (d : Byte) : ∃ x, rxEmit p d e = .ok x := by
  cases hdrop : e.rxDrop with
  | true => exact ⟨_, rxEmit_dropped hdrop⟩
  | false =>
    obtain hroom | hfull := Nat.lt_or_eq_of_le hlen
    · exact ⟨_, rxEmit_stores hdrop hsl hroom⟩
    · exact ⟨_, rxEmit_overflows hdrop hsl hfull⟩

/-- Of the decode step's outcomes only a decoded byte touches the slot (R122). -/
theorem exists_decStep (hlen : sl.len ≤ p.rxSlotCap) : ∃ x, decStep p c e = .ok x := by
  unfold decStep
  simp only
  split
  · next d _ => exact exists_rxEmit (e := { e with rxEsc := (decStepOf e.rxEsc c).rxEsc }) hsl hlen d
  · split <;> exact ⟨_, rfl⟩

/-- A data byte by the handler state (R170); V3 bounds `arb_index` in the two states that arbitrate. -/
theorem exists_dataStep (hlen : sl.len ≤ p.rxSlotCap) (hv3 : V3 e) : ∃ x, dataStep p c e = .ok x := by
  obtain ⟨hpart, hwait, -⟩ := hv3
  unfold dataStep
  split
  case h_4 hst => exact exists_waitStep hsl (hwait hst)
  case h_5 hst => exact exists_partStep hsl (hpart hst).2
  case h_6 => exact exists_decStep hsl hlen
  all_goals exact ⟨_, rfl⟩

/-- The raw END by the handler state: only the end of a frame body looks at a slot (R165, R224). -/
theorem exists_endStep : ∃ x, endStep p e = .ok x := by
  cases hst : e.state with
  | receiving =>
    obtain ⟨_, _, hdeliver, -⟩ := deliver_of_slot (e := { e with rxEsc := false }) p hsl
    exact ⟨_, endStep_of_deliver hst hdeliver⟩
  | sending => exact ⟨_, endStep_sending hst⟩
  | sendingComplete => exact ⟨_, endStep_sendingComplete hst⟩
  | idle => exact ⟨_, endStep_rearb (.inl hst)⟩
  | participatingArbitration => exact ⟨_, endStep_rearb (.inr (.inl hst))⟩
  | waitingArbitration => exact ⟨_, endStep_rearb (.inr (.inr hst))⟩

end

/-- The bytes of the transport at a sound engine: `rx_active` is in the pool, and V3 and V4 give the two bounds. The timestamp
and the resync change nothing that the steps rest on (R161, R162). -/
theorem exists_rxByteStep {p : Params} {e : Engine} (hs : Sound p e) (now : Nat) (c : Byte) :
    ∃ x, rxByteStep p now c e = .ok x := by
  obtain ⟨sl, hsl⟩ := exists_slot_of_lt hs hs.range.active
  obtain ⟨hlen, -⟩ := hs.v4 sl (List.mem_of_getElem? hsl)
  unfold rxByteStep
  simp only
  split
  · split
    · exact exists_endStep (e := forceIdle { e with lastActivity := now }) hsl
    · exact exists_endStep (e := { e with lastActivity := now }) hsl
  · exact exists_dataStep (e := { e with lastActivity := now }) hsl hlen hs.v3

/-- No drain faults while `tx_tail` is inside the ring. -/
theorem exists_drainStep {p : Params} {e : Engine} (htail : e.txTail < p.txqCap) : ∃ x, drainStep p e = .ok x := by
  by_cases hempty : e.txHead = e.txTail
  · exact ⟨_, drainStep_empty hempty⟩
  · exact ⟨_, drainStep_queued hempty htail⟩

/-! #### Every operation completes -/

section
variable {s : State}

/-- The bytes of the transport, shared by RX_BYTE and the five wire symbols. -/
theorem receive_completes (hs : Sound s.params s.engine) (c : Byte) : Completes (receive c s) := by
  obtain ⟨x, hx⟩ := exists_rxByteStep hs s.tick c
  exact ⟨_, receive_of_ok hx⟩

theorem txStart_completes (s : State) : Completes (exec .txStart s) := by
  cases hlock : s.engine.txLock with
  | true => exact ⟨_, execTxStart_of_locked hlock⟩
  | false => exact ⟨_, execTxStart_of_unlocked hlock⟩

/-- A push without the lock or without room is answered; with room its bytes are appended from `tx_head` on. -/
theorem txPush_completes (hhead : s.engine.txHead < s.params.txqCap) (b : Byte) : Completes (exec (.txPush b) s) := by
  cases hlock : s.engine.txLock with
  | false => exact ⟨_, execTxPush_of_unlocked hlock⟩
  | true =>
    by_cases hover : s.engine.txOvf = true ∨ txqFree s.params s.engine < (enc b).length + 1
    · exact ⟨_, execTxPush_of_overflow hlock hover⟩
    · obtain ⟨hovf, hfree⟩ := not_or.1 hover
      obtain ⟨e, he⟩ := exists_appendCells hhead (enc b)
      exact ⟨_, execTxPush_of_appendCells hlock (Bool.eq_false_iff.2 hovf) (Nat.not_lt.1 hfree) he⟩

/-- A close without the lock or with the overflow mark is answered; any other writes its terminator at `tx_head`. -/
theorem txClose_completes (hhead : s.engine.txHead < s.params.txqCap) : Completes (exec .txClose s) := by
  cases hlock : s.engine.txLock with
  | false => exact ⟨_, execTxClose_of_unlocked hlock⟩
  | true =>
    by_cases hover : s.engine.txOvf = true ∨ txqFree s.params s.engine = 0
    · exact ⟨_, execTxClose_of_overflow hlock hover⟩
    · obtain ⟨hovf, hfree⟩ := not_or.1 hover
      obtain ⟨x, hx⟩ := exists_closeSteps hhead s.tick
      exact ⟨_, execTxClose_of_closeSteps hlock (Bool.eq_false_iff.2 hovf) (Nat.pos_of_ne_zero hfree) hx⟩

theorem rxRead_completes (hs : s.Sound) (slot : BitVec 4) (k : BitVec 12) : Completes (exec (.rxRead slot k) s) := by
  obtain ⟨hbeyond, hinside⟩ := rxReadAnswersTheSlot s slot k hs
  obtain hlt | hle := Nat.lt_or_ge slot.toNat s.params.nSlots
  · obtain ⟨_, -, hread⟩ := hinside hlt
    exact ⟨_, hread⟩
  · exact ⟨_, hbeyond hle⟩

theorem rxRelease_completes (hs : s.Sound) (slot : BitVec 4) : Completes (exec (.rxRelease slot) s) := by
  obtain ⟨hbeyond, hinside⟩ := rxReleaseClearsAvailable s slot hs
  obtain hlt | hle := Nat.lt_or_ge slot.toNat s.params.nSlots
  · obtain ⟨_, -, hrelease⟩ := hinside hlt
    exact ⟨_, hrelease⟩
  · exact ⟨_, hbeyond hle⟩

theorem txReady_completes (htail : s.engine.txTail < s.params.txqCap) : Completes (exec .txReady s) := by
  by_cases hst : s.engine.state = .sending
  · obtain ⟨x, hx⟩ := exists_drainStep htail
    exact ⟨_, execTxReady_of_drain hst hx⟩
  · exact ⟨_, txReadyElsewhereDoesNothing s hst⟩

/-- Every operation with every operand answers a next state from a sound one. -/
theorem exec_completes (hs : s.Sound) (i : Instr) : Completes (exec i s) := by
  cases i with
  | setChipId id => exact ⟨_, exec_setChipId id s⟩
  | setPriority v => exact ⟨_, exec_setPriority v s⟩
  | isIdle => exact ⟨_, exec_isIdle s⟩
  | txStart => exact txStart_completes s
  | txPush b => exact txPush_completes hs.engine.range.head b
  | txClose => exact txClose_completes hs.engine.range.head
  | rxRead slot offset => exact rxRead_completes hs slot offset
  | rxRelease slot => exact rxRelease_completes hs slot
  | txReady => exact txReady_completes hs.engine.range.tail
  | rxByte c => exact receive_completes hs.engine c
  | endSym => exact receive_completes hs.engine endByte
  | esc => exact receive_completes hs.engine escByte
  | escEnd => exact receive_completes hs.engine escEndByte
  | escEsc => exact receive_completes hs.engine escEscByte
  | lit b => exact receive_completes hs.engine b

/-- A step runs an instruction on the machine that has accepted the input, answers REJECTED to a reserved code, or resets. -/
theorem step_completes (hs : s.Sound) : Completes (step s) := by
  cases hp : s.port.pending with
  | nil => exact ⟨_, step_of_no_input hp⟩
  | cons x rest =>
    cases x with
    | reset => exact ⟨_, step_of_pending hp⟩
    | wireByte b now =>
      rw [step_wireByte hp]
      exact exec_completes (hs.accept _ rest) _
    | command w now =>
      cases hd : decodeCommand w with
      | ok i =>
        rw [step_command hp hd]
        exact exec_completes (hs.accept _ rest) i
      | error r => exact ⟨_, step_command_error hp hd⟩

end

/-- Settles O14: a sound engine has every index inside its array and, while it arbitrates, `arb_index` at most 6, so no operation
meets a fault; a step is one of them, REJECTED for a reserved code, the reset, or idle. -/
theorem nothingStopsASoundMachine : Obligations.NothingStopsASoundMachine :=
  fun _ hs => ⟨step_completes hs, exec_completes hs⟩

end Sys2Proof.Machine

/-! ### Several nodes on the AND test bench (R273, R288) -/

namespace Sys2Proof.Machine

/-! #### The order of the numbers and the order of the recorded positions -/

section
variable {n p q r : Nat} {x y z : BitVec n}

theorem MismatchAt.le_width (h : MismatchAt x z r) : r ≤ n := by
  by_cases heq : x = z
  · exact h.1 heq ▸ Nat.zero_le n
  · obtain ⟨k, hk, rfl, -⟩ := h.2 heq
    exact hk

theorem MismatchAt.eq_zero_iff (h : MismatchAt x z r) : r = 0 ↔ x = z :=
  ⟨fun hr => by_contra fun hne => h.ne_zero hne hr, h.1⟩

theorem MismatchAt.bit_ne {k : Nat} (h : MismatchAt x z (k + 1)) : x.getLsbD k ≠ z.getLsbD k := by
  obtain ⟨k', -, hk, hbit, -⟩ := h.2 (mt h.1 (Nat.succ_ne_zero k))
  obtain rfl := Nat.succ.inj hk
  exact hbit

/-- From bit `r` on, which is above the bit that position `r` names, the two registers agree. -/
theorem MismatchAt.agree {j : Nat} (h : MismatchAt x z r) (hj : r ≤ j) : x.getLsbD j = z.getLsbD j := by
  by_cases heq : x = z
  · rw [heq]
  · obtain ⟨k, -, rfl, -, habove⟩ := h.2 heq
    obtain hlt | hge := Nat.lt_or_ge j n
    · exact habove j hj hlt
    · rw [BitVec.getLsbD_of_ge x j hge, BitVec.getLsbD_of_ge z j hge]

/-- Against a register `z` of which every 1 bit is one of `x`, the lower number never records the higher position: at its top
difference `x` has a 1 where `z` has a 0, so a `y` that still agrees with `z` from there on is below `x`. -/
theorem MismatchAt.le_of_toNat_le (hx : MismatchAt x z p) (hy : MismatchAt y z q)
    (hsub : ∀ k, z.getLsbD k = true → x.getLsbD k = true) (hle : x.toNat ≤ y.toNat) : p ≤ q := by
  by_contra! hqp
  obtain ⟨k, rfl⟩ := Nat.exists_eq_succ_of_ne_zero (Nat.ne_zero_of_lt hqp)
  have hz : z.getLsbD k = false := by
    by_contra hset
    rw [Bool.not_eq_false] at hset
    exact hx.bit_ne ((hsub k hset).trans hset.symm)
  have hxk : x.getLsbD k = true := by
    rw [← Bool.not_eq_false, ← hz]
    exact hx.bit_ne
  have hyk : y.getLsbD k = false := (hy.agree (Nat.le_of_lt_succ hqp)).trans hz
  have hlt : y.toNat < x.toNat := Nat.lt_of_testBit k hyk hxk fun j hj =>
    (hy.agree (Nat.le_trans (Nat.le_of_lt hqp) hj)).trans (hx.agree hj).symm
  exact Nat.not_le_of_lt hlt hle

/-- Two registers cannot both record the same bit against their own conjunction. -/
theorem MismatchAt.ne_of_and (hx : MismatchAt x (x &&& y) p) (hy : MismatchAt y (x &&& y) q) (hp : p ≠ 0) : p ≠ q := by
  rintro rfl
  obtain ⟨k, rfl⟩ := Nat.exists_eq_succ_of_ne_zero hp
  have hxk := hx.bit_ne
  have hyk := hy.bit_ne
  rw [BitVec.getLsbD_and] at hxk hyk
  cases hbit : y.getLsbD k with
  | false => simp [hbit] at hyk
  | true => simp [hbit] at hxk

end

/-! #### What the bus shows (R273) -/

theorem busByte_getLsbD {sent : List Byte} {k : Nat} (hk : k < 8) :
    (busByte sent).getLsbD k = true ↔ ∀ c ∈ sent, c.getLsbD k = true := by
  induction sent with
  | nil =>
    rw [show busByte [] = BitVec.allOnes 8 from rfl, BitVec.getLsbD_allOnes, decide_eq_true hk]
    exact iff_of_true rfl (List.forall_mem_nil _)
  | cons c sent ih =>
    rw [show busByte (c :: sent) = c &&& busByte sent from rfl, BitVec.getLsbD_and, Bool.and_eq_true, ih, List.forall_mem_cons]

/-- One more node combines its number with what the others show. -/
theorem busIdentity_cons_number (a : Identity) (ids : List Identity) :
    (busIdentity (a :: ids)).number = a.number &&& (busIdentity ids).number := by
  have hbytes (x x' y y' z z' : Byte) : (x ++ y ++ z) &&& (x' ++ y' ++ z') = (x &&& x') ++ (y &&& y') ++ (z &&& z') := by
    rw [BitVec.and_append, BitVec.and_append]
  exact (hbytes _ _ _ _ _ _).symm

theorem busIdentity_pair_number (a b : Identity) : (busIdentity [a, b]).number = a.number &&& b.number := by
  have hsilent : (busIdentity []).number = BitVec.allOnes 24 := rfl
  rw [busIdentity_cons_number, busIdentity_cons_number, hsilent, BitVec.and_allOnes]

/-- A 1 on the bus is a 1 of every node. -/
theorem number_getLsbD_of_busIdentity {ids : List Identity} {a : Identity} {k : Nat} (ha : a ∈ ids)
    (hbus : (busIdentity ids).number.getLsbD k = true) : a.number.getLsbD k = true := by
  induction ids with
  | nil => exact absurd ha List.not_mem_nil
  | cons b ids ih =>
    rw [busIdentity_cons_number, BitVec.getLsbD_and, Bool.and_eq_true] at hbus
    obtain ⟨hown, hothers⟩ := hbus
    obtain rfl | hmem := List.mem_cons.1 ha
    · exact hown
    · exact ih hmem hothers

theorem recordedPos_le (own bus : Identity) : recordedPos own bus ≤ 24 := (recordedPos_mismatchAt own bus).le_width

/-- Among the nodes on the bus, a lower identity records a lower position or the same. -/
theorem recordedPos_le_of_number_le {ids : List Identity} {a b : Identity} (ha : a ∈ ids)
    (hle : a.number.toNat ≤ b.number.toNat) : recordedPos a (busIdentity ids) ≤ recordedPos b (busIdentity ids) :=
  (recordedPos_mismatchAt a _).le_of_toNat_le (recordedPos_mismatchAt b _) (fun _ => number_getLsbD_of_busIdentity ha) hle

/-! #### Exclusion by the maps on the bus (R146, R147) -/

section
variable {p q i : Nat}

/-- Bit `k` of map byte `i` stands for the position `8 * (6 - i) + k + 1`, as in the loss test's mask. -/
theorem mapByte_getLsbD {k : Nat} (hlow : 4 ≤ i) (hhigh : i ≤ 6) (hk : k < 8) :
    (mapByte q i).getLsbD k = decide (8 * (6 - i) + k + 1 ≠ q) := by
  have hbyte : mapByte q i = (collMask q).extractLsb' (8 * (6 - i)) 8 := by
    obtain rfl | rfl | rfl : i = 4 ∨ i = 5 ∨ i = 6 := by omega
    · rfl
    · rfl
    · rfl
  rw [hbyte, BitVec.getLsbD_extractLsb', decide_eq_true hk, Bool.true_and, collMask_getLsbD (by omega)]

/-- A node's map excludes exactly the nodes with a strictly higher position, in the byte its own position falls into. -/
theorem arbLost_mapByte_iff (hp : p ≤ 24) (hlow : 4 ≤ i) (hhigh : i ≤ 6) :
    arbLost p i (mapByte q i) = true ↔ q < p ∧ 8 * (6 - i) < q ∧ q ≤ 8 * (6 - i) + 8 := by
  rw [arbLost_iff]
  constructor
  · rintro ⟨k, hk, hclear, hmask⟩
    rw [mapByte_getLsbD hlow hhigh hk, decide_eq_false_iff_not, not_not] at hclear
    rw [lowMask_getLsbD hp hk, decide_eq_true_eq] at hmask
    omega
  · rintro ⟨hqp, habove, hbelow⟩
    have hk : q - 1 - 8 * (6 - i) < 8 := by omega
    refine ⟨q - 1 - 8 * (6 - i), hk, ?_, ?_⟩
    · rw [mapByte_getLsbD hlow hhigh hk, decide_eq_false_iff_not, not_not]
      omega
    · rw [lowMask_getLsbD hp hk, decide_eq_true_eq]
      omega

/-- Every position but 0 falls into one of the three map bytes. -/
theorem exists_arbLost_mapByte (hp : p ≤ 24) (hq : q ≠ 0) (hqp : q < p) :
    ∃ i, 4 ≤ i ∧ i ≤ 6 ∧ arbLost p i (mapByte q i) = true := by
  have hlow : 4 ≤ 6 - (q - 1) / 8 := by omega
  have hhigh : 6 - (q - 1) / 8 ≤ 6 := Nat.sub_le _ _
  exact ⟨_, hlow, hhigh, (arbLost_mapByte_iff hp hlow hhigh).2 (by omega)⟩

/-- The bus excludes a node exactly if the byte of one of the senders does. -/
theorem arbLost_busByte_iff {sent : List Byte} : arbLost p i (busByte sent) = true ↔ ∃ c ∈ sent, arbLost p i c = true := by
  have hclear : ∀ k < 8, (busByte sent).getLsbD k = false ↔ ∃ c ∈ sent, c.getLsbD k = false := by
    intro k hk
    rw [← Bool.not_eq_true, busByte_getLsbD hk]
    push Not
    simp
  simp only [arbLost_iff]
  constructor
  · rintro ⟨k, hk, hbus, hmask⟩
    obtain ⟨c, hc, hbit⟩ := (hclear k hk).1 hbus
    exact ⟨c, hc, k, hk, hbit, hmask⟩
  · rintro ⟨c, hc, k, hk, hbit, hmask⟩
    exact ⟨k, hk, (hclear k hk).2 ⟨c, hc, hbit⟩, hmask⟩

theorem neverExcluded_iff {maps : Nat → Byte} :
    neverExcluded p maps = true ↔ ∀ i, 4 ≤ i → i ≤ 6 → arbLost p i (maps i) = false := by
  simp only [neverExcluded, Bool.and_eq_true, Bool.not_eq_true']
  constructor
  · rintro ⟨⟨h4, h5⟩, h6⟩ i hlow hhigh
    obtain rfl | rfl | rfl : i = 4 ∨ i = 5 ∨ i = 6 := by omega
    · exact h4
    · exact h5
    · exact h6
  · intro h
    exact ⟨⟨h 4 (by omega) (by omega), h 5 (by omega) (by omega)⟩, h 6 (by omega) (by omega)⟩

/-- On the bench a node is never excluded exactly if no byte sent excludes it. -/
theorem neverExcluded_busByte_iff {sent : Nat → List Byte} :
    neverExcluded p (fun i => busByte (sent i)) = true ↔ ∀ i, 4 ≤ i → i ≤ 6 → ∀ c ∈ sent i, arbLost p i c ≠ true := by
  rw [neverExcluded_iff]
  refine forall_congr' fun i => imp_congr_right fun _ => imp_congr_right fun _ => ?_
  rw [← Bool.not_eq_true, arbLost_busByte_iff]
  push Not
  rfl

/-- A map excludes only nodes with a strictly higher position. -/
theorem not_arbLost_mapByte_of_le (hp : p ≤ 24) (hlow : 4 ≤ i) (hhigh : i ≤ 6) (hpq : p ≤ q) :
    arbLost p i (mapByte q i) ≠ true :=
  fun hlost => Nat.not_lt_of_le hpq ((arbLost_mapByte_iff hp hlow hhigh).1 hlost).1

end

/-- Settles O29: the lowest identity records the lowest position, and no map excludes a position not above its own. -/
theorem theLowestIdentityIsNeverExcluded : Obligations.TheLowestIdentityIsNeverExcluded := by
  intro ids a senders ha hmin hsenders
  refine neverExcluded_busByte_iff.2 fun i hlow hhigh c hc => ?_
  obtain ⟨b, hb, rfl⟩ := List.mem_map.1 hc
  exact not_arbLost_mapByte_of_le (recordedPos_le _ _) hlow hhigh
    (recordedPos_le_of_number_le ha (hmin b (hsenders i b hb)))

/-- Settles O30: the lower node records 0 exactly if the conjunction is its own number; if it records another position, that one
is strictly below the higher node's, whose bit it then clears. -/
theorem twoNodesBothWinExactlyForABitSubset : Obligations.TwoNodesBothWinExactlyForABitSubset := by
  intro a b hab
  have hposA := recordedPos_mismatchAt a (busIdentity [a, b])
  have hposB := recordedPos_mismatchAt b (busIdentity [a, b])
  have hle : recordedPos a (busIdentity [a, b]) ≤ recordedPos b (busIdentity [a, b]) :=
    recordedPos_le_of_number_le List.mem_cons_self hab.le
  rw [busIdentity_pair_number] at hposA hposB
  rw [neverExcluded_busByte_iff, eq_comm, ← hposA.eq_zero_iff]
  constructor
  · intro hkept
    by_contra hne
    obtain ⟨i, hlow, hhigh, hlost⟩ :=
      exists_arbLost_mapByte (recordedPos_le _ _) hne (lt_of_le_of_ne hle (hposA.ne_of_and hposB hne))
    exact hkept i hlow hhigh _ List.mem_cons_self hlost
  · intro hzero i hlow hhigh c hc
    obtain rfl | rfl : c = mapByte (recordedPos a (busIdentity [a, b])) i ∨
        c = mapByte (recordedPos b (busIdentity [a, b])) i := by simpa using hc
    · rw [hzero, ne_eq, arbLost_mapByte_iff (recordedPos_le _ _) hlow hhigh]
      omega
    · exact not_arbLost_mapByte_of_le (recordedPos_le _ _) hlow hhigh le_rfl

end Sys2Proof.Machine
